-- ==== Sys2Proof/Word.lean ====
section
/-! DEFINITION. The word types of the BVE. A RAM byte, `AUX` and the mask of a bit address are 8-bit words;
a command word is 32 bits (30_encoding.md R70). Bit indices, bit lengths, counts and byte offsets are natural numbers
(00_scope.md R6, R7: "exact on naturals"); their width `W` is the parameter `Config.idxw` (log entry 4). -/

namespace Sys2Proof

/-- One byte of buffer RAM, of `AUX`, of a table index (20_memory.md R53). -/
abbrev Byte := BitVec 8

/-- The 32-bit word the host writes to `CMD` (30_encoding.md R70). -/
abbrev CmdWord := BitVec 32

end Sys2Proof
end

