-- ==== Sys2Proof/Syntax.lean ====
section
/-! DEFINITION. The 20 commands of 30_encoding.md R74, one constructor per row of spec/opcode_table.json. -/

namespace Sys2Proof

/-- Bit-endianness (00_scope.md R12): an order of bits within a byte, never of bytes. -/
inductive Endian
  | little
  | big
deriving DecidableEq, Repr

/-- A command with the fields it uses (30_encoding.md R71). Slot numbers `ba`, `bb` are the 4-bit numbers of the fields
`BA`, `BB`; `v` is the bit value of field `V`. The wide operand `OP` is a register, not part of the command. -/
inductive Instr
  -- 0x0_: pure functions
  | nop
  | decode (e : Endian)
  | bytesfor
  | popb (imm8 : Byte)
  | nibswap (imm8 : Byte)
  -- 0x1_: buffer management
  | create (ba : Nat) (e : Endian)
  | resize (ba : Nat)
  | free (ba : Nat)
  | wrbyte (ba : Nat) (imm8 : Byte)
  | rdbyte (ba : Nat)
  -- 0x2_: bit access and normalisation
  | getbit (ba : Nat)
  | setbit (ba : Nat) (v : Bool)
  | normtail (ba : Nat)
  -- 0x3_: counting and search
  | count (ba : Nat)
  | countn (ba : Nat)
  | findlast (ba : Nat) (v : Bool)
  -- 0x4_: pairwise reduction
  | cntand (ba bb : Nat)
  | cntor (ba bb : Nat)
  | cntxor (ba bb : Nat)
  | subset (ba bb : Nat)
deriving DecidableEq, Repr

end Sys2Proof
end

