-- ==== Sys2Proof/WellFormed.lean ====
section
/-! DEFINITION. Which terms of `Instr` an encoding can hold: every slot number fits its 4-bit field (30_encoding.md R71,
R72). A slot number `≥ NBUF` is well formed (R78). The other fields are of types that hold legal values only. -/

namespace Sys2Proof

/-- A slot number fits the 4-bit field `BA` or `BB`. -/
def slotFieldOk (k : Nat) : Bool := decide (k < 16)

/-- The command can be encoded. -/
def Instr.wf : Instr → Bool
  | .nop => true
  | .decode _ => true
  | .bytesfor => true
  | .popb _ => true
  | .nibswap _ => true
  | .create ba _ => slotFieldOk ba
  | .resize ba => slotFieldOk ba
  | .free ba => slotFieldOk ba
  | .wrbyte ba _ => slotFieldOk ba
  | .rdbyte ba => slotFieldOk ba
  | .getbit ba => slotFieldOk ba
  | .setbit ba _ => slotFieldOk ba
  | .normtail ba => slotFieldOk ba
  | .count ba => slotFieldOk ba
  | .countn ba => slotFieldOk ba
  | .findlast ba _ => slotFieldOk ba
  | .cntand ba bb => slotFieldOk ba && slotFieldOk bb
  | .cntor ba bb => slotFieldOk ba && slotFieldOk bb
  | .cntxor ba bb => slotFieldOk ba && slotFieldOk bb
  | .subset ba bb => slotFieldOk ba && slotFieldOk bb

end Sys2Proof
end

