-- ==== Sys2Proof/Decode.lean ====
section
/-! DEFINITION. The command decoder (30_encoding.md R71 to R78): total on 32-bit words, rejecting by name. After it the
encoder, written from the assembler's rule R80. -/

namespace Sys2Proof

/-- Why a word selects no command (30_encoding.md R73, R77). Both are the status `IllegalCommand`. -/
inductive Reject
  /-- Step (1): the opcode is not one of the 20 of R74. -/
  | unassignedOpcode (opc : Byte)
  /-- Step (2): a reserved bit, or a bit of a field the command does not use, is 1; `bits` are those bits. -/
  | unusedBitsSet (bits : CmdWord)
deriving DecidableEq, Repr

/-- Field `OPC`, bits 7:0. -/
def opcField (w : CmdWord) : Byte := w.extractLsb' 0 8

/-- Field `BA`, bits 11:8: the first or only slot number. -/
def baField (w : CmdWord) : Nat := (w.extractLsb' 8 4).toNat

/-- Field `BB`, bits 15:12: the second slot number. -/
def bbField (w : CmdWord) : Nat := (w.extractLsb' 12 4).toNat

/-- Field `E`, bit 16: `LITTLE = 0`, `BIG = 1` (30_encoding.md R72). -/
def eField (w : CmdWord) : Endian := if w.getLsbD 16 then .big else .little

/-- Field `V`, bit 17: the bit value. -/
def vField (w : CmdWord) : Bool := w.getLsbD 17

/-- Field `IMM8`, bits 31:24. -/
def immField (w : CmdWord) : Byte := w.extractLsb' 24 8

/-- A row of 30_encoding.md R75: the bits fixed for the command, their values, and the command read from a word that
has them. -/
structure Row where
  mask : CmdWord
  mtch : CmdWord
  make : CmdWord → Instr

/-- 30_encoding.md R75, row by row in its order. -/
def opcodeTable : List Row :=
  [ ⟨0xFFFFFFFF#32, 0x00000000#32, fun _ => .nop⟩,
    ⟨0xFFFEFFFF#32, 0x00000001#32, fun w => .decode (eField w)⟩,
    ⟨0xFFFFFFFF#32, 0x00000002#32, fun _ => .bytesfor⟩,
    ⟨0x00FFFFFF#32, 0x00000003#32, fun w => .popb (immField w)⟩,
    ⟨0x00FFFFFF#32, 0x00000004#32, fun w => .nibswap (immField w)⟩,
    ⟨0xFFFEF0FF#32, 0x00000010#32, fun w => .create (baField w) (eField w)⟩,
    ⟨0xFFFFF0FF#32, 0x00000011#32, fun w => .resize (baField w)⟩,
    ⟨0xFFFFF0FF#32, 0x00000012#32, fun w => .free (baField w)⟩,
    ⟨0x00FFF0FF#32, 0x00000013#32, fun w => .wrbyte (baField w) (immField w)⟩,
    ⟨0xFFFFF0FF#32, 0x00000014#32, fun w => .rdbyte (baField w)⟩,
    ⟨0xFFFFF0FF#32, 0x00000020#32, fun w => .getbit (baField w)⟩,
    ⟨0xFFFDF0FF#32, 0x00000021#32, fun w => .setbit (baField w) (vField w)⟩,
    ⟨0xFFFFF0FF#32, 0x00000022#32, fun w => .normtail (baField w)⟩,
    ⟨0xFFFFF0FF#32, 0x00000030#32, fun w => .count (baField w)⟩,
    ⟨0xFFFFF0FF#32, 0x00000031#32, fun w => .countn (baField w)⟩,
    ⟨0xFFFDF0FF#32, 0x00000032#32, fun w => .findlast (baField w) (vField w)⟩,
    ⟨0xFFFF00FF#32, 0x00000040#32, fun w => .cntand (baField w) (bbField w)⟩,
    ⟨0xFFFF00FF#32, 0x00000041#32, fun w => .cntor (baField w) (bbField w)⟩,
    ⟨0xFFFF00FF#32, 0x00000042#32, fun w => .cntxor (baField w) (bbField w)⟩,
    ⟨0xFFFF00FF#32, 0x00000043#32, fun w => .subset (baField w) (bbField w)⟩ ]

/-- Decoding a command word, 30_encoding.md R73: (1) the row of the word's opcode, (2) its mask and match, (3) the
fields the command uses. -/
def decode (w : CmdWord) : Except Reject Instr :=
  match opcodeTable.find? (fun r => opcField r.mtch == opcField w) with
  | none => .error (.unassignedOpcode (opcField w))
  | some r => if w &&& r.mask = r.mtch then .ok (r.make w) else .error (.unusedBitsSet ((w &&& r.mask) ^^^ r.mtch))

/-- `E` as a word bit (30_encoding.md R72). -/
def eBit : Endian → CmdWord
  | .little => 0
  | .big => 1

/-- `V` as a word bit (30_encoding.md R72). -/
def vBit : Bool → CmdWord
  | false => 0
  | true => 1

/-- What an assembler emits, 30_encoding.md R80: `match | (ba << 8) | (bb << 12) | (e << 16) | (v << 17) | (imm8 << 24)`. -/
def assemble (mtch : CmdWord) (ba bb : Nat) (e : Endian) (v : Bool) (imm8 : Byte) : CmdWord :=
  mtch ||| (BitVec.ofNat 32 ba <<< 8) ||| (BitVec.ofNat 32 bb <<< 12) ||| (eBit e <<< 16) ||| (vBit v <<< 17) |||
    (imm8.setWidth 32 <<< 24)

/-- The word of a command (30_encoding.md R75, R80); fields the command does not use are 0. -/
def encode : Instr → CmdWord
  | .nop => assemble 0x00000000#32 0 0 .little false 0
  | .decode e => assemble 0x00000001#32 0 0 e false 0
  | .bytesfor => assemble 0x00000002#32 0 0 .little false 0
  | .popb imm8 => assemble 0x00000003#32 0 0 .little false imm8
  | .nibswap imm8 => assemble 0x00000004#32 0 0 .little false imm8
  | .create ba e => assemble 0x00000010#32 ba 0 e false 0
  | .resize ba => assemble 0x00000011#32 ba 0 .little false 0
  | .free ba => assemble 0x00000012#32 ba 0 .little false 0
  | .wrbyte ba imm8 => assemble 0x00000013#32 ba 0 .little false imm8
  | .rdbyte ba => assemble 0x00000014#32 ba 0 .little false 0
  | .getbit ba => assemble 0x00000020#32 ba 0 .little false 0
  | .setbit ba v => assemble 0x00000021#32 ba 0 .little v 0
  | .normtail ba => assemble 0x00000022#32 ba 0 .little false 0
  | .count ba => assemble 0x00000030#32 ba 0 .little false 0
  | .countn ba => assemble 0x00000031#32 ba 0 .little false 0
  | .findlast ba v => assemble 0x00000032#32 ba 0 .little v 0
  | .cntand ba bb => assemble 0x00000040#32 ba bb .little false 0
  | .cntor ba bb => assemble 0x00000041#32 ba bb .little false 0
  | .cntxor ba bb => assemble 0x00000042#32 ba bb .little false 0
  | .subset ba bb => assemble 0x00000043#32 ba bb .little false 0

/-- The command word the host puts on the port for table bits `w` of which `nbits` are given (the rest are 0). -/
def tableWord (nbits w : Nat) : CmdWord := BitVec.ofNat 32 (w % 2 ^ nbits)

/-- What the decoder reads from an opcode-table word. A command is one 32-bit word, so there is no byte order. -/
def decodeTableWord (nbits w : Nat) : Option Instr :=
  match decode (tableWord nbits w) with
  | .ok i => some i
  | .error _ => none

end Sys2Proof
end

