-- ==== Sys2Proof/Config.lean ====
section
/-! DEFINITION. What an implementation fixes (00_scope.md R5) and the one free value of the model (10_state.md R36). -/

namespace Sys2Proof

/-- The parameter tuple of 00_scope.md R5. `REG_MAP` is not here: no rule depends on it (93 V4). -/
structure Config where
  /-- `IDXW` = `W`: width in bits of bit indices, lengths, counts, byte offsets, `OP`, `RES`, `BUFLEN`. -/
  idxw : Nat
  /-- `NBUF`: number of buffer slots. -/
  nbuf : Nat
  /-- `CAP_BYTES`: bytes of RAM per slot. -/
  capBytes : Nat
  /-- `BLOCK_BITS`: large-block size of the nth-set-bit locator. -/
  blockBits : Nat
  /-- `VALIDATING`: an out-of-range bit index is reported (true) or fatal (false). -/
  validating : Bool
deriving DecidableEq, Repr

/-- The defaults of 00_scope.md R5. -/
def Config.default : Config :=
  { idxw := 64, nbuf := 2, capBytes := 4096, blockBits := 8192, validating := true }

/-- The constraints of 00_scope.md R5. They let `MAXBITS = 8 * capBytes` reach `2^W - 8`, where R6 says in passing that it
is below `2^(W-1)`; the two differ where `2^(W-4) ≤ capBytes`. DESIGN CHOICE: R5's bound holds (log entry 15). -/
abbrev Config.wf (c : Config) : Prop :=
  33 ≤ c.idxw ∧ (2 ≤ c.nbuf ∧ c.nbuf ≤ 16) ∧ (1 ≤ c.capBytes ∧ c.capBytes ≤ 2 ^ (c.idxw - 3) - 1) ∧
    (c.blockBits % 8 = 0 ∧ 8 ≤ c.blockBits)

/-- FREE VALUE: the byte that reset number `draw` leaves at offset `off` of slot `k`, until a command writes it.
10_state.md R36 takes it "as an arbitrary parameter", 70_reset_and_hazards.md R231 draws it afresh at every reset.
It has no body, so nothing can be proved of its value (log entry 5). -/
opaque Config.resetByte (draw k off : Nat) : Byte

end Sys2Proof
end

