-- ==== Sys2Proof/Machine/State.lean ====
section
/-! DEFINITION. The architectural state of the BVE (10_state.md R20), the state after reset (R36), and the reasons a
step can stop. -/

namespace Sys2Proof.Machine

/-- Status codes of 60_exceptions.md R200. Codes 9 to 15 are never produced, so they are not here. -/
inductive Code
  | ok
  | notFound
  | indexOutOfRange
  | lengthMismatch
  | endiannessMismatch
  | illegalCommand
  | badSlot
  | capacityExceeded
  | byteOffsetOutOfRange
deriving DecidableEq, Repr

/-- The RAM of one slot: the bytes written since the last reset, by offset, offsets strictly rising. An offset that is
not listed has no written byte; reading it gives the free value of `ramRead` (log entries 5 and 11). -/
abbrev Memory := List Host.Cell

/-- One buffer slot (10_state.md R25). -/
structure Slot where
  /-- `LEN[k]`, the register `BUFLEN[k]` (R26). -/
  len : Nat
  /-- `END[k]`, the field `BUFCTL[k].ENDIAN` (R27). -/
  endian : Endian
  /-- `VALID[k]`, the field `BUFCTL[k].VALID` (R27). -/
  valid : Bool
  /-- `RAM[k]` (R20). -/
  ram : Memory
deriving DecidableEq, Repr

/-- A slot as reset leaves it (10_state.md R36). -/
def Slot.vacant : Slot := { len := 0, endian := .little, valid := false, ram := [] }

/-- One host port operation (10_state.md R21), or the reset input (70_reset_and_hazards.md R230). -/
inductive HostOp
  /-- `HostWrite(r, v)`. -/
  | write (r v : Nat)
  /-- `HostRead(r)`. -/
  | read (r : Nat)
  /-- The reset input, asserted between commands (R232). -/
  | reset
deriving DecidableEq, Repr

/-- The state: what 10_state.md R20 names (`op` to `slots`), and the model's own fields (`cfg`, `draw`, `hostOps`,
`portOut`; log entries 1, 2, 3, 5). -/
structure State where
  /-- The parameters (00_scope.md R5). Constant: nothing writes it. -/
  cfg : Config
  /-- `OP` (10_state.md R22). -/
  op : Nat
  /-- `CMD` (R23). -/
  cmd : CmdWord
  /-- `RES` (R24). -/
  res : Nat
  /-- `AUX` (R24). -/
  aux : Byte
  /-- `STATUS.CODE` (R29). -/
  code : Code
  /-- `STATUS.FATAL` (R29). -/
  fatal : Bool
  /-- The `NBUF` slots, slot 0 first (R25). -/
  slots : List Slot
  /-- Which draw of RAM contents is in force: the argument of the free value `Config.resetByte`. -/
  draw : Nat
  /-- The host port operations still to come, oldest first (R30). -/
  hostOps : List HostOp
  /-- The value the last served port operation returned to the host, if it was a read. -/
  portOut : Option Nat
deriving DecidableEq, Repr

/-- The state after reset (10_state.md R36) of a BVE with parameters `c`, with draw `draw` of RAM contents and the
operations `ops` still to come. -/
def State.resetOf (c : Config) (draw : Nat) (ops : List HostOp) : State :=
  { cfg := c, op := 0, cmd := 0, res := 0, aux := 0, code := .ok, fatal := false,
    slots := List.replicate c.nbuf Slot.vacant, draw := draw, hostOps := ops, portOut := none }

/-- The machine right after reset, with the default parameters of 00_scope.md R5 and no host operation queued. -/
def State.reset : State := State.resetOf Config.default 0 []

/-- Why the machine stops with a fault. -/
inductive Fault
  /-- The fatal state (60_exceptions.md R215), raised by `GETBIT` and `SETBIT` of a non-validating BVE on an index
  `≥ LEN[k]`. `after` is the state the rule leaves, with `STATUS.FATAL = 1`; a run may go on from it only as R216 says.
  Safe: R215 says "A model must treat the fatal state as a fault" (log entry 6). -/
  | fatal (after : State)
  /-- A RAM offset `off` outside slot `k`'s `CAP_BYTES` bytes was needed (60_exceptions.md R217, 93 U3: "`fault`; never
  continue with a value"). Raised by `checkRam`. Unreachable from a well-formed state (20_memory.md R55). Safe. -/
  | ramOffset (k off : Nat)
  /-- The last step of `FINDLAST` on slot `k` found no bit in a byte that must hold one (43_search.md R158, step 3).
  Raised by `execFindlast`. Unreachable. Safe (R217). -/
  | searchFellThrough (k : Nat)
deriving DecidableEq, Repr

/-- Why the model gives a step no meaning. -/
inductive Refusal
  /-- The instruction has no meaning in this model yet. Raised by no arm. Safe. -/
  | notModelled (mnemonic : String)
  /-- `HostRead` or `HostWrite` of a number that is not a register (10_state.md R35: "a model refuses it"). Raised by
  the host port. Safe. -/
  | unmappedRegister (r : Nat)
  /-- `HostWrite` of a value wider than the register, which cannot be expressed (10_state.md R35). Raised by the host
  port. Safe. -/
  | valueTooWide (r v : Nat)
deriving DecidableEq, Repr

end Sys2Proof.Machine
end

