-- ==== Sys2Proof/Machine/Ops.lean ====
section
/-! DEFINITION. The named operations over memory, registers and slots, and the three ways a command ends
(00_scope.md R9): `done`, `raise`, `fatal`. -/

namespace Sys2Proof.Machine

/-- The outcome of one command or one step. -/
abbrev Result := Host.Outcome State Fault Refusal

/-! ### Derived parameters (00_scope.md R5) -/

/-- `MAXBITS = 8 * CAP_BYTES`. -/
def maxBits (c : Config) : Nat := 8 * c.capBytes

/-- `ALL1 = 2^W - 1`. -/
def all1 (c : Config) : Nat := 2 ^ c.idxw - 1

/-! ### The RAM of one slot -/

/-- The byte written at offset `off`, if one was written since reset. -/
def Memory.lookup : Memory → Nat → Option Byte
  | [], _ => none
  | c :: m, off => if c.1 = off then some c.2 else Memory.lookup m off

/-- Write byte `v` at offset `off`, keeping the offsets strictly rising. -/
def Memory.store : Memory → Nat → Byte → Memory
  | [], off, v => [(off, v)]
  | c :: m, off, v =>
    if off < c.1 then (off, v) :: c :: m
    else if off = c.1 then (off, v) :: m
    else c :: Memory.store m off v

/-- The canonical form of a slot's RAM: offsets strictly rising and below `CAP_BYTES`. An unlisted offset has no
written byte at all, so no entry can equal what it reads as (log entry 11). -/
abbrev Memory.wf (cap : Nat) (m : Memory) : Prop :=
  m.Pairwise (fun a b => a.1 < b.1) ∧ ∀ c ∈ m, c.1 < cap

/-! ### Register updates -/

def State.setOp (s : State) (v : Nat) : State := { s with op := v }

def State.setCmd (s : State) (w : CmdWord) : State := { s with cmd := w }

def State.setRes (s : State) (v : Nat) : State := { s with res := v }

def State.setAux (s : State) (v : Byte) : State := { s with aux := v }

def State.setCode (s : State) (c : Code) : State := { s with code := c }

def State.setFatal (s : State) : State := { s with fatal := true }

/-- Slot `k` (10_state.md R25); a number `≥ NBUF` has no slot, and reads as a vacant one. -/
def State.slot (s : State) (k : Nat) : Slot := s.slots.getD k Slot.vacant

/-- Replace slot `k`. -/
def State.setSlot (s : State) (k : Nat) (sl : Slot) : State := { s with slots := s.slots.set k sl }

/-- `LEN[k] <- n`. -/
def State.setLen (s : State) (k n : Nat) : State := s.setSlot k { s.slot k with len := n }

/-- `VALID[k] <- b`. -/
def State.setValid (s : State) (k : Nat) (b : Bool) : State := s.setSlot k { s.slot k with valid := b }

/-! ### Memory access (00_scope.md R8) -/

/-- `MemRead((k,off), 1)`: the last byte written there, or the free reset value if none was (20_memory.md R62). -/
def ramRead (s : State) (k off : Nat) : Byte :=
  match Memory.lookup (s.slot k).ram off with
  | some v => v
  | none => Config.resetByte s.draw k off

/-- `MemWrite((k,off), 1, v)`. -/
def ramWrite (s : State) (k off : Nat) (v : Byte) : State :=
  s.setSlot k { s.slot k with ram := Memory.store (s.slot k).ram off v }

/-! ### How a command ends (00_scope.md R9) -/

/-- `done`: `STATUS.CODE <- OK`. -/
def done (s : State) : Result := .next (s.setCode .ok)

/-- `raise E`, taking an exception: `STATUS.CODE <- code(E)` and nothing else; no register saves anything and control
goes nowhere (60_exceptions.md R211). There is no return from it: the next command runs normally (R213). -/
def raise (c : Code) (s : State) : Result := .next (s.setCode c)

/-- `RES <- ALL1; raise NOT_FOUND` (60_exceptions.md R203). -/
def raiseNotFound (s : State) : Result := raise .notFound (s.setRes (all1 s.cfg))

/-- `fatal`: `STATUS.FATAL <- 1`, all else unchanged, a fault (60_exceptions.md R215). -/
def enterFatal (s : State) : Result := .fault (.fatal s.setFatal)

end Sys2Proof.Machine
end

