-- ==== Sys2Proof/Machine/Flags.lean ====
section
/-! DEFINITION. The words the host reads where the state holds fields: `STATUS` (10_state.md R29), `BUFCTL[k]` (R27), and
the Boolean byte of `AUX` (30_encoding.md R72). The BVE has no other flag (10_state.md R31). -/

namespace Sys2Proof.Machine

/-- The number of a status code (60_exceptions.md R200). -/
def Code.number : Code → Nat
  | .ok => 0
  | .notFound => 1
  | .indexOutOfRange => 2
  | .lengthMismatch => 3
  | .endiannessMismatch => 4
  | .illegalCommand => 5
  | .badSlot => 6
  | .capacityExceeded => 7
  | .byteOffsetOutOfRange => 8

/-- `STATUS`: `CODE` in bits 3:0, `FATAL` in bit 31, the rest 0 (10_state.md R29). -/
def statusWord (s : State) : Nat := s.code.number + (if s.fatal then 2 ^ 31 else 0)

/-- `BUFCTL[k]`: `VALID` in bit 0, `ENDIAN` in bit 1, the rest 0 (10_state.md R27). -/
def bufctlWord (sl : Slot) : Nat :=
  (if sl.valid then 1 else 0) + (match sl.endian with | .little => 0 | .big => 2)

/-- A Boolean or bit result in `AUX`: `0x01` or `0x00` (30_encoding.md R72). -/
def boolByte (b : Bool) : Byte := if b then 0x01#8 else 0x00#8

end Sys2Proof.Machine
end

