-- ==== Sys2Proof/Machine/Operands.lean ====
section
/-! DEFINITION. Operand forms: the bit-address decoder and single-bit access (40_bit_addressing.md), the operand checks
of the commands (60_exceptions.md R207, R210), the derived quantities and normalisation of a buffer (41_buffer.md), block
summation (42_popcount.md R142). -/

namespace Sys2Proof.Machine

/-! ### Bit-address decoder -/

/-- `byte_index(e, i)` (40_bit_addressing.md R100): the same for both endiannesses. -/
def byteIndex (_e : Endian) (i : Nat) : Nat := i / 8

/-- `bit_mask(e, i)` (R101). -/
def bitMask : Endian → Nat → Byte
  | .little, i => 1#8 <<< (i % 8)
  | .big, i => 1#8 <<< (7 - i % 8)

/-- `bytes_for_bits(n)` (R103). -/
def bytesForBits (n : Nat) : Nat := if n = 0 then 0 else (n - 1) / 8 + 1

/-- `BitRead(k, i)` (R105). -/
def bitRead (s : State) (k i : Nat) : Bool :=
  ramRead s k (byteIndex (s.slot k).endian i) &&& bitMask (s.slot k).endian i != 0#8

/-- The byte that `BitWrite(k, i, v)` stores (R105). -/
def bitPut (old mask : Byte) (v : Bool) : Byte := if v then old ||| mask else old &&& ~~~mask

/-- `BitWrite(k, i, v)` (R105). -/
def bitWrite (s : State) (k i : Nat) (v : Bool) : State :=
  let q := byteIndex (s.slot k).endian i
  ramWrite s k q (bitPut (ramRead s k q) (bitMask (s.slot k).endian i) v)

/-! ### Operand checks, in the priority of 60_exceptions.md R210. Each goes on with `rest` if it passes. -/

/-- A slot number `≥ NBUF` raises `BadSlot` (`CREATE`'s only slot check, 41_buffer.md R123). -/
def checkSlotNumber (k : Nat) (s : State) (rest : Result) : Result :=
  if s.cfg.nbuf ≤ k then raise .badSlot s else rest

/-- `CheckSlot(k)` (60_exceptions.md R207). -/
def checkSlot (k : Nat) (s : State) (rest : Result) : Result :=
  if s.cfg.nbuf ≤ k ∨ (s.slot k).valid = false then raise .badSlot s else rest

/-- The requested length `OP` must be at most `MAXBITS` (41_buffer.md R123, R124), also where
that reaches `2^(W-1)` (log entry 15). -/
def checkCapacity (s : State) (rest : Result) : Result :=
  if maxBits s.cfg < s.op then raise .capacityExceeded s else rest

/-- The byte offset `OP` must be below `CAP_BYTES` (41_buffer.md R126, R127). -/
def checkByteOffset (s : State) (rest : Result) : Result :=
  if s.cfg.capBytes ≤ s.op then raise .byteOffsetOutOfRange s else rest

/-- The bit index `OP` must be below `LEN[k]`: else reported or fatal (40_bit_addressing.md R106, R107).
`LEN[k]` itself may exceed `2^(W-1)` (log entry 15). -/
def checkIndex (k : Nat) (s : State) (rest : Result) : Result :=
  if (s.slot k).len ≤ s.op then
    if s.cfg.validating then raise .indexOutOfRange s else enterFatal s
  else rest

/-- The internal invariant of 60_exceptions.md R217: the first `n` bytes of slot `k`, the ones the command is about to
use, exist. It never fails in a well-formed state (20_memory.md R55). -/
def checkRam (k n : Nat) (s : State) (rest : Result) : Result :=
  if s.cfg.capBytes < n then .fault (.ramOffset k (n - 1)) else rest

/-! ### Derived quantities and tail normalisation -/

/-- `bytes_used(k)` (41_buffer.md R120). -/
def bytesUsed (s : State) (k : Nat) : Nat := bytesForBits (s.slot k).len

/-- `BitWrite(k, i, 0)` for the `n` bits from bit `i` on, in rising order. -/
def clearBits (k : Nat) : Nat → Nat → State → State
  | 0, _, s => s
  | n + 1, i, s => clearBits k n (i + 1) (bitWrite s k i false)

/-- `Normalize(k)` (41_buffer.md R128): clear every bit from `LEN[k]` to `8 * bytes_used(k) - 1`. -/
def normalize (k : Nat) (s : State) : State :=
  clearBits k (8 * bytesUsed s k - (s.slot k).len) (s.slot k).len s

/-! ### Population count -/

/-- The ROM `POPCOUNT` (42_popcount.md R140): the sum over `j = 0..7` of `(b div 2^j) mod 2`. -/
def popcount (b : Byte) : Nat := ((List.range 8).map fun j => b.toNat / 2 ^ j % 2).sum

/-- The sum of `POPCOUNT` over the `n` bytes of slot `k` from offset `q` on. -/
def sumBytes (s : State) (k : Nat) : Nat → Nat → Nat
  | 0, _ => 0
  | n + 1, q => popcount (ramRead s k q) + sumBytes s k n (q + 1)

/-- `BlockSum(k, lo, hi)` (42_popcount.md R142). -/
def blockSum (s : State) (k lo hi : Nat) : Nat := sumBytes s k (hi - lo) lo

end Sys2Proof.Machine
end

