-- ==== Sys2Proof/Machine/BitAddressing.lean ====
section
/-! DEFINITION. The commands of 40_bit_addressing.md: `DECODE`, `BYTESFOR`, `GETBIT`, `SETBIT`. -/

namespace Sys2Proof.Machine

/-- `DECODE e` (40_bit_addressing.md R102). -/
def execDecode (e : Endian) (s : State) : Result :=
  done ((s.setRes (byteIndex e s.op)).setAux (bitMask e s.op))

/-- `BYTESFOR` (R104). -/
def execBytesfor (s : State) : Result := done (s.setRes (bytesForBits s.op))

/-- `GETBIT bA` (R106). -/
def execGetbit (ba : Nat) (s : State) : Result :=
  checkSlot ba s <| checkIndex ba s <| checkRam ba (byteIndex (s.slot ba).endian s.op + 1) s <|
    done (s.setAux (boolByte (bitRead s ba s.op)))

/-- `SETBIT bA, v` (R107). -/
def execSetbit (ba : Nat) (v : Bool) (s : State) : Result :=
  checkSlot ba s <| checkIndex ba s <| checkRam ba (byteIndex (s.slot ba).endian s.op + 1) s <|
    done (bitWrite s ba s.op v)

end Sys2Proof.Machine
end

