-- ==== Sys2Proof/Machine/Buffer.lean ====
section
/-! DEFINITION. The commands of 41_buffer.md: `CREATE`, `RESIZE`, `FREE`, `WRBYTE`, `RDBYTE`, `NORMTAIL`, `NOP`. -/

namespace Sys2Proof.Machine

/-- `NOP` (41_buffer.md R131): writes `STATUS.CODE` only. -/
def execNop (s : State) : Result := done s

/-- `CREATE bA, e` (R123): legal on a valid slot too; RAM keeps its bytes. -/
def execCreate (ba : Nat) (e : Endian) (s : State) : Result :=
  checkSlotNumber ba s <| checkCapacity s <|
    done (s.setSlot ba { s.slot ba with len := s.op, endian := e, valid := true })

/-- `RESIZE bA` (R124): the length only. -/
def execResize (ba : Nat) (s : State) : Result :=
  checkSlot ba s <| checkCapacity s <| done (s.setLen ba s.op)

/-- `FREE bA` (R125): `LEN`, `END` and RAM keep their values. -/
def execFree (ba : Nat) (s : State) : Result := checkSlot ba s <| done (s.setValid ba false)

/-- `WRBYTE bA, imm8` (R126). -/
def execWrbyte (ba : Nat) (imm8 : Byte) (s : State) : Result :=
  checkSlot ba s <| checkByteOffset s <| done (ramWrite s ba s.op imm8)

/-- `RDBYTE bA` (R127): the byte as stored, not normalised. -/
def execRdbyte (ba : Nat) (s : State) : Result :=
  checkSlot ba s <| checkByteOffset s <| done (s.setAux (ramRead s ba s.op))

/-- `NORMTAIL bA` (R129). -/
def execNormtail (ba : Nat) (s : State) : Result :=
  checkSlot ba s <| checkRam ba (bytesUsed s ba) s <| done (normalize ba s)

end Sys2Proof.Machine
end

