-- ==== Sys2Proof/Machine/NibbleSwap.lean ====
section
/-! DEFINITION. The command of 45_nibble_swap.md: `NIBSWAP`. -/

namespace Sys2Proof.Machine

/-- The ROM `NIBBLE_SWAP` (45_nibble_swap.md R190): entry `i` is `16*(i mod 16) + (i div 16)`. -/
def nibbleSwap (i : Byte) : Byte := BitVec.ofNat 8 (16 * (i.toNat % 16) + i.toNat / 16)

/-- `NIBSWAP imm8` (R191). -/
def execNibswap (imm8 : Byte) (s : State) : Result := done (s.setAux (nibbleSwap imm8))

end Sys2Proof.Machine
end

