-- ==== Sys2Proof/Machine/Popcount.lean ====
section
/-! DEFINITION. The commands of 42_popcount.md: `POPB`, `COUNT`. -/

namespace Sys2Proof.Machine

/-- `POPB imm8` (42_popcount.md R141). -/
def execPopb (imm8 : Byte) (s : State) : Result := done (s.setRes (popcount imm8))

/-- `COUNT bA` (R144): `count_bits` (R143) normalises, then sums the bytes in `[0, bytes_used)`. -/
def execCount (ba : Nat) (s : State) : Result :=
  checkSlot ba s <| checkRam ba (bytesUsed s ba) s <|
    done ((normalize ba s).setRes (blockSum (normalize ba s) ba 0 (bytesUsed s ba)))

end Sys2Proof.Machine
end

