-- ==== Sys2Proof/Machine/Reduction.lean ====
section
/-! DEFINITION. The commands of 44_reduction.md: `CNTAND`, `CNTOR`, `CNTXOR`, `SUBSET`. -/

namespace Sys2Proof.Machine

/-- The checks of `PairPrep` (44_reduction.md R172) in its order: slot `a`, slot `b`, length, endianness. -/
def checkPair (ka kb : Nat) (s : State) (rest : Result) : Result :=
  checkSlot ka s <| checkSlot kb s <|
    if (s.slot ka).len ≠ (s.slot kb).len then raise .lengthMismatch s
    else if (s.slot ka).endian ≠ (s.slot kb).endian then raise .endiannessMismatch s
    else checkRam ka (bytesUsed s ka) s rest

/-- The normalisation of `PairPrep`: `a` first, then `b`. -/
def normalizePair (ka kb : Nat) (s : State) : State := normalize kb (normalize ka s)

/-- The sum of `POPCOUNT[A[q] op B[q]]` over the `n` byte offsets from `q` on. -/
def foldFrom (s : State) (ka kb : Nat) (f : Byte → Byte → Byte) : Nat → Nat → Nat
  | 0, _ => 0
  | n + 1, q => popcount (f (ramRead s ka q) (ramRead s kb q)) + foldFrom s ka kb f n (q + 1)

/-- `Fold(op)` (44_reduction.md R177). -/
def fold (s : State) (ka kb : Nat) (f : Byte → Byte → Byte) : Nat := foldFrom s ka kb f (bytesUsed s ka) 0

/-- A counting command: `PairPrep`, then `RES <- Fold(op)` (R173 to R175). -/
def pairCount (f : Byte → Byte → Byte) (ka kb : Nat) (s : State) : Result :=
  checkPair ka kb s <|
    done ((normalizePair ka kb s).setRes (fold (normalizePair ka kb s) ka kb f))

/-- `CNTAND bA, bB` (R173). -/
def execCntand (ba bb : Nat) (s : State) : Result := pairCount (· &&& ·) ba bb s

/-- `CNTOR bA, bB` (R174). -/
def execCntor (ba bb : Nat) (s : State) : Result := pairCount (· ||| ·) ba bb s

/-- `CNTXOR bA, bB` (R175). -/
def execCntxor (ba bb : Nat) (s : State) : Result := pairCount (· ^^^ ·) ba bb s

/-- Whether `(A[q] & B[q]) = A[q]` at each of the `n` byte offsets from `q` on, false at the first violation (R176). -/
def subsetFrom (s : State) (ka kb : Nat) : Nat → Nat → Bool
  | 0, _ => true
  | n + 1, q =>
    if ramRead s ka q &&& ramRead s kb q ≠ ramRead s ka q then false else subsetFrom s ka kb n (q + 1)

/-- `SUBSET bA, bB` (R176). -/
def execSubset (ba bb : Nat) (s : State) : Result :=
  checkPair ba bb s <|
    done ((normalizePair ba bb s).setAux
      (boolByte (subsetFrom (normalizePair ba bb s) ba bb (bytesUsed s ba) 0)))

end Sys2Proof.Machine
end

