-- ==== Sys2Proof/Machine/Search.lean ====
section
/-! DEFINITION. The commands of 43_search.md: `COUNTN` (the nth-set-bit locator, three tiers) and `FINDLAST`. Every loop
is bounded by `LEN[k]` (70_reset_and_hazards.md R250); the bound is the loop's fuel, never what ends it in a
well-formed state (log entry 12). -/

namespace Sys2Proof.Machine

/-- The locator's working values: bit offset `i`, and `j` set bits in `a[0:i]` (43_search.md R152; transient,
10_state.md R33). -/
structure Scan where
  i : Nat
  j : Nat
deriving DecidableEq, Repr

/-- The loop of phases 1 and 2 (R154, R155): while a block of `bits` bits from `p.i` lies within the buffer and does not
bring the total to `n`, commit it. -/
def commitBlocks (s : State) (k n bits : Nat) : Nat → Scan → Scan
  | 0, p => p
  | fuel + 1, p =>
    if bits ≤ (s.slot k).len - p.i then
      let m := blockSum s k (p.i / 8) (p.i / 8 + bits / 8)
      if p.j + m < n then commitBlocks s k n bits fuel ⟨p.i + bits, p.j + m⟩ else p
    else p

/-- Phase 1, large blocks (R154). -/
def phase1 (s : State) (k n : Nat) (p : Scan) : Scan :=
  commitBlocks s k n s.cfg.blockBits ((s.slot k).len / s.cfg.blockBits) p

/-- Phase 2, single bytes (R155). -/
def phase2 (s : State) (k n : Nat) (p : Scan) : Scan :=
  commitBlocks s k n 8 ((s.slot k).len / 8) p

/-- The loop of phase 3 (R156): while the total is below `n` and bits remain, add the next bit. -/
def scanBits (s : State) (k n : Nat) : Nat → Scan → Scan
  | 0, p => p
  | fuel + 1, p =>
    if p.j < n ∧ p.i < (s.slot k).len then
      scanBits s k n fuel ⟨p.i + 1, p.j + (bitRead s k p.i).toNat⟩
    else p

/-- Phase 3, single bits (R156). -/
def phase3 (s : State) (k n : Nat) (p : Scan) : Scan :=
  scanBits s k n ((s.slot k).len - p.i) p

/-- The three phases in turn from `i = 0`, `j = 0` (R152). -/
def locate (s : State) (k n : Nat) : Scan := phase3 s k n (phase2 s k n (phase1 s k n ⟨0, 0⟩))

/-- `COUNTN bA` (R152): the index after the `OP`-th set bit. -/
def execCountn (ba : Nat) (s : State) : Result :=
  checkSlot ba s <| checkRam ba (bytesUsed s ba) s <|
    if s.op = 0 then done ((normalize ba s).setRes 0)
    else
      let p := locate (normalize ba s) ba s.op
      if p.j = s.op then done ((normalize ba s).setRes p.i) else raiseNotFound (normalize ba s)

/-- Backward bit scan: the highest of the `n` indices from `lo` on whose bit is `v`. -/
def scanBack (s : State) (k : Nat) (v : Bool) (lo : Nat) : Nat → Option Nat
  | 0 => none
  | n + 1 => if bitRead s k (lo + n) = v then some (lo + n) else scanBack s k v lo n

/-- Step 2 of `FINDLAST` (R158): of the bytes `0 .. q-1`, drop those at the end that equal `skip`. -/
def skipBytes (s : State) (k : Nat) (skip : Byte) : Nat → Nat
  | 0 => 0
  | q + 1 => if ramRead s k q = skip then skipBytes s k skip q else q + 1

/-- The byte that holds no bit `v`, which step 2 skips. -/
def skipByte (v : Bool) : Byte := if v then 0x00#8 else 0xFF#8

/-- The end of `FINDLAST` (R158, steps 2 to 4) when the final byte, byte `last`, holds no bit `v`; `s` is normalised. -/
def findlastBytes (ba : Nat) (v : Bool) (last : Nat) (s : State) : Result :=
  match skipBytes s ba (skipByte v) last with
  | 0 => raiseNotFound s
  | q + 1 =>
    match scanBack s ba v (8 * q) 8 with
    | some i => done (s.setRes i)
    | none => .fault (.searchFellThrough ba)

/-- The body of `FINDLAST` after the slot check and normalisation (R158). -/
def findlastFrom (ba : Nat) (v : Bool) (s : State) : Result :=
  if (s.slot ba).len = 0 then raiseNotFound s
  else
    let last := bytesUsed s ba - 1
    match scanBack s ba v (8 * last) ((s.slot ba).len - 8 * last) with
    | some i => done (s.setRes i)
    | none => findlastBytes ba v last s

/-- `FINDLAST bA, v` (R158): the highest index holding bit `v`. -/
def execFindlast (ba : Nat) (v : Bool) (s : State) : Result :=
  checkSlot ba s <| checkRam ba (bytesUsed s ba) s <| findlastFrom ba v (normalize ba s)

end Sys2Proof.Machine
end

