-- ==== Sys2Proof/Machine/Dispatch.lean ====
section
/-! DEFINITION. The meaning of every command, one arm per constructor of `Instr`. -/

namespace Sys2Proof.Machine

def exec (i : Instr) (s : State) : Host.Outcome State Fault Refusal :=
  match i with
  | .nop => Sys2Proof.Machine.execNop s
  | .decode e => Sys2Proof.Machine.execDecode e s
  | .bytesfor => Sys2Proof.Machine.execBytesfor s
  | .popb imm8 => Sys2Proof.Machine.execPopb imm8 s
  | .nibswap imm8 => Sys2Proof.Machine.execNibswap imm8 s
  | .create ba e => Sys2Proof.Machine.execCreate ba e s
  | .resize ba => Sys2Proof.Machine.execResize ba s
  | .free ba => Sys2Proof.Machine.execFree ba s
  | .wrbyte ba imm8 => Sys2Proof.Machine.execWrbyte ba imm8 s
  | .rdbyte ba => Sys2Proof.Machine.execRdbyte ba s
  | .getbit ba => Sys2Proof.Machine.execGetbit ba s
  | .setbit ba v => Sys2Proof.Machine.execSetbit ba v s
  | .normtail ba => Sys2Proof.Machine.execNormtail ba s
  | .count ba => Sys2Proof.Machine.execCount ba s
  | .countn ba => Sys2Proof.Machine.execCountn ba s
  | .findlast ba v => Sys2Proof.Machine.execFindlast ba v s
  | .cntand ba bb => Sys2Proof.Machine.execCntand ba bb s
  | .cntor ba bb => Sys2Proof.Machine.execCntor ba bb s
  | .cntxor ba bb => Sys2Proof.Machine.execCntxor ba bb s
  | .subset ba bb => Sys2Proof.Machine.execSubset ba bb s

end Sys2Proof.Machine
end

