-- ==== Sys2Proof/Machine/Port.lean ====
section
/-! DEFINITION. The host port (10_state.md R21, R23, R35) and the reset input (70_reset_and_hazards.md R230): how one
operation of the host's sequence is served. The BVE has no program counter; a write of `CMD` is its only fetch (R30). -/

namespace Sys2Proof.Machine

/-- The slot whose `BUFLEN` or `BUFCTL` has register number `r ≥ 16`. -/
def regSlot (r : Nat) : Nat := (r - 16) / 2

/-- `r` is the number of a `BUFLEN[k]` or `BUFCTL[k]` (10_state.md R21). -/
def isSlotReg (c : Config) (r : Nat) : Bool := decide (16 ≤ r ∧ r < 16 + 2 * c.nbuf)

/-- The width of register `r`; none where `r` is no register (10_state.md R21). -/
def regWidth (c : Config) (r : Nat) : Option Nat :=
  match r with
  | 0 => some c.idxw
  | 1 => some 32
  | 2 => some c.idxw
  | 3 => some 8
  | 4 => some 32
  | r => if isSlotReg c r then some (if r % 2 = 0 then c.idxw else 32) else none

/-- The value of register `r`; none where `r` is no register (10_state.md R21). -/
def regRead (s : State) (r : Nat) : Option Nat :=
  match r with
  | 0 => some s.op
  | 1 => some s.cmd.toNat
  | 2 => some s.res
  | 3 => some s.aux.toNat
  | 4 => some (statusWord s)
  | r =>
    if isSlotReg s.cfg r then
      some (if r % 2 = 0 then (s.slot (regSlot r)).len else bufctlWord (s.slot (regSlot r)))
    else none

/-- The operation is taken off the queue; nothing has been returned to the host yet. -/
def State.dequeue (s : State) (rest : List HostOp) : State := { s with hostOps := rest, portOut := none }

/-- The value a `HostRead` returns to the host. -/
def State.setPortOut (s : State) (v : Nat) : State := { s with portOut := some v }

/-- `HostRead(r)` (10_state.md R35). -/
def hostRead (r : Nat) (s : State) : Result :=
  match regRead s r with
  | some v => .next (s.setPortOut v)
  | none => .refused (.unmappedRegister r)

/-- Store the word in `CMD`, decode it, run the command to its end (10_state.md R23); a word that selects none raises
`IllegalCommand` (60_exceptions.md R206). -/
def runCommand (w : CmdWord) (s : State) : Result :=
  match decode w with
  | .ok i => exec i (s.setCmd w)
  | .error _ => raise .illegalCommand (s.setCmd w)

/-- `HostWrite(r, v)`: `OP` is written; `CMD` runs a command, or is ignored in the fatal state (60_exceptions.md R216);
a read-only register does not change (10_state.md R35). -/
def hostWrite (r v : Nat) (s : State) : Result :=
  match regWidth s.cfg r with
  | none => .refused (.unmappedRegister r)
  | some width =>
    if 2 ^ width ≤ v then .refused (.valueTooWide r v)
    else
      match r with
      | 0 => .next (s.setOp v)
      | 1 => if s.fatal then .next s else runCommand (BitVec.ofNat 32 v) s
      | _ => .next s

/-- The reset input (70_reset_and_hazards.md R230): the state of 10_state.md R36, with a fresh draw of RAM contents
(R231). The host's further operations are still to come. -/
def hostReset (s : State) : Result := .next (State.resetOf s.cfg (s.draw + 1) s.hostOps)

/-- Serve one operation. -/
def serve : HostOp → State → Result
  | .write r v, s => hostWrite r v s
  | .read r, s => hostRead r s
  | .reset, s => hostReset s

/-- Serve the oldest operation of the queue. With none queued the BVE waits (70_reset_and_hazards.md R233). -/
def serveNext (s : State) : Result :=
  match s.hostOps with
  | [] => .next s
  | o :: rest => serve o (s.dequeue rest)

end Sys2Proof.Machine
end

