-- ==== Sys2Proof/Machine/Step.lean ====
section
/-! DEFINITION. One step of the machine: one host port operation, commands included, from its start to its end
(20_memory.md R57, R58). -/

namespace Sys2Proof.Machine

/-- One step: the oldest queued host port operation is served. -/
def step (s : State) : Host.Outcome State Fault Refusal := serveNext s

/-- `s` with the write of a table word to `CMD` as the next host port operation: the very next step runs that command.
There is no program memory (10_state.md R30), so this is how a program comes to the machine (log entry 2). -/
def State.withFetchWord (s : State) (nbits w : Nat) : State :=
  { s with hostOps := HostOp.write 1 (tableWord nbits w).toNat :: s.hostOps }

end Sys2Proof.Machine
end

