-- ==== Sys2Proof/Safety.lean ====
section
/-! DEFINITION. What a well-formed state is (10_state.md R28 and the widths of R21), what a slot a command can use is,
what counts as a safe state, and the words in which claims speak of a buffer's logical bits, of what a change of RAM
leaves alone, and of cleared padding. The meanings of the commands do not use any of them. -/

namespace Sys2Proof.Machine

/-- A slot of a BVE with parameters `c`: its length fits the capacity (10_state.md R28 (a)), its RAM is in canonical
form. -/
abbrev Slot.wf (c : Config) (sl : Slot) : Prop := sl.len ≤ maxBits c ∧ Memory.wf c.capBytes sl.ram

/-- A state of a BVE: legal parameters, `OP` and `RES` within their width, `NBUF` well-formed slots. -/
abbrev State.wf (s : State) : Prop :=
  s.cfg.wf ∧ s.op < 2 ^ s.cfg.idxw ∧ s.res < 2 ^ s.cfg.idxw ∧ s.slots.length = s.cfg.nbuf ∧
    ∀ sl ∈ s.slots, sl.wf s.cfg

/-- Slot `k` exists and holds a buffer: `CheckSlot(k)` passes (60_exceptions.md R207). -/
abbrev State.usable (s : State) (k : Nat) : Prop := k < s.cfg.nbuf ∧ (s.slot k).valid = true

/-- A safe state: well formed, and not the fatal state (60_exceptions.md R215: "never a final state a claim may
accept"). -/
abbrev State.safe (s : State) : Prop := s.wf ∧ s.fatal = false

/-! ### The vocabulary of the claims -/

/-- The position, within its byte, of the bit with index `i` (20_memory.md R52): `LITTLE` least significant first, `BIG`
most significant first. -/
def bitPos : Endian → Nat → Nat
  | .little, i => i % 8
  | .big, i => 7 - i % 8

/-- The bit with index `i` of slot `k`, in byte `i div 8` (20_memory.md R52). A logical bit when `i < LEN[k]`, a padding
bit when `LEN[k] ≤ i < 8 * bytes_used(k)`. -/
def bitAt (s : State) (k i : Nat) : Bool := (ramRead s k (i / 8)).getLsbD (bitPos (s.slot k).endian i)

/-- `cnt(k, i)`: the number of set bits among the bits `0 .. i-1` of slot `k` (43_search.md R150). -/
def cnt (s : State) (k i : Nat) : Nat := ((List.range i).filter fun x => bitAt s k x).length

/-- `t` is `s` but for bytes of RAM. -/
def ramOnly (s t : State) : Prop :=
  t = { s with slots := t.slots } ∧ t.slots.length = s.slots.length ∧
    ∀ k, (t.slot k).len = (s.slot k).len ∧ (t.slot k).endian = (s.slot k).endian ∧ (t.slot k).valid = (s.slot k).valid

/-- `keep(e, r)`: the `r` logical bits of a partial final byte (41_buffer.md R130). -/
def keepMask : Endian → Nat → Byte
  | .little, r => BitVec.ofNat 8 (2 ^ r - 1)
  | .big, r => BitVec.ofNat 8 (0xFF * 2 ^ (8 - r))

/-- Slot `k` has a partial final byte, and `off` is its offset (41_buffer.md R120). -/
abbrev partialByte (s : State) (k off : Nat) : Prop := (s.slot k).len % 8 ≠ 0 ∧ off = (s.slot k).len / 8

/-- `t` is `s` with the padding bits of the slots `ks` cleared, and nothing else changed (41_buffer.md R130). -/
def paddingCleared (ks : List Nat) (s t : State) : Prop :=
  ramOnly s t ∧ ∀ k off,
    (k ∈ ks ∧ partialByte s k off →
      ramRead t k off = ramRead s k off &&& keepMask (s.slot k).endian ((s.slot k).len % 8)) ∧
    (¬(k ∈ ks ∧ partialByte s k off) → ramRead t k off = ramRead s k off)

/-- The error with which a pairwise command rejects its operands, none if it accepts them: the order of
44_reduction.md R172. -/
def pairError (s : State) (ka kb : Nat) : Option Code :=
  if ¬s.usable ka then some .badSlot
  else if ¬s.usable kb then some .badSlot
  else if (s.slot ka).len ≠ (s.slot kb).len then some .lengthMismatch
  else if (s.slot ka).endian ≠ (s.slot kb).endian then some .endiannessMismatch
  else none

/-- The slots a command names through `CheckSlot` (60_exceptions.md R207); `CREATE` is not among them. -/
def namedSlots : Instr → List Nat
  | .nop | .decode _ | .bytesfor | .popb _ | .nibswap _ | .create _ _ => []
  | .resize k | .free k | .wrbyte k _ | .rdbyte k | .getbit k | .setbit k _ | .normtail k | .count k | .countn k
  | .findlast k _ => [k]
  | .cntand ka kb | .cntor ka kb | .cntxor ka kb | .subset ka kb => [ka, kb]

end Sys2Proof.Machine
end

