-- ==== Sys2Proof/Certificates/Slice0/Obligations.lean ====
section
/-! DEFINITION. The statements for the provers. Each says what a rule of spec/ says the BVE does; the rule is named in its
docstring. Words such as `bitAt`, `cnt`, `paddingCleared`, `usable` are defined in Sys2Proof/Safety.lean, apart from the
meanings of the commands. Where a clause rests on a choice of the model, the docstring names the log entry. -/

open Sys2Proof Sys2Proof.Machine

/-! ### Encoding -/

/-- 30_encoding.md R71, R73, R75, R80: decoding the word an assembler emits gives the command back, with every operand
at every value its field admits. -/
def Obligations.DecodeInvertsEncode : Prop :=
  ∀ i : Instr, i.wf = true → decode (encode i) = .ok i

/-- 30_encoding.md R71, R73: a word that decodes is the encoding of what it decodes to, so no accepted word has a bit
the decoder drops. -/
def Obligations.EncodeInvertsDecode : Prop :=
  ∀ (w : CmdWord) (i : Instr), decode w = .ok i → i.wf = true ∧ encode i = w

/-- 30_encoding.md R73, R75: decoding is the single test "some row of `opcode_table.json` has `(w & mask) == match`",
and at most one row matches. -/
def Obligations.AcceptedIffOneTableRowMatches : Prop :=
  let rows : List (CmdWord × CmdWord) :=
    [(0xFFFFFFFF#32, 0x00000000#32), (0xFFFEFFFF#32, 0x00000001#32), (0xFFFFFFFF#32, 0x00000002#32),
     (0x00FFFFFF#32, 0x00000003#32), (0x00FFFFFF#32, 0x00000004#32), (0xFFFEF0FF#32, 0x00000010#32),
     (0xFFFFF0FF#32, 0x00000011#32), (0xFFFFF0FF#32, 0x00000012#32), (0x00FFF0FF#32, 0x00000013#32),
     (0xFFFFF0FF#32, 0x00000014#32), (0xFFFFF0FF#32, 0x00000020#32), (0xFFFDF0FF#32, 0x00000021#32),
     (0xFFFFF0FF#32, 0x00000022#32), (0xFFFFF0FF#32, 0x00000030#32), (0xFFFFF0FF#32, 0x00000031#32),
     (0xFFFDF0FF#32, 0x00000032#32), (0xFFFF00FF#32, 0x00000040#32), (0xFFFF00FF#32, 0x00000041#32),
     (0xFFFF00FF#32, 0x00000042#32), (0xFFFF00FF#32, 0x00000043#32)]
  ∀ w : CmdWord,
    ((∃ i, decode w = .ok i) ↔ ∃ r ∈ rows, w &&& r.1 = r.2) ∧
      ∀ r ∈ rows, ∀ r' ∈ rows, w &&& r.1 = r.2 → w &&& r'.1 = r'.2 → r = r'

/-- 30_encoding.md R82 (marked there as derived): the nine worked encodings, and four words that are not commands. -/
def Obligations.WorkedEncodingsDecode : Prop :=
  decode 0x00010010#32 = .ok (.create 0 .big) ∧ decode 0x00000110#32 = .ok (.create 1 .little) ∧
    decode 0xD0000013#32 = .ok (.wrbyte 0 0xD0#8) ∧ decode 0x00020121#32 = .ok (.setbit 1 true) ∧
    decode 0x00020032#32 = .ok (.findlast 0 true) ∧ decode 0x00001042#32 = .ok (.cntxor 0 1) ∧
    decode 0x00000143#32 = .ok (.subset 1 0) ∧ decode 0x00010001#32 = .ok (.decode .big) ∧
    decode 0xB7000003#32 = .ok (.popb 0xB7#8) ∧
    ∀ w ∈ [0x00000005#32, 0x00040020#32, 0x00010020#32, 0x01000000#32], ∀ i, decode w ≠ .ok i

/-! ### The pure functions and tables -/

/-- 40_bit_addressing.md R101: the mask of bit `b = i mod 8` is `1 << b` for `LITTLE` and `1 << (7 - b)` for `BIG`, an
8-bit value with exactly one bit set; the `BIG` mask is the `LITTLE` mask of `i xor 7`; for one endianness the eight
masks are distinct and OR together to `0xFF`; the mask depends on `i mod 8` only (consequences the rule marks as
derived). -/
def Obligations.BitMaskIsOneHot : Prop :=
  (∀ i, bitMask .little i = BitVec.ofNat 8 (2 ^ (i % 8)) ∧ bitMask .big i = BitVec.ofNat 8 (2 ^ (7 - i % 8)) ∧
      bitMask .big i = bitMask .little (i ^^^ 7)) ∧
    ∀ e i j,
      popcount (bitMask e i) = 1 ∧ bitMask e i = bitMask e (i % 8) ∧
        (i % 8 ≠ j % 8 → bitMask e i ≠ bitMask e j) ∧
        bitMask e 0 ||| bitMask e 1 ||| bitMask e 2 ||| bitMask e 3 ||| bitMask e 4 ||| bitMask e 5 ||| bitMask e 6 |||
          bitMask e 7 = 0xFF#8

/-- 42_popcount.md R140: `POPCOUNT[b]` is the number of set bits of `b`, and the checks that rule lists and marks as
derived. -/
def Obligations.PopcountTableCountsSetBits : Prop :=
  (∀ b : Byte, popcount b = ((List.range 8).filter fun j => b.getLsbD j).length ∧ popcount b ≤ 8) ∧
    popcount 0x00#8 = 0 ∧ popcount 0xFF#8 = 8 ∧ (∀ j, j < 8 → popcount (BitVec.ofNat 8 (2 ^ j)) = 1) ∧
    (∀ b : Byte, popcount b + popcount (0xFF#8 - b) = 8) ∧
    (∀ h l, h < 16 → l < 16 →
      popcount (BitVec.ofNat 8 (16 * h + l)) = popcount (BitVec.ofNat 8 h) + popcount (BitVec.ofNat 8 l)) ∧
    ((List.range 256).map fun n => popcount (BitVec.ofNat 8 n)).sum = 1024 ∧
    ∀ x y : Byte, popcount (x &&& y) + popcount (x ||| y) = popcount x + popcount y ∧
      popcount (x ^^^ y) = popcount (x ||| y) - popcount (x &&& y)

/-- 45_nibble_swap.md R192: entry `0x1F` is `0xF1`; the table is an involution; its fixed points are the 16 bytes with
equal halves; it preserves the popcount (marked there as derived). -/
def Obligations.NibbleSwapIsInvolution : Prop :=
  nibbleSwap 0x1F#8 = 0xF1#8 ∧
    ∀ i : Byte, nibbleSwap (nibbleSwap i) = i ∧ (nibbleSwap i = i ↔ i.toNat / 16 = i.toNat % 16) ∧
      popcount (nibbleSwap i) = popcount i

/-! ### RAM, bits, normalisation -/

/-- 20_memory.md R62: a byte read returns the last value written to that offset of that slot; no other byte of any
slot changes, a byte not yet written (log entry 5) included. That the result is again a well-formed state, its RAM in
canonical form, is the model's own (log entry 11). -/
def Obligations.RamReadAfterWrite : Prop :=
  ∀ (s : State) (k off : Nat) (v : Byte), s.wf → k < s.cfg.nbuf → off < s.cfg.capBytes →
    (ramWrite s k off v).wf ∧
      ∀ k' off', (k' = k ∧ off' = off → ramRead (ramWrite s k off v) k' off' = v) ∧
        (¬(k' = k ∧ off' = off) → ramRead (ramWrite s k off v) k' off' = ramRead s k' off')

/-- 40_bit_addressing.md R105: `BitRead` gives the addressed bit; `BitWrite` followed by `BitRead` at the same `(k,
i)` gives `v`, and changes `BitRead` nowhere else (marked there as derived); it changes no byte but the addressed one,
and nothing but RAM. -/
def Obligations.BitWriteChangesOneBit : Prop :=
  ∀ (s : State) (k i : Nat) (v : Bool), s.wf → (s.slot k).valid = true → i < 8 * s.cfg.capBytes →
    bitRead s k i = (ramRead s k (byteIndex (s.slot k).endian i) &&& bitMask (s.slot k).endian i != 0#8) ∧
      ramOnly s (bitWrite s k i v) ∧
      bitRead (bitWrite s k i v) k i = v ∧
      (∀ k' i', ¬(k' = k ∧ i' = i) → bitRead (bitWrite s k i v) k' i' = bitRead s k' i') ∧
      ∀ k' off, ¬(k' = k ∧ off = byteIndex (s.slot k).endian i) →
        ramRead (bitWrite s k i v) k' off = ramRead s k' off

/-- 41_buffer.md R128, R130: `Normalize` ANDs a partial final byte with `keep(END, LEN mod 8)` and changes nothing
else (the closed form R130 marks as derived); it changes no logical bit, leaves every padding bit 0, and is idempotent
on every byte. -/
def Obligations.NormalizeClearsPaddingOnly : Prop :=
  ∀ (s : State) (k : Nat), s.wf → (s.slot k).valid = true →
    paddingCleared [k] s (normalize k s) ∧
      (∀ i, i < (s.slot k).len → bitAt (normalize k s) k i = bitAt s k i) ∧
      (∀ i, (s.slot k).len ≤ i → i < 8 * bytesUsed s k → bitAt (normalize k s) k i = false) ∧
      ∀ k' off, ramRead (normalize k (normalize k s)) k' off = ramRead (normalize k s) k' off

/-! ### The commands: encoding, every outcome, everything they write -/

/-- 41_buffer.md R131: `NOP` always ends `OK` and writes `STATUS.CODE` only. -/
def Obligations.NopWritesStatusOnly : Prop :=
  (∀ w : CmdWord, w &&& 0xFFFFFFFF#32 = 0x00000000#32 → decode w = .ok .nop) ∧
    ∀ s : State, exec .nop s = .next { s with code := .ok }

/-- 40_bit_addressing.md R102: `DECODE` puts `OP div 8` in `RES` and the mask of bit `OP mod 8` in `AUX`, always
`OK`. -/
def Obligations.DecodeGivesOffsetAndMask : Prop :=
  (∀ w : CmdWord, w &&& 0xFFFEFFFF#32 = 0x00000001#32 →
      decode w = .ok (.decode (if w.toNat / 2 ^ 16 % 2 = 1 then .big else .little))) ∧
    ∀ s : State,
      exec (.decode .little) s =
          .next { s with res := s.op / 8, aux := BitVec.ofNat 8 (2 ^ (s.op % 8)), code := .ok } ∧
        exec (.decode .big) s =
          .next { s with res := s.op / 8, aux := BitVec.ofNat 8 (2 ^ (7 - s.op % 8)), code := .ok }

/-- 40_bit_addressing.md R103, R104: `BYTESFOR` puts `bytes_for_bits(OP)` in `RES`, always `OK`. `bytes_for_bits(n)`
is 0 for 0, else `(n - 1) div 8 + 1`; it equals `ceil(n / 8)`; on `W`-bit `n` it is at most `2^(W-3)`, which `ALL1`
reaches. -/
def Obligations.BytesforGivesByteCount : Prop :=
  (∀ w : CmdWord, w &&& 0xFFFFFFFF#32 = 0x00000002#32 → decode w = .ok .bytesfor) ∧
    (∀ n, (n = 0 → bytesForBits n = 0) ∧ (n ≠ 0 → bytesForBits n = (n - 1) / 8 + 1) ∧ bytesForBits n = (n + 7) / 8) ∧
    (∀ W n, 33 ≤ W → (n < 2 ^ W → bytesForBits n ≤ 2 ^ (W - 3)) ∧ bytesForBits (2 ^ W - 1) = 2 ^ (W - 3)) ∧
    ∀ s : State,
      exec .bytesfor s = .next { s with res := if s.op = 0 then 0 else (s.op - 1) / 8 + 1, code := .ok }

/-- 42_popcount.md R141: `POPB` puts the number of set bits of its byte in `RES`, always `OK`. -/
def Obligations.PopbGivesPopcount : Prop :=
  (∀ w : CmdWord, w &&& 0x00FFFFFF#32 = 0x00000003#32 →
      decode w = .ok (.popb (BitVec.ofNat 8 (w.toNat / 2 ^ 24)))) ∧
    ∀ (b : Byte) (s : State),
      exec (.popb b) s = .next { s with res := ((List.range 8).filter fun j => b.getLsbD j).length, code := .ok }

/-- 45_nibble_swap.md R191: `NIBSWAP` puts its byte with the halves swapped in `AUX`, always `OK`. -/
def Obligations.NibswapSwapsNibbles : Prop :=
  (∀ w : CmdWord, w &&& 0x00FFFFFF#32 = 0x00000004#32 →
      decode w = .ok (.nibswap (BitVec.ofNat 8 (w.toNat / 2 ^ 24)))) ∧
    ∀ h l (s : State), h < 16 → l < 16 →
      exec (.nibswap (BitVec.ofNat 8 (16 * h + l))) s =
        .next { s with aux := BitVec.ofNat 8 (16 * l + h), code := .ok }

/-- 40_bit_addressing.md R106: `GETBIT`, every outcome: `BadSlot`; `IndexOutOfRange` or the fatal fault of
60_exceptions.md R215; else the addressed bit in `AUX`, with RAM as it was. The fault and the state it carries are the
model's form of R215's fatal state (log entry 6). That an index of `2^(W-1)` or more is accepted below `LEN` is the
model's choice (log entry 15). -/
def Obligations.GetbitReadsAddressedBit : Prop :=
  (∀ w : CmdWord, w &&& 0xFFFFF0FF#32 = 0x00000020#32 → decode w = .ok (.getbit (w.toNat / 2 ^ 8 % 16))) ∧
    ∀ (k : Nat) (s : State),
      (¬s.usable k → exec (.getbit k) s = .next { s with code := .badSlot }) ∧
        (s.usable k → (s.slot k).len ≤ s.op → s.cfg.validating = true →
          exec (.getbit k) s = .next { s with code := .indexOutOfRange }) ∧
        (s.usable k → (s.slot k).len ≤ s.op → s.cfg.validating = false →
          exec (.getbit k) s = .fault (.fatal { s with fatal := true })) ∧
        (s.wf → s.usable k → s.op < (s.slot k).len →
          exec (.getbit k) s =
            .next { s with aux := if bitAt s k s.op then 0x01#8 else 0x00#8, code := .ok })

/-- 40_bit_addressing.md R107: `SETBIT`, every outcome: `BadSlot`; `IndexOutOfRange` or the fatal fault of
60_exceptions.md R215; else the one addressed bit of the one addressed byte is set to `v`, all other bits of every
slot stay, and only RAM and `STATUS` change. The fault and the state it carries are the model's form of R215's fatal
state (log entry 6). That an index of `2^(W-1)` or more is accepted below `LEN` is the model's choice (log entry
15). -/
def Obligations.SetbitWritesAddressedBit : Prop :=
  (∀ w : CmdWord, w &&& 0xFFFDF0FF#32 = 0x00000021#32 →
      decode w = .ok (.setbit (w.toNat / 2 ^ 8 % 16) (w.toNat / 2 ^ 17 % 2 = 1))) ∧
    ∀ (k : Nat) (v : Bool) (s : State),
      (¬s.usable k → exec (.setbit k v) s = .next { s with code := .badSlot }) ∧
        (s.usable k → (s.slot k).len ≤ s.op → s.cfg.validating = true →
          exec (.setbit k v) s = .next { s with code := .indexOutOfRange }) ∧
        (s.usable k → (s.slot k).len ≤ s.op → s.cfg.validating = false →
          exec (.setbit k v) s = .fault (.fatal { s with fatal := true })) ∧
        (s.wf → s.usable k → s.op < (s.slot k).len →
          ∃ t, exec (.setbit k v) s = .next { t with code := .ok } ∧ ramOnly s t ∧
            ∀ k' off b, b < 8 →
              (k' = k ∧ off = s.op / 8 ∧ b = bitPos (s.slot k).endian s.op → (ramRead t k' off).getLsbD b = v) ∧
                (¬(k' = k ∧ off = s.op / 8 ∧ b = bitPos (s.slot k).endian s.op) →
                  (ramRead t k' off).getLsbD b = (ramRead s k' off).getLsbD b))

/-- 41_buffer.md R123: `CREATE`, every outcome: `BadSlot` for a number `≥ NBUF` only; `CapacityExceeded`; else `LEN`,
`END` and `VALID` of the slot are written, whether it was valid or not, and no RAM byte, other slot or other register
changes. That a length of `2^(W-1)` or more is accepted up to `MAXBITS` is the model's choice (log entry 15). -/
def Obligations.CreateMakesBuffer : Prop :=
  (∀ w : CmdWord, w &&& 0xFFFEF0FF#32 = 0x00000010#32 →
      decode w = .ok (.create (w.toNat / 2 ^ 8 % 16) (if w.toNat / 2 ^ 16 % 2 = 1 then .big else .little))) ∧
    ∀ (k : Nat) (e : Endian) (s : State),
      (s.cfg.nbuf ≤ k → exec (.create k e) s = .next { s with code := .badSlot }) ∧
        (k < s.cfg.nbuf → 8 * s.cfg.capBytes < s.op →
          exec (.create k e) s = .next { s with code := .capacityExceeded }) ∧
        (s.wf → k < s.cfg.nbuf → s.op ≤ 8 * s.cfg.capBytes →
          ∃ t, exec (.create k e) s = .next t ∧ t = { s with slots := t.slots, code := .ok } ∧
            t.slots.length = s.slots.length ∧
            (t.slot k).len = s.op ∧ (t.slot k).endian = e ∧ (t.slot k).valid = true ∧
            (∀ j, j ≠ k → t.slot j = s.slot j) ∧
            ∀ j off, ramRead t j off = ramRead s j off)

/-- 41_buffer.md R124: `RESIZE`, every outcome: `BadSlot`; `CapacityExceeded`; else `LEN` of the slot is `OP` and no
endianness, RAM byte, other slot or other register changes. That a length of `2^(W-1)` or more is accepted up to
`MAXBITS` is the model's choice (log entry 15). -/
def Obligations.ResizeSetsLengthOnly : Prop :=
  (∀ w : CmdWord, w &&& 0xFFFFF0FF#32 = 0x00000011#32 → decode w = .ok (.resize (w.toNat / 2 ^ 8 % 16))) ∧
    ∀ (k : Nat) (s : State),
      (¬s.usable k → exec (.resize k) s = .next { s with code := .badSlot }) ∧
        (s.usable k → 8 * s.cfg.capBytes < s.op →
          exec (.resize k) s = .next { s with code := .capacityExceeded }) ∧
        (s.usable k → s.op ≤ 8 * s.cfg.capBytes →
          ∃ t, exec (.resize k) s = .next t ∧ t = { s with slots := t.slots, code := .ok } ∧
            t.slots.length = s.slots.length ∧
            t.slot k = { s.slot k with len := s.op } ∧
            (∀ j, j ≠ k → t.slot j = s.slot j) ∧
            ∀ j off, ramRead t j off = ramRead s j off)

/-- 41_buffer.md R125: `FREE`, every outcome: `BadSlot`, also on a slot already free; else `VALID` is cleared and
`LEN`, `END`, RAM, every other slot and every other register keep their values. -/
def Obligations.FreeClearsValidOnly : Prop :=
  (∀ w : CmdWord, w &&& 0xFFFFF0FF#32 = 0x00000012#32 → decode w = .ok (.free (w.toNat / 2 ^ 8 % 16))) ∧
    ∀ (k : Nat) (s : State),
      (¬s.usable k → exec (.free k) s = .next { s with code := .badSlot }) ∧
        (s.usable k →
          ∃ t, exec (.free k) s = .next t ∧ t = { s with slots := t.slots, code := .ok } ∧
            t.slots.length = s.slots.length ∧
            t.slot k = { s.slot k with valid := false } ∧
            (∀ j, j ≠ k → t.slot j = s.slot j) ∧
            ∀ j off, ramRead t j off = ramRead s j off)

/-- 41_buffer.md R126: `WRBYTE`, every outcome: `BadSlot`; `ByteOffsetOutOfRange`; else the one byte at offset `OP`,
anywhere in the slot's RAM, is written, and no other byte and no other register but `STATUS` changes. -/
def Obligations.WrbyteStoresOneByte : Prop :=
  (∀ w : CmdWord, w &&& 0x00FFF0FF#32 = 0x00000013#32 →
      decode w = .ok (.wrbyte (w.toNat / 2 ^ 8 % 16) (BitVec.ofNat 8 (w.toNat / 2 ^ 24)))) ∧
    ∀ (k : Nat) (b : Byte) (s : State),
      (¬s.usable k → exec (.wrbyte k b) s = .next { s with code := .badSlot }) ∧
        (s.usable k → s.cfg.capBytes ≤ s.op →
          exec (.wrbyte k b) s = .next { s with code := .byteOffsetOutOfRange }) ∧
        (s.usable k → s.op < s.cfg.capBytes →
          ∃ t, exec (.wrbyte k b) s = .next { t with code := .ok } ∧ ramOnly s t ∧ ramRead t k s.op = b ∧
            ∀ k' off, ¬(k' = k ∧ off = s.op) → ramRead t k' off = ramRead s k' off)

/-- 41_buffer.md R127: `RDBYTE`, every outcome: `BadSlot`; `ByteOffsetOutOfRange`; else the byte as stored is in `AUX`
and nothing but `STATUS` changes besides. -/
def Obligations.RdbyteLoadsByteAsStored : Prop :=
  (∀ w : CmdWord, w &&& 0xFFFFF0FF#32 = 0x00000014#32 → decode w = .ok (.rdbyte (w.toNat / 2 ^ 8 % 16))) ∧
    ∀ (k : Nat) (s : State),
      (¬s.usable k → exec (.rdbyte k) s = .next { s with code := .badSlot }) ∧
        (s.usable k → s.cfg.capBytes ≤ s.op →
          exec (.rdbyte k) s = .next { s with code := .byteOffsetOutOfRange }) ∧
        (s.usable k → s.op < s.cfg.capBytes →
          exec (.rdbyte k) s = .next { s with aux := ramRead s k s.op, code := .ok })

/-- 41_buffer.md R129: `NORMTAIL`, every outcome: `BadSlot`; else the padding bits of the slot are cleared and only
`STATUS` changes besides; a second `NORMTAIL` leaves every byte as the first did. -/
def Obligations.NormtailClearsPadding : Prop :=
  (∀ w : CmdWord, w &&& 0xFFFFF0FF#32 = 0x00000022#32 → decode w = .ok (.normtail (w.toNat / 2 ^ 8 % 16))) ∧
    ∀ (k : Nat) (s : State),
      (¬s.usable k → exec (.normtail k) s = .next { s with code := .badSlot }) ∧
        (s.wf → s.usable k →
          ∃ t, exec (.normtail k) s = .next { t with code := .ok } ∧ paddingCleared [k] s t ∧
            ∃ u, exec (.normtail k) { t with code := .ok } = .next { u with code := .ok } ∧
              ∀ k' off, ramRead u k' off = ramRead t k' off)

/-- 42_popcount.md R143, R144: `COUNT`, every outcome: `BadSlot`; else the padding is cleared and `RES` is the sum of
`POPCOUNT` over the bytes in use, which is the number of set logical bits, at most `LEN` (marked in R143 as
derived). -/
def Obligations.CountCountsLogicalBits : Prop :=
  (∀ w : CmdWord, w &&& 0xFFFFF0FF#32 = 0x00000030#32 → decode w = .ok (.count (w.toNat / 2 ^ 8 % 16))) ∧
    ∀ (k : Nat) (s : State),
      (¬s.usable k → exec (.count k) s = .next { s with code := .badSlot }) ∧
        (s.wf → s.usable k →
          ∃ t, exec (.count k) s = .next { t with res := cnt s k (s.slot k).len, code := .ok } ∧
            paddingCleared [k] s t ∧ cnt s k (s.slot k).len ≤ (s.slot k).len ∧
            cnt s k (s.slot k).len = ((List.range (bytesUsed s k)).map fun q => popcount (ramRead t k q)).sum)

/-- 43_search.md R151, R152: `COUNTN`, every outcome: `BadSlot`; the least index `i` with `OP` set bits among the
logical bits below it, which is 0 for `OP = 0` and exists when `OP` is at most the total; else `NOT_FOUND` with `RES =
ALL1`. The padding is cleared in both last cases, whatever the block size of the tiers. -/
def Obligations.CountnFindsLeastIndex : Prop :=
  (∀ w : CmdWord, w &&& 0xFFFFF0FF#32 = 0x00000031#32 → decode w = .ok (.countn (w.toNat / 2 ^ 8 % 16))) ∧
    ∀ (k : Nat) (s : State),
      (¬s.usable k → exec (.countn k) s = .next { s with code := .badSlot }) ∧
        (s.wf → s.usable k → s.op ≤ cnt s k (s.slot k).len →
          ∃ t i, exec (.countn k) s = .next { t with res := i, code := .ok } ∧ paddingCleared [k] s t ∧
            i ≤ (s.slot k).len ∧ cnt s k i = s.op ∧ (∀ j, j < i → cnt s k j ≠ s.op) ∧
            (s.op = 0 → i = 0) ∧ (s.op ≠ 0 → 0 < i ∧ bitAt s k (i - 1) = true)) ∧
        (s.wf → s.usable k → cnt s k (s.slot k).len < s.op →
          ∃ t, exec (.countn k) s = .next { t with res := 2 ^ s.cfg.idxw - 1, code := .notFound } ∧
            paddingCleared [k] s t)

/-- 43_search.md R158, R159: `FINDLAST`, every outcome: `BadSlot`; the highest logical index holding `v`; else
`NOT_FOUND` with `RES = ALL1`. The padding is cleared in both last cases. -/
def Obligations.FindlastFindsHighestIndex : Prop :=
  (∀ w : CmdWord, w &&& 0xFFFDF0FF#32 = 0x00000032#32 →
      decode w = .ok (.findlast (w.toNat / 2 ^ 8 % 16) (w.toNat / 2 ^ 17 % 2 = 1))) ∧
    ∀ (k : Nat) (v : Bool) (s : State),
      (¬s.usable k → exec (.findlast k v) s = .next { s with code := .badSlot }) ∧
        (s.wf → s.usable k → (∃ i, i < (s.slot k).len ∧ bitAt s k i = v) →
          ∃ t i, exec (.findlast k v) s = .next { t with res := i, code := .ok } ∧ paddingCleared [k] s t ∧
            i < (s.slot k).len ∧ bitAt s k i = v ∧ ∀ j, i < j → j < (s.slot k).len → bitAt s k j ≠ v) ∧
        (s.wf → s.usable k → (∀ i, i < (s.slot k).len → bitAt s k i ≠ v) →
          ∃ t, exec (.findlast k v) s = .next { t with res := 2 ^ s.cfg.idxw - 1, code := .notFound } ∧
            paddingCleared [k] s t)

/-- 44_reduction.md R171, R172: the four pairwise commands on operands they do not accept: `BadSlot` for slot `a` or
slot `b`, then `LengthMismatch`, then `EndiannessMismatch`, each with nothing else changed, padding and result
registers included. -/
def Obligations.PairChecksComeFirst : Prop :=
  ∀ (ka kb : Nat) (s : State), ∀ i ∈ [Instr.cntand ka kb, .cntor ka kb, .cntxor ka kb, .subset ka kb],
    (¬s.usable ka → exec i s = .next { s with code := .badSlot }) ∧
      (s.usable ka → ¬s.usable kb → exec i s = .next { s with code := .badSlot }) ∧
      (s.usable ka → s.usable kb → (s.slot ka).len ≠ (s.slot kb).len →
        exec i s = .next { s with code := .lengthMismatch }) ∧
      (s.usable ka → s.usable kb → (s.slot ka).len = (s.slot kb).len → (s.slot ka).endian ≠ (s.slot kb).endian →
        exec i s = .next { s with code := .endiannessMismatch })

/-- 44_reduction.md R173: `CNTAND`, every outcome: an error of R172; else both paddings are cleared and `RES` is the
sum over the bytes of `POPCOUNT[A[q] & B[q]]`, which is the number of indices set in both. -/
def Obligations.CntandCountsCommonBits : Prop :=
  (∀ w : CmdWord, w &&& 0xFFFF00FF#32 = 0x00000040#32 →
      decode w = .ok (.cntand (w.toNat / 2 ^ 8 % 16) (w.toNat / 2 ^ 12 % 16))) ∧
    ∀ (ka kb : Nat) (s : State),
      (∀ c, pairError s ka kb = some c → exec (.cntand ka kb) s = .next { s with code := c }) ∧
        (s.wf → pairError s ka kb = none →
          ∃ t n, exec (.cntand ka kb) s = .next { t with res := n, code := .ok } ∧ paddingCleared [ka, kb] s t ∧
            n = ((List.range (bytesUsed s ka)).map fun q => popcount (ramRead t ka q &&& ramRead t kb q)).sum ∧
            n = ((List.range (s.slot ka).len).filter fun i => bitAt s ka i && bitAt s kb i).length)

/-- 44_reduction.md R174: `CNTOR`, every outcome: an error of R172; else both paddings are cleared and `RES` is the
sum over the bytes of `POPCOUNT[A[q] | B[q]]`, which is the number of indices set in at least one. -/
def Obligations.CntorCountsUnionBits : Prop :=
  (∀ w : CmdWord, w &&& 0xFFFF00FF#32 = 0x00000041#32 →
      decode w = .ok (.cntor (w.toNat / 2 ^ 8 % 16) (w.toNat / 2 ^ 12 % 16))) ∧
    ∀ (ka kb : Nat) (s : State),
      (∀ c, pairError s ka kb = some c → exec (.cntor ka kb) s = .next { s with code := c }) ∧
        (s.wf → pairError s ka kb = none →
          ∃ t n, exec (.cntor ka kb) s = .next { t with res := n, code := .ok } ∧ paddingCleared [ka, kb] s t ∧
            n = ((List.range (bytesUsed s ka)).map fun q => popcount (ramRead t ka q ||| ramRead t kb q)).sum ∧
            n = ((List.range (s.slot ka).len).filter fun i => bitAt s ka i || bitAt s kb i).length)

/-- 44_reduction.md R175: `CNTXOR`, every outcome: an error of R172; else both paddings are cleared and `RES` is the
sum over the bytes of `POPCOUNT[A[q] ^ B[q]]`, which is the number of indices where the two differ. -/
def Obligations.CntxorCountsDifferingBits : Prop :=
  (∀ w : CmdWord, w &&& 0xFFFF00FF#32 = 0x00000042#32 →
      decode w = .ok (.cntxor (w.toNat / 2 ^ 8 % 16) (w.toNat / 2 ^ 12 % 16))) ∧
    ∀ (ka kb : Nat) (s : State),
      (∀ c, pairError s ka kb = some c → exec (.cntxor ka kb) s = .next { s with code := c }) ∧
        (s.wf → pairError s ka kb = none →
          ∃ t n, exec (.cntxor ka kb) s = .next { t with res := n, code := .ok } ∧ paddingCleared [ka, kb] s t ∧
            n = ((List.range (bytesUsed s ka)).map fun q => popcount (ramRead t ka q ^^^ ramRead t kb q)).sum ∧
            n = ((List.range (s.slot ka).len).filter fun i => bitAt s ka i != bitAt s kb i).length)

/-- 44_reduction.md R176: `SUBSET`, every outcome: an error of R172; else both paddings are cleared and `AUX` is
`0x01` exactly when `(A[q] & B[q]) = A[q]` for every byte, which is when every logical bit set in `a` is set in `b`;
else `0x00`. -/
def Obligations.SubsetTestsInclusion : Prop :=
  (∀ w : CmdWord, w &&& 0xFFFF00FF#32 = 0x00000043#32 →
      decode w = .ok (.subset (w.toNat / 2 ^ 8 % 16) (w.toNat / 2 ^ 12 % 16))) ∧
    ∀ (ka kb : Nat) (s : State),
      (∀ c, pairError s ka kb = some c → exec (.subset ka kb) s = .next { s with code := c }) ∧
        (s.wf → pairError s ka kb = none →
          ∃ t r, exec (.subset ka kb) s = .next { t with aux := if r then 0x01#8 else 0x00#8, code := .ok } ∧
            paddingCleared [ka, kb] s t ∧
            (r = true ↔ ∀ q, q < bytesUsed s ka → ramRead t ka q &&& ramRead t kb q = ramRead t ka q) ∧
            (r = true ↔ ∀ i, i < (s.slot ka).len → bitAt s ka i = true → bitAt s kb i = true))

/-! ### Laws between commands -/

/-- 43_search.md R153 (marked there as derived from R151): the locator's properties, with `c` the result of `COUNT`
and `OP` set to the count asked for. -/
def Obligations.LocatorProperties : Prop :=
  ∀ (k : Nat) (s t : State), s.wf → s.usable k → exec (.count k) s = .next t →
    (∃ t0, exec (.countn k) { s with op := 0 } = .next t0 ∧ t0.code = .ok ∧ t0.res = 0) ∧
      (∃ t1, exec (.countn k) { s with op := t.res + 1 } = .next t1 ∧ t1.code = .notFound) ∧
      (∃ t2, exec (.countn k) { s with op := t.res } = .next t2 ∧ t2.code = .ok ∧
        (0 < (s.slot k).len → bitAt s k ((s.slot k).len - 1) = true → t2.res = (s.slot k).len) ∧
        ∀ f, exec (.findlast k true) s = .next f → f.code = .ok → t2.res = f.res + 1) ∧
      (∀ n, n ≤ t.res → ∃ a, exec (.countn k) { s with op := n } = .next a ∧ a.code = .ok ∧ cnt s k a.res = n ∧
        (∀ j, j < a.res → cnt s k j ≠ n) ∧ (1 ≤ n → bitAt s k (a.res - 1) = true)) ∧
      ∀ n n' a b, 1 ≤ n → n < n' → n' ≤ t.res → exec (.countn k) { s with op := n } = .next a →
        exec (.countn k) { s with op := n' } = .next b → a.res < b.res

/-- 43_search.md R160 (marked there as derived from R159): `findLast(a, 1)` is `NOT_FOUND` iff `countBits(a) = 0`,
otherwise the bit at the returned index is 1 and all logical bits after it are 0; `findLast(a, 0)` is `NOT_FOUND` iff
`countBits(a) = length_bits`. -/
def Obligations.FindlastNotFoundIffCount : Prop :=
  ∀ (k : Nat) (s t : State), s.wf → s.usable k → exec (.count k) s = .next t →
    (∃ f, exec (.findlast k true) s = .next f ∧ (f.code = .notFound ↔ t.res = 0) ∧
        (f.code ≠ .notFound → f.code = .ok ∧ bitAt s k f.res = true ∧
          ∀ i, f.res < i → i < (s.slot k).len → bitAt s k i = false)) ∧
      ∃ f, exec (.findlast k false) s = .next f ∧ (f.code = .notFound ↔ t.res = (s.slot k).len)

/-- 44_reduction.md R178 (marked there as derived from R177): inclusion–exclusion, the subset law, xor as or less and,
the symmetric counts, the asymmetric subset test, and equality as mutual inclusion, for all operands of equal length
and endianness. -/
def Obligations.PairwiseIdentities : Prop :=
  (∀ (ka kb : Nat) (s : State), s.wf → s.usable ka → s.usable kb → (s.slot ka).len = (s.slot kb).len →
      (s.slot ka).endian = (s.slot kb).endian →
      ∃ ca cb an ora xo an' ora' xo' sub sub',
        exec (.count ka) s = .next ca ∧ exec (.count kb) s = .next cb ∧
          exec (.cntand ka kb) s = .next an ∧ exec (.cntor ka kb) s = .next ora ∧ exec (.cntxor ka kb) s = .next xo ∧
          exec (.cntand kb ka) s = .next an' ∧ exec (.cntor kb ka) s = .next ora' ∧
          exec (.cntxor kb ka) s = .next xo' ∧
          exec (.subset ka kb) s = .next sub ∧ exec (.subset kb ka) s = .next sub' ∧
          an.res + ora.res = ca.res + cb.res ∧ (sub.aux = 0x01#8 ↔ an.res = ca.res) ∧
          xo.res = ora.res - an.res ∧ an'.res = an.res ∧ ora'.res = ora.res ∧ xo'.res = xo.res ∧
          (sub.aux = 0x01#8 ∧ sub'.aux = 0x01#8 ↔ xo.res = 0)) ∧
    ∃ (s t t' : State), s.wf ∧ exec (.subset 0 1) s = .next t ∧ exec (.subset 1 0) s = .next t' ∧ t.code = .ok ∧
      t'.code = .ok ∧ t.aux ≠ t'.aux

/-- 43_search.md R157 (marked there as derived): the result of `COUNTN` does not depend on `BLOCK_BITS`, any multiple
of 8: changing it changes no other field of the outcome. -/
def Obligations.LocatorIndependentOfBlockSize : Prop :=
  ∀ (k b : Nat) (s t : State), s.wf → b % 8 = 0 → 8 ≤ b → exec (.countn k) s = .next t →
    exec (.countn k) { s with cfg := { s.cfg with blockBits := b } } =
      .next { t with cfg := { t.cfg with blockBits := b } }

/-! ### Frames -/

/-- 10_state.md R24: the commands that store nothing and change no slot. Each changes its own result registers and
`STATUS.CODE` only; every byte reads as before. -/
def Obligations.RegisterCommandsFrame : Prop :=
  ∀ (e : Endian) (b : Byte) (k : Nat) (s t : State),
    (exec .nop s = .next t → t = { s with code := t.code }) ∧
      (exec (.decode e) s = .next t → t = { s with res := t.res, aux := t.aux, code := t.code }) ∧
      (exec .bytesfor s = .next t → t = { s with res := t.res, code := t.code }) ∧
      (exec (.popb b) s = .next t → t = { s with res := t.res, code := t.code }) ∧
      (exec (.nibswap b) s = .next t → t = { s with aux := t.aux, code := t.code }) ∧
      (exec (.rdbyte k) s = .next t → t = { s with aux := t.aux, code := t.code }) ∧
      (exec (.getbit k) s = .next t → t = { s with aux := t.aux, code := t.code }) ∧
      ∀ i ∈ [Instr.nop, .decode e, .bytesfor, .popb b, .nibswap b, .rdbyte k, .getbit k], exec i s = .next t →
        ∀ k' off, ramRead t k' off = ramRead s k' off

/-- 41_buffer.md R123 to R125 and 20_memory.md R51: the commands that change slot fields. Only the named slot and
`STATUS.CODE` change; `RESIZE` keeps `END` and `VALID`, `FREE` keeps `LEN` and `END`; every byte reads as before. -/
def Obligations.SlotFieldCommandsFrame : Prop :=
  ∀ (e : Endian) (k : Nat) (s t : State), ∀ i ∈ [Instr.create k e, .resize k, .free k], exec i s = .next t →
    t = { s with slots := t.slots, code := t.code } ∧ t.slots.length = s.slots.length ∧
      (∀ j, j ≠ k → t.slot j = s.slot j) ∧
      (i = .resize k → (t.slot k).endian = (s.slot k).endian ∧ (t.slot k).valid = (s.slot k).valid) ∧
      (i = .free k → (t.slot k).len = (s.slot k).len ∧ (t.slot k).endian = (s.slot k).endian) ∧
      ∀ k' off, ramRead t k' off = ramRead s k' off

/-- 41_buffer.md R126, 40_bit_addressing.md R107: the commands that store. Only RAM and `STATUS.CODE` change, and
every byte outside the one stored to reads as before: offset `OP` for `WRBYTE`, `byte_index(END, OP)` for `SETBIT`. -/
def Obligations.StoringCommandsFrame : Prop :=
  ∀ (b : Byte) (v : Bool) (k : Nat) (s t : State),
    (exec (.wrbyte k b) s = .next t →
        ramOnly { s with code := t.code } t ∧
          ∀ a, a = s.op → ∀ k' off, ¬(k' = k ∧ off = a) → ramRead t k' off = ramRead s k' off) ∧
      (exec (.setbit k v) s = .next t →
        ramOnly { s with code := t.code } t ∧
          ∀ a, a = byteIndex (s.slot k).endian s.op →
            ∀ k' off, ¬(k' = k ∧ off = a) → ramRead t k' off = ramRead s k' off)

/-- 41_buffer.md R132, 10_state.md R24: the one-slot commands that normalise. Only padding, `RES` (not for `NORMTAIL`)
and `STATUS.CODE` change: every byte but a partial final byte of the named slot reads as before, and every logical bit
of every slot stays. -/
def Obligations.NormalisingCommandsFrame : Prop :=
  ∀ (v : Bool) (k : Nat) (s t : State), ∀ i ∈ [Instr.normtail k, .count k, .countn k, .findlast k v],
    exec i s = .next t →
    ramOnly { s with res := t.res, code := t.code } t ∧ (i = .normtail k → t.res = s.res) ∧
      (∀ k' off, ¬(k' = k ∧ (s.slot k).len % 8 ≠ 0 ∧ off + 1 = bytesUsed s k) → ramRead t k' off = ramRead s k' off) ∧
      ∀ k' x, x < (s.slot k').len → bitAt t k' x = bitAt s k' x

/-- 44_reduction.md R179, 10_state.md R24: the pairwise commands. Only padding of the two named slots, `STATUS.CODE`,
and `RES` (for `SUBSET` instead `AUX`) change; lengths, endiannesses and logical bits of every slot stay. -/
def Obligations.PairwiseCommandsFrame : Prop :=
  ∀ (ka kb : Nat) (s t : State), ∀ i ∈ [Instr.cntand ka kb, .cntor ka kb, .cntxor ka kb, .subset ka kb],
    exec i s = .next t →
    ramOnly { s with res := t.res, aux := t.aux, code := t.code } t ∧
      (i = .subset ka kb → t.res = s.res) ∧ (i ≠ .subset ka kb → t.aux = s.aux) ∧
      (∀ k off, ¬((k = ka ∨ k = kb) ∧ (s.slot k).len % 8 ≠ 0 ∧ off + 1 = bytesUsed s k) →
        ramRead t k off = ramRead s k off) ∧
      ∀ k x, x < (s.slot k).len → bitAt t k x = bitAt s k x

/-! ### Rules over all commands -/

/-- 60_exceptions.md R203, R211, R212: a command that ends with an error code writes `STATUS.CODE` and nothing else;
with `NOT_FOUND` it also writes `RES <- ALL1` and clears the padding of the slot it names; a count or an index that
ends `OK` is never `ALL1`, so `RES` alone also tells `NOT_FOUND`. -/
def Obligations.ErrorsChangeNothingElse : Prop :=
  ∀ (i : Instr) (s t : State), exec i s = .next t →
    (t.code ≠ .ok → t.code ≠ .notFound → t = { s with code := t.code }) ∧
      (t.code = .notFound → ∃ k u, (i = .countn k ∨ ∃ v, i = .findlast k v) ∧ paddingCleared [k] s u ∧
        t = { u with res := 2 ^ s.cfg.idxw - 1, code := .notFound }) ∧
      (s.wf → t.code = .ok →
        ∀ k j v, i ∈ [Instr.countn k, .findlast k v, .count k, .cntand k j, .cntor k j, .cntxor k j] →
          t.res ≠ 2 ^ s.cfg.idxw - 1)

/-- 60_exceptions.md R214 (marked there as derived): which command can end with which code; a blank of that matrix
cannot happen. -/
def Obligations.StatusCodeMatrix : Prop :=
  ∀ (i : Instr) (s t : State), exec i s = .next t →
    t.code ∈ (match i with
      | .nop | .decode _ | .bytesfor | .popb _ | .nibswap _ => [Code.ok]
      | .create _ _ | .resize _ => [.ok, .badSlot, .capacityExceeded]
      | .free _ | .normtail _ | .count _ => [.ok, .badSlot]
      | .wrbyte _ _ | .rdbyte _ => [.ok, .badSlot, .byteOffsetOutOfRange]
      | .getbit _ | .setbit _ _ => [.ok, .indexOutOfRange, .badSlot]
      | .countn _ | .findlast _ _ => [.ok, .notFound, .badSlot]
      | .cntand _ _ | .cntor _ _ | .cntxor _ _ | .subset _ _ =>
        [.ok, .lengthMismatch, .endiannessMismatch, .badSlot])

/-- 60_exceptions.md R207: `CheckSlot` comes first in every command that names a slot but `CREATE`: a number `≥ NBUF`
or a slot that is not valid ends it with `BadSlot`, whatever its other operands, and nothing else does; `CREATE`
checks the number only. -/
def Obligations.BadSlotComesFirst : Prop :=
  ∀ (i : Instr) (s : State),
    (∀ k ∈ namedSlots i, s.cfg.nbuf ≤ k ∨ (s.slot k).valid = false → exec i s = .next { s with code := .badSlot }) ∧
      (∀ k e, i = .create k e → s.cfg.nbuf ≤ k → exec i s = .next { s with code := .badSlot }) ∧
      ∀ t, exec i s = .next t → t.code = .badSlot →
        (∃ k ∈ namedSlots i, s.cfg.nbuf ≤ k ∨ (s.slot k).valid = false) ∨ ∃ k e, i = .create k e ∧ s.cfg.nbuf ≤ k

/-- 60_exceptions.md R215: the fatal state is entered in one case only: a non-validating BVE, `GETBIT` or `SETBIT`
with an index `≥ LEN[k]` on a good slot; the state it leaves is the one before with `STATUS.FATAL = 1`. No command
that goes on changes `FATAL`, and on a validating BVE no step sets it (marked in the rule as derived). The fault
carries the state (log entry 6), and `exec` itself does not look at `FATAL` (log entry 7). That an index of `2^(W-1)`
or more is accepted below `LEN` is the model's choice (log entry 15). -/
def Obligations.FatalEnteredInOneCaseOnly : Prop :=
  (∀ (i : Instr) (s t : State),
      exec i s = .fault (.fatal t) ↔
        s.cfg.validating = false ∧ t = { s with fatal := true } ∧
          ∃ k, (i = .getbit k ∨ ∃ v, i = .setbit k v) ∧ s.usable k ∧ (s.slot k).len ≤ s.op) ∧
    (∀ (i : Instr) (s t : State), exec i s = .next t → t.fatal = s.fatal) ∧
    ∀ s : State, s.cfg.validating = true →
      (∀ t, step s ≠ .fault (.fatal t)) ∧ ∀ t, step s = .next t → t.fatal = true → s.fatal = true

/-- 10_state.md R26, R27: `LEN` is written by `CREATE` and `RESIZE` only, `VALID` set by `CREATE` and cleared by
`FREE` only, `ENDIAN` written by `CREATE` only, each on the slot the command names. -/
def Obligations.SlotFieldWriters : Prop :=
  ∀ (i : Instr) (s t : State), exec i s = .next t → ∀ k,
    ((t.slot k).len ≠ (s.slot k).len → i = .resize k ∨ ∃ e, i = .create k e) ∧
      ((t.slot k).endian ≠ (s.slot k).endian → ∃ e, i = .create k e) ∧
      ((t.slot k).valid ≠ (s.slot k).valid →
        ((t.slot k).valid = true → ∃ e, i = .create k e) ∧ ((t.slot k).valid = false → i = .free k))

/-- 20_memory.md R51: bytes at offsets `≥ bytes_used(k)` keep their contents under every command but `WRBYTE`,
`CREATE`, `RESIZE` and `FREE` included. -/
def Obligations.BytesBeyondUseKept : Prop :=
  ∀ (i : Instr) (s t : State), (∀ k b, i ≠ .wrbyte k b) → exec i s = .next t →
    ∀ k off, bytesUsed s k ≤ off → ramRead t k off = ramRead s k off

/-- 41_buffer.md R132, 70_reset_and_hazards.md R240: after a command of R132's first list that ended `OK` or
`NOT_FOUND`, every padding bit of each slot it names is 0. -/
def Obligations.PaddingZeroAfterNormalising : Prop :=
  ∀ (i : Instr) (s t : State), exec i s = .next t → t.code = .ok ∨ t.code = .notFound →
    ∀ k, (i = .normtail k ∨ i = .count k ∨ i = .countn k ∨ (∃ v, i = .findlast k v) ∨
        ∃ j, i = .cntand k j ∨ i = .cntand j k ∨ i = .cntor k j ∨ i = .cntor j k ∨ i = .cntxor k j ∨ i = .cntxor j k ∨
          i = .subset k j ∨ i = .subset j k) →
      ∀ x, (t.slot k).len ≤ x → x < 8 * bytesUsed t k → bitAt t k x = false

/-- 10_state.md R31: no command reads `STATUS`, and the outcome of a command does not depend on that of an earlier one
but through slot fields and RAM: two states that agree on the parameters, `OP`, the slots and the RAM contents (`draw`
stands for the unwritten bytes, log entry 5) give the same code, the same slots, and the same result in each register
that is written. R31 excepts `FATAL`; it may differ here because the port makes that check, and `exec` does not look
at it (log entry 7). -/
def Obligations.OutcomeIgnoresEarlierResults : Prop :=
  ∀ (i : Instr) (s s' t : State), s'.cfg = s.cfg → s'.op = s.op → s'.slots = s.slots → s'.draw = s.draw →
    exec i s = .next t →
    ∃ t', exec i s' = .next t' ∧ t'.code = t.code ∧ t'.slots = t.slots ∧
      (t'.res = t.res ∨ t.res = s.res ∧ t'.res = s'.res) ∧ (t'.aux = t.aux ∨ t.aux = s.aux ∧ t'.aux = s'.aux)

/-- 10_state.md R22: the host's write of `OP` stores the value; no command changes `OP`; a command whose rule names no
`OP` operand ignores it. The step also takes the operation off the host's queue (log entry 2) and leaves `portOut`
empty (log entry 3). -/
def Obligations.OpIsHostsAndIgnoredWhereUnused : Prop :=
  (∀ (s : State) (v : Nat) (rest : List HostOp), s.hostOps = .write 0 v :: rest → v < 2 ^ s.cfg.idxw →
      step s = .next { s with hostOps := rest, portOut := none, op := v }) ∧
    (∀ (i : Instr) (s t : State), exec i s = .next t → t.op = s.op) ∧
    ∀ (i : Instr) (s t : State) (v : Nat),
      (match i with
        | .nop | .popb _ | .nibswap _ | .free _ | .normtail _ | .count _ | .findlast _ _ | .cntand _ _ | .cntor _ _
        | .cntxor _ _ | .subset _ _ => True
        | _ => False) →
      exec i s = .next t → exec i { s with op := v } = .next { t with op := v }

/-- 20_memory.md R55 (marked there as derived), 60_exceptions.md R217 (log entry 8): from a well-formed state every
command runs to its end: it answers a next state, or the fatal fault (log entry 6); no RAM offset is out of range and
no internal invariant fails. -/
def Obligations.EveryCommandRunsToItsEnd : Prop :=
  ∀ (i : Instr) (s : State), s.wf → (∃ t, exec i s = .next t) ∨ ∃ t, exec i s = .fault (.fatal t)

/-! ### Steps, the host port, reset -/

/-- 10_state.md R23: a write of `CMD` with `FATAL = 0` stores the word and runs the command it decodes to, on that
state; with `FATAL = 1` it changes nothing, not even `CMD`; a read of `CMD` returns the stored word. The step also
takes the operation off the host's queue (log entry 2) and reports a read's value in `portOut` (log entry 3). -/
def Obligations.CommandWriteRunsDecodedCommand : Prop :=
  ∀ (s : State) (rest : List HostOp),
    (∀ v i, s.hostOps = .write 1 v :: rest → v < 2 ^ 32 → s.fatal = false → decode (BitVec.ofNat 32 v) = .ok i →
        step s = exec i { s with hostOps := rest, portOut := none, cmd := BitVec.ofNat 32 v }) ∧
      (∀ v, s.hostOps = .write 1 v :: rest → v < 2 ^ 32 → s.fatal = true →
        step s = .next { s with hostOps := rest, portOut := none }) ∧
      (s.hostOps = .read 1 :: rest →
        step s = .next { s with hostOps := rest, portOut := some s.cmd.toNat })

/-- 60_exceptions.md R206: a word that selects no command changes `CMD`, which holds it, and `STATUS.CODE`, and
nothing else of the machine. The step also takes the operation off the host's queue (log entry 2) and leaves `portOut`
empty (log entry 3). -/
def Obligations.IllegalWordRaisesIllegalCommand : Prop :=
  ∀ (s : State) (v : Nat) (rest : List HostOp), s.hostOps = .write 1 v :: rest → v < 2 ^ 32 → s.fatal = false →
    (∀ i, decode (BitVec.ofNat 32 v) ≠ .ok i) →
    step s = .next
      { s with hostOps := rest, portOut := none, cmd := BitVec.ofNat 32 v, code := .illegalCommand }

/-- 60_exceptions.md R216: while `FATAL = 1`, a write of `CMD` is ignored entirely, register reads and the write of
`OP` still work, and only reset clears `FATAL`. The step also takes the operation off the host's queue (log entry 2)
and sets `portOut` to a read's value, else leaves it empty (log entry 3). -/
def Obligations.FatalStateIgnoresCommands : Prop :=
  ∀ s : State, s.fatal = true →
    (∀ v rest, s.hostOps = .write 1 v :: rest → v < 2 ^ 32 →
        step s = .next { s with hostOps := rest, portOut := none }) ∧
      (∀ v rest, s.hostOps = .write 0 v :: rest → v < 2 ^ s.cfg.idxw →
        step s = .next { s with hostOps := rest, portOut := none, op := v }) ∧
      (∀ r rest, s.hostOps = .read r :: rest → r < 5 ∨ 16 ≤ r ∧ r < 16 + 2 * s.cfg.nbuf →
        ∃ v, step s = .next { s with hostOps := rest, portOut := some v }) ∧
      ∀ t, step s = .next t → t.fatal = false → ∃ rest, s.hostOps = .reset :: rest

/-- 10_state.md R35: a read of any register returns its current value and changes nothing; a write of a read-only
register, of any value of its width, changes nothing; a write of `OP` writes it; a number that is no register is
refused by name (log entry 9). In the fatal state too. The step also takes the operation off the host's queue (log
entry 2) and sets `portOut` to a read's value, else leaves it empty (log entry 3). -/
def Obligations.RegisterAccess : Prop :=
  ∀ (s : State) (rest : List HostOp),
    (∀ r x, s.hostOps = .read r :: rest →
        (r, x) ∈ [(0, s.op), (1, s.cmd.toNat), (2, s.res), (3, s.aux.toNat),
          (4, s.code.number + if s.fatal then 2 ^ 31 else 0)] →
        step s = .next { s with hostOps := rest, portOut := some x }) ∧
      (∀ k, k < s.cfg.nbuf →
        (s.hostOps = .read (16 + 2 * k) :: rest →
          step s = .next { s with hostOps := rest, portOut := some (s.slot k).len }) ∧
        (s.hostOps = .read (17 + 2 * k) :: rest →
          ∀ x, x = (if (s.slot k).valid then 1 else 0) + (if (s.slot k).endian = .big then 2 else 0) →
            step s = .next { s with hostOps := rest, portOut := some x })) ∧
      (∀ r v, s.hostOps = .write r v :: rest →
        r = 2 ∧ v < 2 ^ s.cfg.idxw ∨ r = 3 ∧ v < 2 ^ 8 ∨ r = 4 ∧ v < 2 ^ 32 ∨
          (∃ k, k < s.cfg.nbuf ∧ (r = 16 + 2 * k ∧ v < 2 ^ s.cfg.idxw ∨ r = 17 + 2 * k ∧ v < 2 ^ 32)) →
        step s = .next { s with hostOps := rest, portOut := none }) ∧
      (∀ v, s.hostOps = .write 0 v :: rest → v < 2 ^ s.cfg.idxw →
        step s = .next { s with hostOps := rest, portOut := none, op := v }) ∧
      ∀ r, 5 ≤ r → r < 16 ∨ 16 + 2 * s.cfg.nbuf ≤ r →
        (s.hostOps = .read r :: rest → step s = .refused (.unmappedRegister r)) ∧
          ∀ v, s.hostOps = .write r v :: rest → step s = .refused (.unmappedRegister r)

/-- 10_state.md R29: `STATUS` reads as `CODE` in bits 3:0, `FATAL` in bit 31 and 0 elsewhere, with the code numbers of
60_exceptions.md R200; the read clears nothing; every executed command writes `CODE`, whatever it held. The step also
takes the operation off the host's queue (log entry 2) and reports the read's value in `portOut` (log entry 3). -/
def Obligations.StatusRegisterLayout : Prop :=
  (∀ (s : State) (rest : List HostOp), s.hostOps = .read 4 :: rest →
      ∃ v, step s = .next { s with hostOps := rest, portOut := some v } ∧
        v % 2 ^ 4 = (match s.code with
          | .ok => 0 | .notFound => 1 | .indexOutOfRange => 2 | .lengthMismatch => 3 | .endiannessMismatch => 4
          | .illegalCommand => 5 | .badSlot => 6 | .capacityExceeded => 7 | .byteOffsetOutOfRange => 8) ∧
        v / 2 ^ 4 % 2 ^ 27 = 0 ∧ v / 2 ^ 31 = (if s.fatal then 1 else 0)) ∧
    ∀ (i : Instr) (s t : State) (c : Code), exec i s = .next t → exec i { s with code := c } = .next t

/-- 70_reset_and_hazards.md R230, 10_state.md R36: the reset input leaves every block register 0 and every slot
invalid, empty and `LITTLE`, from any state, the fatal one included. RAM is unspecified: every byte reads as the free
value of a draw not used before (log entry 5); the parameters and the host's further operations stay (log entries 1,
2). `State.reset` is such a state. -/
def Obligations.ResetState : Prop :=
  (∀ (s : State) (rest : List HostOp), s.hostOps = .reset :: rest →
      ∃ t, step s = .next t ∧ t.op = 0 ∧ t.cmd = 0 ∧ t.res = 0 ∧ t.aux = 0 ∧ t.code = .ok ∧ t.fatal = false ∧
        t.slots.length = s.cfg.nbuf ∧
        (∀ k, (t.slot k).len = 0 ∧ (t.slot k).endian = .little ∧ (t.slot k).valid = false ∧
          ∀ off, ramRead t k off = Config.resetByte t.draw k off) ∧
        s.draw < t.draw ∧ t.cfg = s.cfg ∧ t.hostOps = rest) ∧
    (State.reset.op = 0 ∧ State.reset.cmd = 0 ∧ State.reset.res = 0 ∧ State.reset.aux = 0 ∧ State.reset.code = .ok ∧
      State.reset.fatal = false ∧ State.reset.cfg = Config.default ∧ State.reset.slots.length = 2 ∧
      ∀ k, (State.reset.slot k).len = 0 ∧ (State.reset.slot k).endian = .little ∧
        (State.reset.slot k).valid = false ∧ (State.reset.slot k).ram = [])

/-- The model's own: a BVE with no host operation queued waits (70_reset_and_hazards.md R233; log entry 2), and the
queue is served from its oldest operation: every step that goes on takes that one off and leaves the rest, and no step
changes the parameters (log entry 1). The step into the fatal state is a fault that carries the state it leaves (log
entry 6). -/
def Obligations.StepServesOldestOperation : Prop :=
  ∀ s : State, (s.hostOps = [] → step s = .next s) ∧
    ∀ t, step s = .next t ∨ step s = .fault (.fatal t) → t.hostOps = s.hostOps.tail ∧ t.cfg = s.cfg

/-! ### Invariants -/

/-- The model's invariant: every step from a well-formed state, the step into the fatal state (log entry 6) included,
leaves a well-formed state: legal parameters, `OP` and `RES` within `W` bits, `NBUF` slots, each with a length within
the capacity (10_state.md R28) and its RAM in canonical form (log entry 11). -/
def Obligations.StepKeepsStateWellFormed : Prop :=
  ∀ s t : State, s.wf → step s = .next t ∨ step s = .fault (.fatal t) → t.wf

/-- The state after reset is well formed, for every choice of the parameters. -/
def Obligations.ResetStateIsWellFormed : Prop :=
  State.reset.wf ∧ ∀ (c : Config) (draw : Nat) (ops : List HostOp), c.wf → (State.resetOf c draw ops).wf

/-- 10_state.md R28 (marked there as derived): (a) `LEN[k] ≤ MAXBITS`, so `bytes_used(k) ≤ CAP_BYTES`; (b) `8 *
bytes_used(k) ≤ MAXBITS ≤ 2^W - 8`, so that and `LEN[k] + 7` fit `W` bits; (c) RAM bytes are bytes. True after reset,
and every command preserves them; the unused-bits invariant is not among them. -/
def Obligations.LengthInvariants : Prop :=
  let inv : State → Prop := fun s => ∀ k,
    (s.slot k).len ≤ 8 * s.cfg.capBytes ∧ bytesUsed s k ≤ s.cfg.capBytes ∧
      8 * bytesUsed s k ≤ 8 * s.cfg.capBytes ∧ 8 * s.cfg.capBytes ≤ 2 ^ s.cfg.idxw - 8 ∧
      8 * bytesUsed s k < 2 ^ s.cfg.idxw ∧ (s.slot k).len + 7 < 2 ^ s.cfg.idxw ∧
      ∀ off, (ramRead s k off).toNat ≤ 0xFF
  (∀ (c : Config) (draw : Nat) (ops : List HostOp), c.wf → inv (State.resetOf c draw ops)) ∧
    (∀ (i : Instr) (s t : State), s.cfg.wf → inv s → exec i s = .next t → inv t) ∧
    ∃ (i : Instr) (s t : State), s.wf ∧ exec i s = .next t ∧
      ∃ x, (t.slot 0).len ≤ x ∧ x < 8 * bytesUsed t 0 ∧ bitAt t 0 x = true
end

