-- ==== Sys2Proof/Laws/Memory.lean ====
section
/-! SUPPORT. The RAM of one slot as a list: a read after a write, and the canonical form. -/

namespace Sys2Proof.Machine

theorem Memory.lookup_store (m : Memory) (off off' : Nat) (v : Byte) :
    Memory.lookup (Memory.store m off v) off' = if off' = off then some v else Memory.lookup m off' := by
  induction m with
  | nil => simp [Memory.store, Memory.lookup, eq_comm]
  | cons c m ih =>
    simp only [Memory.store]
    split
    · simp only [Memory.lookup]; grind
    · split
      · simp only [Memory.lookup]; grind
      · simp only [Memory.lookup, ih]; grind

theorem Memory.mem_store {m : Memory} {off : Nat} {v : Byte} {c : Host.Cell} (h : c ∈ Memory.store m off v) :
    c = (off, v) ∨ c ∈ m := by
  induction m with
  | nil => simpa [Memory.store] using h
  | cons d m ih => simp only [Memory.store] at h; grind

/-- A write keeps the canonical form. -/
theorem Memory.store_wf {cap : Nat} {m : Memory} {off : Nat} (v : Byte) (h : Memory.wf cap m) (hoff : off < cap) :
    Memory.wf cap (Memory.store m off v) := by
  refine ⟨?_, fun c hc => ?_⟩
  · have h1 := h.1
    clear h
    induction m with
    | nil => simp [Memory.store]
    | cons d m ih =>
      rw [List.pairwise_cons] at h1
      simp only [Memory.store]
      split
      · rename_i hlt
        refine List.pairwise_cons.2 ⟨fun c hc => ?_, List.pairwise_cons.2 h1⟩
        rcases List.mem_cons.1 hc with rfl | hc
        · exact hlt
        · exact Nat.lt_trans hlt (h1.1 c hc)
      · split
        · rename_i _ heq
          exact List.pairwise_cons.2 ⟨fun c hc => by simpa [heq] using h1.1 c hc, h1.2⟩
        · refine List.pairwise_cons.2 ⟨fun c hc => ?_, ih h1.2⟩
          rcases Memory.mem_store hc with rfl | hc
          · simp only; omega
          · exact h1.1 c hc
  · rcases Memory.mem_store hc with rfl | hc
    · exact hoff
    · exact h.2 c hc

/-- Of two writes at one offset only the second remains. -/
theorem Memory.store_store (m : Memory) (off : Nat) (v w : Byte) :
    Memory.store (Memory.store m off v) off w = Memory.store m off w := by
  induction m with
  | nil => simp [Memory.store]
  | cons c m ih =>
    by_cases h1 : off < c.1
    · simp [Memory.store, h1]
    · by_cases h2 : off = c.1
      · simp [Memory.store, h2]
      · simp [Memory.store, h1, h2, ih]

theorem Memory.wf_nil (cap : Nat) : Memory.wf cap [] := ⟨List.Pairwise.nil, by simp⟩

end Sys2Proof.Machine
end

