-- ==== Sys2Proof/Laws/State.lean ====
section
/-! SUPPORT. One lemma per field per update of the state, so that no proof unfolds a record update. -/

namespace Sys2Proof.Machine

variable (s : State)

@[simp] theorem State.setOp_cfg (v : Nat) : (s.setOp v).cfg = s.cfg := rfl
@[simp] theorem State.setOp_op (v : Nat) : (s.setOp v).op = v := rfl
@[simp] theorem State.setOp_cmd (v : Nat) : (s.setOp v).cmd = s.cmd := rfl
@[simp] theorem State.setOp_res (v : Nat) : (s.setOp v).res = s.res := rfl
@[simp] theorem State.setOp_aux (v : Nat) : (s.setOp v).aux = s.aux := rfl
@[simp] theorem State.setOp_code (v : Nat) : (s.setOp v).code = s.code := rfl
@[simp] theorem State.setOp_fatal (v : Nat) : (s.setOp v).fatal = s.fatal := rfl
@[simp] theorem State.setOp_slots (v : Nat) : (s.setOp v).slots = s.slots := rfl
@[simp] theorem State.setOp_draw (v : Nat) : (s.setOp v).draw = s.draw := rfl
@[simp] theorem State.setOp_hostOps (v : Nat) : (s.setOp v).hostOps = s.hostOps := rfl
@[simp] theorem State.setOp_portOut (v : Nat) : (s.setOp v).portOut = s.portOut := rfl

@[simp] theorem State.setCmd_cfg (w : CmdWord) : (s.setCmd w).cfg = s.cfg := rfl
@[simp] theorem State.setCmd_op (w : CmdWord) : (s.setCmd w).op = s.op := rfl
@[simp] theorem State.setCmd_cmd (w : CmdWord) : (s.setCmd w).cmd = w := rfl
@[simp] theorem State.setCmd_res (w : CmdWord) : (s.setCmd w).res = s.res := rfl
@[simp] theorem State.setCmd_aux (w : CmdWord) : (s.setCmd w).aux = s.aux := rfl
@[simp] theorem State.setCmd_code (w : CmdWord) : (s.setCmd w).code = s.code := rfl
@[simp] theorem State.setCmd_fatal (w : CmdWord) : (s.setCmd w).fatal = s.fatal := rfl
@[simp] theorem State.setCmd_slots (w : CmdWord) : (s.setCmd w).slots = s.slots := rfl
@[simp] theorem State.setCmd_draw (w : CmdWord) : (s.setCmd w).draw = s.draw := rfl
@[simp] theorem State.setCmd_hostOps (w : CmdWord) : (s.setCmd w).hostOps = s.hostOps := rfl
@[simp] theorem State.setCmd_portOut (w : CmdWord) : (s.setCmd w).portOut = s.portOut := rfl

@[simp] theorem State.setRes_cfg (v : Nat) : (s.setRes v).cfg = s.cfg := rfl
@[simp] theorem State.setRes_op (v : Nat) : (s.setRes v).op = s.op := rfl
@[simp] theorem State.setRes_cmd (v : Nat) : (s.setRes v).cmd = s.cmd := rfl
@[simp] theorem State.setRes_res (v : Nat) : (s.setRes v).res = v := rfl
@[simp] theorem State.setRes_aux (v : Nat) : (s.setRes v).aux = s.aux := rfl
@[simp] theorem State.setRes_code (v : Nat) : (s.setRes v).code = s.code := rfl
@[simp] theorem State.setRes_fatal (v : Nat) : (s.setRes v).fatal = s.fatal := rfl
@[simp] theorem State.setRes_slots (v : Nat) : (s.setRes v).slots = s.slots := rfl
@[simp] theorem State.setRes_draw (v : Nat) : (s.setRes v).draw = s.draw := rfl
@[simp] theorem State.setRes_hostOps (v : Nat) : (s.setRes v).hostOps = s.hostOps := rfl
@[simp] theorem State.setRes_portOut (v : Nat) : (s.setRes v).portOut = s.portOut := rfl

@[simp] theorem State.setAux_cfg (v : Byte) : (s.setAux v).cfg = s.cfg := rfl
@[simp] theorem State.setAux_op (v : Byte) : (s.setAux v).op = s.op := rfl
@[simp] theorem State.setAux_cmd (v : Byte) : (s.setAux v).cmd = s.cmd := rfl
@[simp] theorem State.setAux_res (v : Byte) : (s.setAux v).res = s.res := rfl
@[simp] theorem State.setAux_aux (v : Byte) : (s.setAux v).aux = v := rfl
@[simp] theorem State.setAux_code (v : Byte) : (s.setAux v).code = s.code := rfl
@[simp] theorem State.setAux_fatal (v : Byte) : (s.setAux v).fatal = s.fatal := rfl
@[simp] theorem State.setAux_slots (v : Byte) : (s.setAux v).slots = s.slots := rfl
@[simp] theorem State.setAux_draw (v : Byte) : (s.setAux v).draw = s.draw := rfl
@[simp] theorem State.setAux_hostOps (v : Byte) : (s.setAux v).hostOps = s.hostOps := rfl
@[simp] theorem State.setAux_portOut (v : Byte) : (s.setAux v).portOut = s.portOut := rfl

@[simp] theorem State.setCode_cfg (c : Code) : (s.setCode c).cfg = s.cfg := rfl
@[simp] theorem State.setCode_op (c : Code) : (s.setCode c).op = s.op := rfl
@[simp] theorem State.setCode_cmd (c : Code) : (s.setCode c).cmd = s.cmd := rfl
@[simp] theorem State.setCode_res (c : Code) : (s.setCode c).res = s.res := rfl
@[simp] theorem State.setCode_aux (c : Code) : (s.setCode c).aux = s.aux := rfl
@[simp] theorem State.setCode_code (c : Code) : (s.setCode c).code = c := rfl
@[simp] theorem State.setCode_fatal (c : Code) : (s.setCode c).fatal = s.fatal := rfl
@[simp] theorem State.setCode_slots (c : Code) : (s.setCode c).slots = s.slots := rfl
@[simp] theorem State.setCode_draw (c : Code) : (s.setCode c).draw = s.draw := rfl
@[simp] theorem State.setCode_hostOps (c : Code) : (s.setCode c).hostOps = s.hostOps := rfl
@[simp] theorem State.setCode_portOut (c : Code) : (s.setCode c).portOut = s.portOut := rfl

@[simp] theorem State.setFatal_cfg : s.setFatal.cfg = s.cfg := rfl
@[simp] theorem State.setFatal_op : s.setFatal.op = s.op := rfl
@[simp] theorem State.setFatal_cmd : s.setFatal.cmd = s.cmd := rfl
@[simp] theorem State.setFatal_res : s.setFatal.res = s.res := rfl
@[simp] theorem State.setFatal_aux : s.setFatal.aux = s.aux := rfl
@[simp] theorem State.setFatal_code : s.setFatal.code = s.code := rfl
@[simp] theorem State.setFatal_fatal : s.setFatal.fatal = true := rfl
@[simp] theorem State.setFatal_slots : s.setFatal.slots = s.slots := rfl
@[simp] theorem State.setFatal_draw : s.setFatal.draw = s.draw := rfl
@[simp] theorem State.setFatal_hostOps : s.setFatal.hostOps = s.hostOps := rfl
@[simp] theorem State.setFatal_portOut : s.setFatal.portOut = s.portOut := rfl

@[simp] theorem State.setSlot_cfg (k : Nat) (sl : Slot) : (s.setSlot k sl).cfg = s.cfg := rfl
@[simp] theorem State.setSlot_op (k : Nat) (sl : Slot) : (s.setSlot k sl).op = s.op := rfl
@[simp] theorem State.setSlot_cmd (k : Nat) (sl : Slot) : (s.setSlot k sl).cmd = s.cmd := rfl
@[simp] theorem State.setSlot_res (k : Nat) (sl : Slot) : (s.setSlot k sl).res = s.res := rfl
@[simp] theorem State.setSlot_aux (k : Nat) (sl : Slot) : (s.setSlot k sl).aux = s.aux := rfl
@[simp] theorem State.setSlot_code (k : Nat) (sl : Slot) : (s.setSlot k sl).code = s.code := rfl
@[simp] theorem State.setSlot_fatal (k : Nat) (sl : Slot) : (s.setSlot k sl).fatal = s.fatal := rfl
@[simp] theorem State.setSlot_slots (k : Nat) (sl : Slot) : (s.setSlot k sl).slots = s.slots.set k sl := rfl
@[simp] theorem State.setSlot_draw (k : Nat) (sl : Slot) : (s.setSlot k sl).draw = s.draw := rfl
@[simp] theorem State.setSlot_hostOps (k : Nat) (sl : Slot) : (s.setSlot k sl).hostOps = s.hostOps := rfl
@[simp] theorem State.setSlot_portOut (k : Nat) (sl : Slot) : (s.setSlot k sl).portOut = s.portOut := rfl

@[simp] theorem State.dequeue_cfg (r : List HostOp) : (s.dequeue r).cfg = s.cfg := rfl
@[simp] theorem State.dequeue_op (r : List HostOp) : (s.dequeue r).op = s.op := rfl
@[simp] theorem State.dequeue_cmd (r : List HostOp) : (s.dequeue r).cmd = s.cmd := rfl
@[simp] theorem State.dequeue_res (r : List HostOp) : (s.dequeue r).res = s.res := rfl
@[simp] theorem State.dequeue_aux (r : List HostOp) : (s.dequeue r).aux = s.aux := rfl
@[simp] theorem State.dequeue_code (r : List HostOp) : (s.dequeue r).code = s.code := rfl
@[simp] theorem State.dequeue_fatal (r : List HostOp) : (s.dequeue r).fatal = s.fatal := rfl
@[simp] theorem State.dequeue_slots (r : List HostOp) : (s.dequeue r).slots = s.slots := rfl
@[simp] theorem State.dequeue_draw (r : List HostOp) : (s.dequeue r).draw = s.draw := rfl
@[simp] theorem State.dequeue_hostOps (r : List HostOp) : (s.dequeue r).hostOps = r := rfl
@[simp] theorem State.dequeue_portOut (r : List HostOp) : (s.dequeue r).portOut = none := rfl

@[simp] theorem State.setPortOut_cfg (v : Nat) : (s.setPortOut v).cfg = s.cfg := rfl
@[simp] theorem State.setPortOut_op (v : Nat) : (s.setPortOut v).op = s.op := rfl
@[simp] theorem State.setPortOut_cmd (v : Nat) : (s.setPortOut v).cmd = s.cmd := rfl
@[simp] theorem State.setPortOut_res (v : Nat) : (s.setPortOut v).res = s.res := rfl
@[simp] theorem State.setPortOut_aux (v : Nat) : (s.setPortOut v).aux = s.aux := rfl
@[simp] theorem State.setPortOut_code (v : Nat) : (s.setPortOut v).code = s.code := rfl
@[simp] theorem State.setPortOut_fatal (v : Nat) : (s.setPortOut v).fatal = s.fatal := rfl
@[simp] theorem State.setPortOut_slots (v : Nat) : (s.setPortOut v).slots = s.slots := rfl
@[simp] theorem State.setPortOut_draw (v : Nat) : (s.setPortOut v).draw = s.draw := rfl
@[simp] theorem State.setPortOut_hostOps (v : Nat) : (s.setPortOut v).hostOps = s.hostOps := rfl
@[simp] theorem State.setPortOut_portOut (v : Nat) : (s.setPortOut v).portOut = some v := rfl

@[simp] theorem State.slot_setOp (v : Nat) (j : Nat) : (s.setOp v).slot j = s.slot j := rfl
@[simp] theorem State.slot_setCmd (w : CmdWord) (j : Nat) : (s.setCmd w).slot j = s.slot j := rfl
@[simp] theorem State.slot_setRes (v : Nat) (j : Nat) : (s.setRes v).slot j = s.slot j := rfl
@[simp] theorem State.slot_setAux (v : Byte) (j : Nat) : (s.setAux v).slot j = s.slot j := rfl
@[simp] theorem State.slot_setCode (c : Code) (j : Nat) : (s.setCode c).slot j = s.slot j := rfl
@[simp] theorem State.slot_setFatal (j : Nat) : s.setFatal.slot j = s.slot j := rfl
@[simp] theorem State.slot_dequeue (r : List HostOp) (j : Nat) : (s.dequeue r).slot j = s.slot j := rfl
@[simp] theorem State.slot_setPortOut (v : Nat) (j : Nat) : (s.setPortOut v).slot j = s.slot j := rfl

@[simp] theorem ramWrite_cfg (k off : Nat) (v : Byte) : (ramWrite s k off v).cfg = s.cfg := rfl
@[simp] theorem ramWrite_op (k off : Nat) (v : Byte) : (ramWrite s k off v).op = s.op := rfl
@[simp] theorem ramWrite_cmd (k off : Nat) (v : Byte) : (ramWrite s k off v).cmd = s.cmd := rfl
@[simp] theorem ramWrite_res (k off : Nat) (v : Byte) : (ramWrite s k off v).res = s.res := rfl
@[simp] theorem ramWrite_aux (k off : Nat) (v : Byte) : (ramWrite s k off v).aux = s.aux := rfl
@[simp] theorem ramWrite_code (k off : Nat) (v : Byte) : (ramWrite s k off v).code = s.code := rfl
@[simp] theorem ramWrite_fatal (k off : Nat) (v : Byte) : (ramWrite s k off v).fatal = s.fatal := rfl
@[simp] theorem ramWrite_draw (k off : Nat) (v : Byte) : (ramWrite s k off v).draw = s.draw := rfl
@[simp] theorem ramWrite_hostOps (k off : Nat) (v : Byte) : (ramWrite s k off v).hostOps = s.hostOps := rfl
@[simp] theorem ramWrite_portOut (k off : Nat) (v : Byte) : (ramWrite s k off v).portOut = s.portOut := rfl

@[simp] theorem ramRead_setOp (v : Nat) (k off : Nat) : ramRead (s.setOp v) k off = ramRead s k off := rfl
@[simp] theorem ramRead_setCmd (w : CmdWord) (k off : Nat) : ramRead (s.setCmd w) k off = ramRead s k off := rfl
@[simp] theorem ramRead_setRes (v : Nat) (k off : Nat) : ramRead (s.setRes v) k off = ramRead s k off := rfl
@[simp] theorem ramRead_setAux (v : Byte) (k off : Nat) : ramRead (s.setAux v) k off = ramRead s k off := rfl
@[simp] theorem ramRead_setCode (c : Code) (k off : Nat) : ramRead (s.setCode c) k off = ramRead s k off := rfl
@[simp] theorem ramRead_setFatal (k off : Nat) : ramRead s.setFatal k off = ramRead s k off := rfl
@[simp] theorem ramRead_dequeue (r : List HostOp) (k off : Nat) : ramRead (s.dequeue r) k off = ramRead s k off := rfl
@[simp] theorem ramRead_setPortOut (v : Nat) (k off : Nat) : ramRead (s.setPortOut v) k off = ramRead s k off := rfl

end Sys2Proof.Machine
end

