-- ==== Sys2Proof/Laws/Ram.lean ====
section
/-! SUPPORT. What a write of a slot field, of a RAM byte, of a bit does to every later read, and what tail normalisation
does (41_buffer.md R128, R130). Later proofs cite these and never unfold the operations. -/

namespace Sys2Proof.Machine

/-! ### Slots -/

theorem State.slot_setSlot (s : State) (k : Nat) (sl : Slot) (j : Nat) :
    (s.setSlot k sl).slot j = if j = k ∧ k < s.slots.length then sl else s.slot j := by
  simp only [State.slot, State.setSlot, List.getD_eq_getElem?_getD, List.getElem?_set]
  grind

theorem State.slot_of_length_le {s : State} {k : Nat} (h : s.slots.length ≤ k) : s.slot k = Slot.vacant := by
  simp [State.slot, List.getD_eq_getElem?_getD, h]

theorem State.lt_length_of_valid {s : State} {k : Nat} (h : (s.slot k).valid = true) : k < s.slots.length := by
  by_contra hk
  rw [State.slot_of_length_le (Nat.le_of_not_lt hk)] at h
  cases h

theorem State.slot_mem {s : State} {k : Nat} (h : k < s.slots.length) : s.slot k ∈ s.slots := by
  simp [State.slot, List.getD_eq_getElem?_getD, h]

/-- A well-formed state's slots are well formed, the numbers without a slot included. -/
theorem State.wf.slot {s : State} (h : s.wf) (k : Nat) : (s.slot k).wf s.cfg := by
  by_cases hk : k < s.slots.length
  · exact h.2.2.2.2 _ (State.slot_mem hk)
  · rw [State.slot_of_length_le (Nat.le_of_not_lt hk)]
    exact ⟨Nat.zero_le _, Memory.wf_nil _⟩

/-- Replacing a slot by a well-formed one keeps the state well formed. -/
theorem State.wf.setSlot {s : State} (h : s.wf) (k : Nat) {sl : Slot} (hsl : sl.wf s.cfg) : (s.setSlot k sl).wf := by
  refine ⟨h.1, h.2.1, h.2.2.1, by simpa [State.setSlot] using h.2.2.2.1, fun x hx => ?_⟩
  rcases List.mem_or_eq_of_mem_set hx with hx | rfl
  · exact h.2.2.2.2 x hx
  · exact hsl

/-! ### States that differ in RAM bytes only -/

theorem ramOnly.refl (s : State) : ramOnly s s := ⟨rfl, rfl, fun _ => ⟨rfl, rfl, rfl⟩⟩

theorem ramOnly.trans {s t u : State} (h : ramOnly s t) (h' : ramOnly t u) : ramOnly s u := by
  obtain ⟨h1, h2, h3⟩ := h
  obtain ⟨h1', h2', h3'⟩ := h'
  refine ⟨by rw [h1', h1], h2'.trans h2, fun k => ?_⟩
  obtain ⟨a, b, c⟩ := h3 k
  obtain ⟨a', b', c'⟩ := h3' k
  exact ⟨a'.trans a, b'.trans b, c'.trans c⟩

/-- `t` has every field of `s` but `slots`. -/
theorem ramOnly.eq {s t : State} (h : ramOnly s t) : t = { s with slots := t.slots } := h.1

theorem ramOnly.bytesUsed {s t : State} (h : ramOnly s t) (k : Nat) : bytesUsed t k = bytesUsed s k := by
  simp [Machine.bytesUsed, (h.2.2 k).1]

theorem ramWrite_ramOnly (s : State) (k off : Nat) (v : Byte) : ramOnly s (ramWrite s k off v) := by
  refine ⟨rfl, by simp [ramWrite, State.setSlot], fun j => ?_⟩
  simp only [ramWrite, State.slot_setSlot]
  split
  · rename_i h; simp [h.1]
  · exact ⟨rfl, rfl, rfl⟩

/-! ### RAM bytes -/

/-- A RAM byte read returns the last value written to that offset of that slot (20_memory.md R62). -/
theorem ramRead_ramWrite {s : State} {k : Nat} (hk : k < s.slots.length) (off : Nat) (v : Byte) (j o : Nat) :
    ramRead (ramWrite s k off v) j o = if j = k ∧ o = off then v else ramRead s j o := by
  unfold ramRead
  rw [ramWrite_draw]
  simp only [ramWrite, State.slot_setSlot, hk, and_true]
  by_cases hj : j = k
  · simp only [hj, if_true, true_and, Memory.lookup_store]
    split <;> rename_i h <;> split at h <;> simp_all
  · simp [hj]

theorem ramWrite_wf {s : State} (h : s.wf) (k : Nat) {off : Nat} (hoff : off < s.cfg.capBytes) (v : Byte) :
    (ramWrite s k off v).wf :=
  h.setSlot k ⟨(h.slot k).1, Memory.store_wf v (h.slot k).2 hoff⟩

/-! ### Single bits -/

theorem bitMask_eq (e : Endian) (i : Nat) : bitMask e i = 1#8 <<< bitPos e i := by
  cases e <;> rfl

theorem bitPos_lt (e : Endian) (i : Nat) : bitPos e i < 8 := by
  cases e <;> simp only [bitPos] <;> omega

/-- Bits of one byte are at distinct positions. -/
theorem bitPos_inj {e : Endian} {i j : Nat} (h : i / 8 = j / 8) (hp : bitPos e i = bitPos e j) : i = j := by
  cases e <;> simp only [bitPos] at hp <;> omega

theorem bitMask_getLsbD (e : Endian) (i b : Nat) : (bitMask e i).getLsbD b = decide (b = bitPos e i) := by
  have := bitPos_lt e i
  rw [bitMask_eq]
  simp only [BitVec.getLsbD_shiftLeft, BitVec.getLsbD_one]
  grind

theorem byte_and_mask_ne_zero (b : Byte) {p : Nat} (hp : p < 8) : (b &&& 1#8 <<< p != 0#8) = b.getLsbD p := by
  rw [← BitVec.twoPow_eq, BitVec.and_twoPow]
  by_cases h : b.getLsbD p
  · simp only [h, if_true, bne_iff_ne, ne_eq]
    intro h0
    have := congrArg (fun x : Byte => x.getLsbD p) h0
    simp [hp] at this
  · simp [h]

/-- `BitRead` reads the bit of index `i` (40_bit_addressing.md R105). -/
theorem bitRead_eq_bitAt (s : State) (k i : Nat) : bitRead s k i = bitAt s k i := by
  rw [bitRead, bitMask_eq, byte_and_mask_ne_zero _ (bitPos_lt _ _)]
  rfl

theorem bitPut_getLsbD (old : Byte) (e : Endian) (i : Nat) (v : Bool) (b : Nat) (hb : b < 8) :
    (bitPut old (bitMask e i) v).getLsbD b = if b = bitPos e i then v else old.getLsbD b := by
  cases v <;> simp only [bitPut, if_true, Bool.false_eq_true, if_false, BitVec.getLsbD_or, BitVec.getLsbD_and,
    BitVec.getLsbD_not, bitMask_getLsbD] <;> grind

/-- `BitWrite` changes exactly the one addressed bit (40_bit_addressing.md R105). -/
theorem ramRead_bitWrite {s : State} {k : Nat} (hk : k < s.slots.length) (i : Nat) (v : Bool) (j o b : Nat)
    (hb : b < 8) :
    (ramRead (bitWrite s k i v) j o).getLsbD b =
      if j = k ∧ o = i / 8 ∧ b = bitPos (s.slot k).endian i then v else (ramRead s j o).getLsbD b := by
  simp only [bitWrite, byteIndex, ramRead_ramWrite hk]
  by_cases h : j = k ∧ o = i / 8
  · obtain ⟨rfl, rfl⟩ := h
    simp only [and_self, if_true, bitPut_getLsbD _ _ _ _ _ hb, true_and]
  · rw [if_neg h, if_neg (fun h' => h ⟨h'.1, h'.2.1⟩)]

theorem bitWrite_ramOnly (s : State) (k i : Nat) (v : Bool) : ramOnly s (bitWrite s k i v) :=
  ramWrite_ramOnly _ _ _ _

/-! ### Tail normalisation -/

theorem clearBits_ramOnly (k n i : Nat) (s : State) : ramOnly s (clearBits k n i s) := by
  induction n generalizing i s with
  | zero => exact ramOnly.refl s
  | succ n ih => exact (bitWrite_ramOnly s k i false).trans (ih (i + 1) _)

/-- `clearBits` clears the bits `i .. i+n-1` of slot `k` and no other. -/
theorem ramRead_clearBits {k : Nat} (n i : Nat) {s : State} (hk : k < s.slots.length) (j o b : Nat) (hb : b < 8) :
    (ramRead (clearBits k n i s) j o).getLsbD b = true ↔
      (ramRead s j o).getLsbD b = true ∧
        ¬(j = k ∧ ∃ x, i ≤ x ∧ x < i + n ∧ o = x / 8 ∧ b = bitPos (s.slot k).endian x) := by
  induction n generalizing i s with
  | zero => simp [clearBits]; grind
  | succ n ih =>
    have hro := bitWrite_ramOnly s k i false
    rw [clearBits, ih (i + 1) (by rw [hro.2.1]; exact hk), ramRead_bitWrite hk i false j o b hb, (hro.2.2 k).2.1]
    have split : (∃ x, i ≤ x ∧ x < i + (n + 1) ∧ o = x / 8 ∧ b = bitPos (s.slot k).endian x) ↔
        (o = i / 8 ∧ b = bitPos (s.slot k).endian i) ∨
          ∃ x, i + 1 ≤ x ∧ x < i + 1 + n ∧ o = x / 8 ∧ b = bitPos (s.slot k).endian x := by
      constructor
      · rintro ⟨x, h1, h2, h3⟩
        rcases Nat.eq_or_lt_of_le h1 with rfl | h
        · exact .inl h3
        · exact .inr ⟨x, h, by omega, h3⟩
      · rintro (h | ⟨x, h1, h2, h3⟩)
        · exact ⟨i, by omega, by omega, h⟩
        · exact ⟨x, by omega, by omega, h3⟩
    rw [split]
    grind

theorem bytesForBits_eq (n : Nat) : bytesForBits n = (n + 7) / 8 := by
  unfold bytesForBits; split <;> omega

theorem normalize_ramOnly (k : Nat) (s : State) : ramOnly s (normalize k s) := clearBits_ramOnly _ _ _ _

theorem keepMask_getLsbD (e : Endian) {r : Nat} (hr : r < 8) (h0 : r ≠ 0) {b : Nat} (hb : b < 8) :
    (keepMask e r).getLsbD b = decide (bitPos e b < r) := by
  have hrs : r = 1 ∨ r = 2 ∨ r = 3 ∨ r = 4 ∨ r = 5 ∨ r = 6 ∨ r = 7 := by omega
  have hbs : b = 0 ∨ b = 1 ∨ b = 2 ∨ b = 3 ∨ b = 4 ∨ b = 5 ∨ b = 6 ∨ b = 7 := by omega
  cases e <;> rcases hrs with rfl | rfl | rfl | rfl | rfl | rfl | rfl <;>
    rcases hbs with rfl | rfl | rfl | rfl | rfl | rfl | rfl | rfl <;> rfl

/-- The positions of a byte, listed by either endianness, are each other's mirror. -/
theorem bitPos_bitPos (e : Endian) {b : Nat} (hb : b < 8) (q : Nat) : bitPos e (8 * q + bitPos e b) = b := by
  cases e <;> simp only [bitPos] <;> omega

/-- `Normalize` bit by bit: it clears the positions of a partial final byte beyond the logical bits. -/
theorem ramRead_normalize_bit {s : State} {k : Nat} (hk : k < s.slots.length) (j o b : Nat) (hb : b < 8) :
    (ramRead (normalize k s) j o).getLsbD b = true ↔
      (ramRead s j o).getLsbD b = true ∧
        ¬(j = k ∧ partialByte s k o ∧ (s.slot k).len % 8 ≤ bitPos (s.slot k).endian b) := by
  rw [normalize, ramRead_clearBits _ _ hk j o b hb]
  refine and_congr_right' (not_congr (and_congr_right' ?_))
  simp only [bytesUsed, bytesForBits_eq]
  have hp := bitPos_lt (s.slot k).endian b
  constructor
  · rintro ⟨x, h1, h2, rfl, rfl⟩
    have : bitPos (s.slot k).endian (bitPos (s.slot k).endian x) = x % 8 := by
      cases (s.slot k).endian <;> simp only [bitPos] <;> omega
    rw [this]
    omega
  · rintro ⟨⟨h1, rfl⟩, h2⟩
    exact ⟨8 * ((s.slot k).len / 8) + bitPos (s.slot k).endian b, by omega, by omega, by omega,
      (bitPos_bitPos _ hb _).symm⟩

/-- `Normalize` in closed form (41_buffer.md R130). -/
theorem normalize_paddingCleared {s : State} {k : Nat} (hk : k < s.slots.length) :
    paddingCleared [k] s (normalize k s) := by
  refine ⟨normalize_ramOnly k s, fun j o => ⟨?_, fun h => ?_⟩⟩
  · rintro ⟨hj, hp⟩
    obtain rfl : j = k := by simpa using hj
    refine BitVec.eq_of_getLsbD_eq fun b hb => Bool.eq_iff_iff.2 ?_
    rw [ramRead_normalize_bit hk j o b hb, BitVec.getLsbD_and, keepMask_getLsbD _ (by omega) hp.1 hb]
    simp [hp.1, hp.2]
  · refine BitVec.eq_of_getLsbD_eq fun b hb => Bool.eq_iff_iff.2 ?_
    rw [ramRead_normalize_bit hk j o b hb]
    refine and_iff_left fun h' => h ⟨by simp [h'.1], h'.1 ▸ h'.2.1⟩

end Sys2Proof.Machine
end

