-- ==== Sys2Proof/Laws/Padding.lean ====
section
/-! SUPPORT. What cleared padding does to the bits of a buffer: the logical bits stay, the padding bits are 0
(41_buffer.md R128). -/

namespace Sys2Proof.Machine

theorem partialByte_iff {s : State} {k off : Nat} :
    partialByte s k off ↔ (s.slot k).len < 8 * bytesUsed s k ∧ off + 1 = bytesUsed s k := by
  simp only [bytesUsed, bytesForBits_eq, partialByte]; omega

/-- Bit `x mod 8` of a byte, seen through the endianness, is bit index `x`. -/
theorem bitPos_mod (e : Endian) (x : Nat) : bitPos e (x % 8) = bitPos e x := by
  cases e <;> simp only [bitPos] <;> omega

theorem bitPos_invol (e : Endian) (x : Nat) : bitPos e (bitPos e x) = x % 8 := by
  cases e <;> simp only [bitPos] <;> omega

/-- A byte of `t` in terms of the same byte of `s`, bit by bit. -/
theorem paddingCleared.bit {ks : List Nat} {s t : State} (h : paddingCleared ks s t) (k o b : Nat) (hb : b < 8) :
    (ramRead t k o).getLsbD b = true ↔ (ramRead s k o).getLsbD b = true ∧
      ¬(k ∈ ks ∧ partialByte s k o ∧ (s.slot k).len % 8 ≤ bitPos (s.slot k).endian b) := by
  by_cases hp : k ∈ ks ∧ partialByte s k o
  · rw [(h.2 k o).1 hp, BitVec.getLsbD_and, keepMask_getLsbD _ (by omega) hp.2.1 hb]
    simp [hp.1, hp.2.1, hp.2.2]
  · rw [(h.2 k o).2 hp]
    exact (and_iff_left fun h' => hp ⟨h'.1, h'.2.1⟩).symm

theorem paddingCleared.bitAt_iff {ks : List Nat} {s t : State} (h : paddingCleared ks s t) (k i : Nat) :
    bitAt t k i = true ↔ bitAt s k i = true ∧ ¬(k ∈ ks ∧ (s.slot k).len ≤ i ∧ i < 8 * bytesUsed s k) := by
  unfold bitAt
  rw [(h.1.2.2 k).2.1, h.bit k _ _ (bitPos_lt _ _), bitPos_invol]
  refine and_congr_right' (not_congr (and_congr_right' ?_))
  simp only [partialByte, bytesUsed, bytesForBits_eq]
  omega

/-- Logical bits stay. -/
theorem paddingCleared.bitAt_logical {ks : List Nat} {s t : State} (h : paddingCleared ks s t) {k i : Nat}
    (hi : i < (s.slot k).len) : bitAt t k i = bitAt s k i := by
  rw [Bool.eq_iff_iff, h.bitAt_iff]
  exact and_iff_left fun h' => absurd h'.2.1 (Nat.not_le.2 hi)

/-- Padding bits are 0. -/
theorem paddingCleared.bitAt_padding {ks : List Nat} {s t : State} (h : paddingCleared ks s t) {k i : Nat}
    (hk : k ∈ ks) (hi : (s.slot k).len ≤ i) (hi' : i < 8 * bytesUsed s k) : bitAt t k i = false := by
  rw [Bool.eq_false_iff, ne_eq, h.bitAt_iff]
  exact fun h' => h'.2 ⟨hk, hi, hi'⟩

/-- Clearing the padding of one list of slots, then of another. -/
theorem paddingCleared.append {ks ks' : List Nat} {s t u : State} (h : paddingCleared ks s t)
    (h' : paddingCleared ks' t u) : paddingCleared (ks ++ ks') s u := by
  have hro := h.1
  refine ⟨hro.trans h'.1, fun k o => ?_⟩
  have key : ∀ b, b < 8 → ((ramRead u k o).getLsbD b = true ↔ (ramRead s k o).getLsbD b = true ∧
      ¬(k ∈ ks ++ ks' ∧ partialByte s k o ∧ (s.slot k).len % 8 ≤ bitPos (s.slot k).endian b)) := by
    intro b hb
    rw [h'.bit k o b hb, h.bit k o b hb, List.mem_append]
    simp only [partialByte, (hro.2.2 k).1, (hro.2.2 k).2.1]
    grind
  constructor
  · rintro ⟨hm, hp⟩
    refine BitVec.eq_of_getLsbD_eq fun b hb => Bool.eq_iff_iff.2 ?_
    rw [key b hb, BitVec.getLsbD_and, keepMask_getLsbD _ (by omega) hp.1 hb]
    simp [hm, hp]
  · intro hn
    refine BitVec.eq_of_getLsbD_eq fun b hb => Bool.eq_iff_iff.2 ?_
    rw [key b hb]
    exact and_iff_left fun h'' => hn ⟨h''.1, h''.2.1⟩

theorem normalizePair_paddingCleared {s : State} {ka kb : Nat} (ha : ka < s.slots.length) (hb : kb < s.slots.length) :
    paddingCleared [ka, kb] s (normalizePair ka kb s) :=
  (normalize_paddingCleared ha).append
    (normalize_paddingCleared (by rw [(normalize_ramOnly ka s).2.1]; exact hb))

theorem bitWrite_wf {s : State} (h : s.wf) (k : Nat) {i : Nat} (hi : i < maxBits s.cfg) (v : Bool) :
    (bitWrite s k i v).wf :=
  ramWrite_wf h k (by simp only [byteIndex, maxBits] at *; omega) _

theorem clearBits_wf {k : Nat} (n i : Nat) {s : State} (h : s.wf) (hi : i + n ≤ maxBits s.cfg) :
    (clearBits k n i s).wf := by
  induction n generalizing i s with
  | zero => exact h
  | succ n ih =>
    refine ih (i + 1) (bitWrite_wf h k (by omega) false) ?_
    rw [show (bitWrite s k i false).cfg = s.cfg from rfl]; omega

theorem normalize_wf {s : State} (h : s.wf) (k : Nat) : (normalize k s).wf := by
  refine clearBits_wf _ _ h ?_
  have := (h.slot k).1
  simp only [maxBits, bytesUsed, bytesForBits_eq] at *
  omega

theorem normalizePair_wf {s : State} (h : s.wf) (ka kb : Nat) : (normalizePair ka kb s).wf :=
  normalize_wf (normalize_wf h ka) kb

end Sys2Proof.Machine
end

