-- ==== Sys2Proof/Laws/Count.lean ====
section
/-! SUPPORT. Table-driven counting counts bits: `POPCOUNT` of a byte, `BlockSum` of bytes, and `cnt` of 43_search.md R150. -/

namespace Sys2Proof.Machine

theorem div_two_pow_mod_two (b : Byte) (j : Nat) : b.toNat / 2 ^ j % 2 = (b.getLsbD j).toNat := by
  rw [BitVec.getLsbD, Nat.testBit_eq_decide_div_mod_eq]
  rcases Nat.mod_two_eq_zero_or_one (b.toNat / 2 ^ j) with h | h <;> simp [h]

theorem length_filter_eq_sum {α : Type} (p : α → Bool) (l : List α) :
    (l.filter p).length = (l.map fun x => (p x).toNat).sum := by
  induction l with
  | nil => rfl
  | cons a l ih => cases h : p a <;> simp [h, ih]; omega

/-- `POPCOUNT` counts the set bits of a byte, in the order of either endianness (42_popcount.md R140). -/
theorem popcount_eq (b : Byte) (e : Endian) :
    popcount b = ((List.range 8).filter fun x => b.getLsbD (bitPos e x)).length := by
  rw [length_filter_eq_sum]
  simp only [popcount, div_two_pow_mod_two, show List.range 8 = [0, 1, 2, 3, 4, 5, 6, 7] from rfl, List.map_cons,
    List.map_nil, List.sum_cons, List.sum_nil]
  cases e
  · rfl
  · simp only [bitPos, Nat.reduceMod, Nat.reduceSub]; omega

theorem popcount_le (b : Byte) : popcount b ≤ 8 := by
  rw [popcount_eq b .little]
  exact (List.length_filter_le _ _).trans (by simp)

theorem filter_range_add (p : Nat → Bool) (a n : Nat) :
    ((List.range (a + n)).filter p).length =
      ((List.range a).filter p).length + ((List.range n).filter fun x => p (a + x)).length := by
  rw [List.range_add, List.filter_append, List.length_append, List.filter_map, List.length_map]
  rfl

@[simp] theorem cnt_zero (s : State) (k : Nat) : cnt s k 0 = 0 := rfl

theorem cnt_succ (s : State) (k i : Nat) : cnt s k (i + 1) = cnt s k i + (bitAt s k i).toNat := by
  rw [cnt, cnt, filter_range_add]
  cases h : bitAt s k i <;> simp [List.range_succ, h]

theorem cnt_le (s : State) (k i : Nat) : cnt s k i ≤ i :=
  (List.length_filter_le _ _).trans (by simp)

theorem cnt_mono (s : State) (k : Nat) {i j : Nat} (h : i ≤ j) : cnt s k i ≤ cnt s k j := by
  obtain ⟨n, rfl⟩ := Nat.exists_eq_add_of_le h
  rw [cnt, cnt, filter_range_add]
  omega

/-- The bits of byte `q` are the bit indices `8q .. 8q+7`. -/
theorem bitAt_byte (s : State) (k q x : Nat) (hx : x < 8) :
    bitAt s k (8 * q + x) = (ramRead s k q).getLsbD (bitPos (s.slot k).endian x) := by
  rw [bitAt, show (8 * q + x) / 8 = q by omega, ← bitPos_mod, show (8 * q + x) % 8 = x by omega]

theorem cnt_byte (s : State) (k q : Nat) : cnt s k (8 * q + 8) = cnt s k (8 * q) + popcount (ramRead s k q) := by
  rw [popcount_eq _ (s.slot k).endian, cnt, filter_range_add]
  congr 2
  exact List.filter_congr fun x hx => bitAt_byte s k q x (List.mem_range.1 hx)

theorem cnt_sumBytes (s : State) (k n q : Nat) : cnt s k (8 * (q + n)) = cnt s k (8 * q) + sumBytes s k n q := by
  induction n generalizing q with
  | zero => simp [sumBytes]
  | succ n ih =>
    have h1 := cnt_byte s k q
    have h2 := ih (q + 1)
    rw [show q + 1 + n = q + (n + 1) by omega] at h2
    rw [sumBytes, h2, show 8 * (q + 1) = 8 * q + 8 by omega, h1, Nat.add_assoc]

/-- `BlockSum` is the number of set bits of its bytes (42_popcount.md R142). -/
theorem cnt_blockSum (s : State) (k : Nat) {lo hi : Nat} (h : lo ≤ hi) :
    cnt s k (8 * hi) = cnt s k (8 * lo) + blockSum s k lo hi := by
  rw [blockSum, ← cnt_sumBytes, show lo + (hi - lo) = hi by omega]

theorem sumBytes_eq_sum (s : State) (k n q : Nat) :
    sumBytes s k n q = ((List.range n).map fun x => popcount (ramRead s k (q + x))).sum := by
  induction n generalizing q with
  | zero => rfl
  | succ n ih =>
    rw [sumBytes, ih, List.range_succ_eq_map, List.map_cons, List.sum_cons, List.map_map]
    simp only [Nat.add_zero, Function.comp_def, Nat.add_succ, Nat.succ_add]

theorem cnt_congr {s t : State} {k i : Nat} (h : ∀ x, x < i → bitAt t k x = bitAt s k x) : cnt t k i = cnt s k i := by
  unfold cnt
  congr 1
  exact List.filter_congr fun x hx => h x (List.mem_range.1 hx)

/-- Clearing padding changes no count of logical bits. -/
theorem paddingCleared.cnt {ks : List Nat} {s t : State} (h : paddingCleared ks s t) {k i : Nat}
    (hi : i ≤ (s.slot k).len) : cnt t k i = Machine.cnt s k i :=
  cnt_congr fun _ hx => h.bitAt_logical (Nat.lt_of_lt_of_le hx hi)

/-- `count_bits` counts the logical bits (42_popcount.md R143). -/
theorem paddingCleared.blockSum {ks : List Nat} {s t : State} (h : paddingCleared ks s t) {k : Nat} (hk : k ∈ ks) :
    blockSum t k 0 (bytesUsed s k) = Machine.cnt s k (s.slot k).len := by
  have h1 := cnt_blockSum t k (Nat.zero_le (bytesUsed s k))
  rw [Nat.mul_zero, cnt_zero, Nat.zero_add] at h1
  rw [← h1, ← h.cnt (Nat.le_refl _)]
  have hle : (s.slot k).len ≤ 8 * bytesUsed s k := by simp only [bytesUsed, bytesForBits_eq]; omega
  obtain ⟨n, hn⟩ := Nat.exists_eq_add_of_le hle
  rw [hn, Machine.cnt, filter_range_add, Machine.cnt]
  suffices ((List.range n).filter fun x => bitAt t k ((s.slot k).len + x)) = [] by rw [this]; rfl
  refine List.filter_eq_nil_iff.2 fun x hx => ?_
  have := List.mem_range.1 hx
  rw [h.bitAt_padding hk (by omega) (by omega)]
  simp

end Sys2Proof.Machine
end

