-- ==== Sys2Proof/Laws/Decode.lean ====
section
/-! SUPPORT. The decoder as one test over the table (30_encoding.md R73), and the fields of an assembled word. -/

namespace Sys2Proof

/-! ### The decoder -/

theorem opcField_and (w m : CmdWord) : opcField (w &&& m) = opcField w &&& opcField m :=
  BitVec.extractLsb'_and

/-- No two rows share an opcode, so a row is found by its own opcode. -/
theorem opcodeTable_find {r : Row} (h : r ∈ opcodeTable) :
    opcodeTable.find? (fun r' => opcField r'.mtch == opcField r.mtch) = some r := by
  simp only [opcodeTable, List.mem_cons, List.not_mem_nil, or_false] at h
  rcases h with rfl | rfl | rfl | rfl | rfl | rfl | rfl | rfl | rfl | rfl | rfl | rfl | rfl | rfl | rfl | rfl | rfl |
    rfl | rfl | rfl <;> rfl

/-- Every row fixes the eight opcode bits. -/
theorem opcField_mask {r : Row} (h : r ∈ opcodeTable) : opcField r.mask = 0xFF#8 := by
  simp only [opcodeTable, List.mem_cons, List.not_mem_nil, or_false] at h
  rcases h with rfl | rfl | rfl | rfl | rfl | rfl | rfl | rfl | rfl | rfl | rfl | rfl | rfl | rfl | rfl | rfl | rfl |
    rfl | rfl | rfl <;> rfl

theorem opcField_of_match {r : Row} (h : r ∈ opcodeTable) {w : CmdWord} (hw : w &&& r.mask = r.mtch) :
    opcField r.mtch = opcField w := by
  rw [← hw, opcField_and, opcField_mask h]
  exact BitVec.and_allOnes

/-- A word decodes to the command of the one row whose mask and match it has (30_encoding.md R73). -/
theorem decode_of_row {r : Row} (h : r ∈ opcodeTable) {w : CmdWord} (hw : w &&& r.mask = r.mtch) :
    decode w = .ok (r.make w) := by
  rw [decode, ← opcField_of_match h hw, opcodeTable_find h]
  exact if_pos hw

theorem decode_eq_ok_iff {w : CmdWord} {i : Instr} :
    decode w = .ok i ↔ ∃ r ∈ opcodeTable, w &&& r.mask = r.mtch ∧ i = r.make w := by
  constructor
  · intro h
    unfold decode at h
    split at h
    · cases h
    · rename_i r hr
      split at h
      · rename_i hw
        cases h
        exact ⟨r, List.mem_of_find?_eq_some hr, hw, rfl⟩
      · cases h
  · rintro ⟨r, hr, hw, rfl⟩
    exact decode_of_row hr hw

/-- Two rows that match one word are one row: their opcodes are the word's. -/
theorem row_unique {r r' : Row} (h : r ∈ opcodeTable) (h' : r' ∈ opcodeTable) {w : CmdWord}
    (hw : w &&& r.mask = r.mtch) (hw' : w &&& r'.mask = r'.mtch) : r = r' := by
  have e := opcodeTable_find h
  rw [opcField_of_match h hw, ← opcField_of_match h' hw', opcodeTable_find h'] at e
  exact (Option.some.inj e).symm

/-! ### The fields of an assembled word -/

theorem getLsbD_ofNat_field {n : Nat} (h : n < 16) {j : Nat} (hj : j < 32) :
    (BitVec.ofNat 32 n).getLsbD j = (n.testBit j && decide (j < 4)) := by
  rw [BitVec.getLsbD_ofNat]
  rcases Nat.lt_or_ge j 4 with h4 | h4
  · simp [hj, h4]
  · have : n.testBit j = false :=
      Nat.testBit_lt_two_pow (Nat.lt_of_lt_of_le h (Nat.pow_le_pow_right (by omega) h4 : 2 ^ 4 ≤ 2 ^ j))
    simp [this]

theorem getLsbD_eBit (e : Endian) (j : Nat) : (eBit e).getLsbD j = (decide (j = 0) && decide (e = .big)) := by
  cases e
  · simp [eBit]
  · rw [eBit, show (1 : CmdWord) = 1#32 from rfl, BitVec.getLsbD_one]; simp

theorem getLsbD_vBit (v : Bool) (j : Nat) : (vBit v).getLsbD j = (decide (j = 0) && v) := by
  cases v
  · simp [vBit]
  · rw [vBit, show (1 : CmdWord) = 1#32 from rfl, BitVec.getLsbD_one]; simp

/-- Every bit of an assembled word (30_encoding.md R71, R80). -/
theorem assemble_getLsbD (m : CmdWord) {ba bb : Nat} (ha : ba < 16) (hb : bb < 16) (e : Endian) (v : Bool) (imm : Byte)
    {j : Nat} (hj : j < 32) :
    (assemble m ba bb e v imm).getLsbD j =
      (m.getLsbD j || (decide (8 ≤ j ∧ j < 12) && ba.testBit (j - 8)) ||
        (decide (12 ≤ j ∧ j < 16) && bb.testBit (j - 12)) || (decide (j = 16) && decide (e = .big)) ||
        (decide (j = 17) && v) || (decide (24 ≤ j) && imm.getLsbD (j - 24))) := by
  simp only [assemble, BitVec.getLsbD_or, BitVec.getLsbD_shiftLeft, getLsbD_eBit, getLsbD_vBit,
    BitVec.getLsbD_setWidth, getLsbD_ofNat_field ha (show j - 8 < 32 by omega),
    getLsbD_ofNat_field hb (show j - 12 < 32 by omega)]
  have h1 : (8 ≤ j ∧ j < 12) ↔ (j < 32 ∧ ¬j < 8 ∧ j - 8 < 4) := by omega
  have h2 : (12 ≤ j ∧ j < 16) ↔ (j < 32 ∧ ¬j < 12 ∧ j - 12 < 4) := by omega
  have h3 : j = 16 ↔ (¬j < 16 ∧ j - 16 = 0) := by omega
  have h4 : j = 17 ↔ (¬j < 17 ∧ j - 17 = 0) := by omega
  simp only [h1, h2, h3, h4, hj, Bool.decide_and, decide_true, decide_not, Bool.true_and]
  have h6 : decide (24 ≤ j) = !decide (j < 24) := by by_cases h : j < 24 <;> simp [h]; omega
  rw [h6, show decide (j - 24 < 32) = true by simp; omega]
  grind

/-- An opcode leaves the fields above it clear. -/
theorem getLsbD_opcode {m : CmdWord} (hm : m.toNat < 256) {j : Nat} (hj : 8 ≤ j) : m.getLsbD j = false :=
  Nat.testBit_lt_two_pow (Nat.lt_of_lt_of_le hm (Nat.pow_le_pow_right (by omega) hj : 2 ^ 8 ≤ 2 ^ j))

section Fields

variable {m : CmdWord} (hm : m.toNat < 256) {ba bb : Nat} (ha : ba < 16) (hb : bb < 16) (e : Endian) (v : Bool)
  (imm : Byte)
include hm ha hb

theorem baField_assemble : baField (assemble m ba bb e v imm) = ba := by
  have : (assemble m ba bb e v imm).extractLsb' 8 4 = BitVec.ofNat 4 ba := by
    refine BitVec.eq_of_getLsbD_eq fun j hj => ?_
    rw [BitVec.getLsbD_extractLsb', assemble_getLsbD m ha hb e v imm (by omega), BitVec.getLsbD_ofNat,
      getLsbD_opcode hm (by omega)]
    have : j = 0 ∨ j = 1 ∨ j = 2 ∨ j = 3 := by omega
    rcases this with rfl | rfl | rfl | rfl <;> simp
  rw [baField, this, BitVec.toNat_ofNat, Nat.mod_eq_of_lt ha]

theorem bbField_assemble : bbField (assemble m ba bb e v imm) = bb := by
  have : (assemble m ba bb e v imm).extractLsb' 12 4 = BitVec.ofNat 4 bb := by
    refine BitVec.eq_of_getLsbD_eq fun j hj => ?_
    rw [BitVec.getLsbD_extractLsb', assemble_getLsbD m ha hb e v imm (by omega), BitVec.getLsbD_ofNat,
      getLsbD_opcode hm (by omega)]
    have : j = 0 ∨ j = 1 ∨ j = 2 ∨ j = 3 := by omega
    rcases this with rfl | rfl | rfl | rfl <;> simp
  rw [bbField, this, BitVec.toNat_ofNat, Nat.mod_eq_of_lt hb]

theorem eField_assemble : eField (assemble m ba bb e v imm) = e := by
  rw [eField, assemble_getLsbD m ha hb e v imm (by omega), getLsbD_opcode hm (by omega)]
  cases e <;> simp

theorem vField_assemble : vField (assemble m ba bb e v imm) = v := by
  rw [vField, assemble_getLsbD m ha hb e v imm (by omega), getLsbD_opcode hm (by omega)]
  simp

theorem immField_assemble : immField (assemble m ba bb e v imm) = imm := by
  refine BitVec.eq_of_getLsbD_eq fun j hj => ?_
  rw [immField, BitVec.getLsbD_extractLsb', assemble_getLsbD m ha hb e v imm (by omega), getLsbD_opcode hm (by omega)]
  have : j = 0 ∨ j = 1 ∨ j = 2 ∨ j = 3 ∨ j = 4 ∨ j = 5 ∨ j = 6 ∨ j = 7 := by omega
  rcases this with rfl | rfl | rfl | rfl | rfl | rfl | rfl | rfl <;> simp

omit hm in
/-- The bits a row fixes, when the fields it leaves free are the only ones that are not 0. -/
theorem assemble_and_mask {mask : CmdWord} (hmask : m &&& mask = m)
    (h1 : ba = 0 ∨ mask &&& 0x00000F00#32 = 0#32) (h2 : bb = 0 ∨ mask &&& 0x0000F000#32 = 0#32)
    (h3 : e = .little ∨ mask &&& 0x00010000#32 = 0#32) (h4 : v = false ∨ mask &&& 0x00020000#32 = 0#32)
    (h5 : imm = 0#8 ∨ mask &&& 0xFF000000#32 = 0#32) : assemble m ba bb e v imm &&& mask = m := by
  have bits : ∀ {c : CmdWord} {j : Nat}, mask &&& c = 0#32 → c.getLsbD j = true → mask.getLsbD j = false := by
    intro c j h hc
    have := congrArg (fun x : CmdWord => x.getLsbD j) h
    simpa [hc] using this
  refine BitVec.eq_of_getLsbD_eq fun j hj => ?_
  have hmj := congrArg (fun x : CmdWord => x.getLsbD j) hmask
  simp only [BitVec.getLsbD_and] at hmj
  rw [BitVec.getLsbD_and, assemble_getLsbD m ha hb e v imm hj, ← hmj]
  have c1 : (decide (8 ≤ j ∧ j < 12) && ba.testBit (j - 8) && mask.getLsbD j) = false := by
    rcases h1 with rfl | h
    · simp
    · by_cases hr : 8 ≤ j ∧ j < 12
      · have : j = 8 ∨ j = 9 ∨ j = 10 ∨ j = 11 := by omega
        rw [bits h (by rcases this with rfl | rfl | rfl | rfl <;> rfl)]; simp
      · simp [hr]
  have c2 : (decide (12 ≤ j ∧ j < 16) && bb.testBit (j - 12) && mask.getLsbD j) = false := by
    rcases h2 with rfl | h
    · simp
    · by_cases hr : 12 ≤ j ∧ j < 16
      · have : j = 12 ∨ j = 13 ∨ j = 14 ∨ j = 15 := by omega
        rw [bits h (by rcases this with rfl | rfl | rfl | rfl <;> rfl)]; simp
      · simp [hr]
  have c3 : (decide (j = 16) && decide (e = .big) && mask.getLsbD j) = false := by
    rcases h3 with rfl | h
    · simp
    · by_cases hr : j = 16
      · rw [bits h (by subst hr; rfl)]; simp
      · simp [hr]
  have c4 : (decide (j = 17) && v && mask.getLsbD j) = false := by
    rcases h4 with rfl | h
    · simp
    · by_cases hr : j = 17
      · rw [bits h (by subst hr; rfl)]; simp
      · simp [hr]
  have c5 : (decide (24 ≤ j) && imm.getLsbD (j - 24) && mask.getLsbD j) = false := by
    rcases h5 with rfl | h
    · simp
    · by_cases hr : 24 ≤ j
      · have : j = 24 ∨ j = 25 ∨ j = 26 ∨ j = 27 ∨ j = 28 ∨ j = 29 ∨ j = 30 ∨ j = 31 := by omega
        rw [bits h (by rcases this with rfl | rfl | rfl | rfl | rfl | rfl | rfl | rfl <;> rfl)]; simp
      · simp [hr]
  simp only [Bool.and_or_distrib_right, c1, c2, c3, c4, c5, Bool.or_false]
  cases m.getLsbD j <;> simp

end Fields

end Sys2Proof
end

