-- ==== Sys2Proof/Laws/Reduction.lean ====
section
/-! SUPPORT. The pairwise fold counts bit indices, and the byte-wise subset test compares bits (44_reduction.md R177). -/

namespace Sys2Proof.Machine

/-- The number of indices below `i` at which `p` holds of the bits of slots `ka` and `kb`. -/
def cntPair (s : State) (ka kb : Nat) (p : Bool → Bool → Bool) (i : Nat) : Nat :=
  ((List.range i).filter fun x => p (bitAt s ka x) (bitAt s kb x)).length

/-- The byte operator `f` works bit by bit as `p`. -/
def Bitwise (f : Byte → Byte → Byte) (p : Bool → Bool → Bool) : Prop :=
  ∀ a b j, j < 8 → (f a b).getLsbD j = p (a.getLsbD j) (b.getLsbD j)

theorem bitwise_and : Bitwise (· &&& ·) (· && ·) := fun _ _ _ _ => BitVec.getLsbD_and
theorem bitwise_or : Bitwise (· ||| ·) (· || ·) := fun _ _ _ _ => BitVec.getLsbD_or
theorem bitwise_xor : Bitwise (· ^^^ ·) (fun a b => a ^^ b) := fun _ _ _ _ => BitVec.getLsbD_xor

theorem cntPair_foldFrom {s : State} {ka kb : Nat} {f : Byte → Byte → Byte} {p : Bool → Bool → Bool}
    (hf : Bitwise f p) (he : (s.slot ka).endian = (s.slot kb).endian) (n q : Nat) :
    cntPair s ka kb p (8 * (q + n)) = cntPair s ka kb p (8 * q) + foldFrom s ka kb f n q := by
  induction n generalizing q with
  | zero => rfl
  | succ n ih =>
    have hbyte : cntPair s ka kb p (8 * q + 8) =
        cntPair s ka kb p (8 * q) + popcount (f (ramRead s ka q) (ramRead s kb q)) := by
      rw [popcount_eq _ (s.slot ka).endian, cntPair, filter_range_add]
      congr 2
      refine List.filter_congr fun x hx => ?_
      have hx := List.mem_range.1 hx
      rw [bitAt_byte s ka q x hx, bitAt_byte s kb q x hx, ← he, hf _ _ _ (bitPos_lt _ _)]
    have h2 := ih (q + 1)
    rw [show q + 1 + n = q + (n + 1) by omega] at h2
    rw [foldFrom, h2, show 8 * (q + 1) = 8 * q + 8 by omega, hbyte, Nat.add_assoc]

/-- `Fold(op)` on normalised operands counts the logical indices `i` with `bit(ka,i) op bit(kb,i) = 1`
(44_reduction.md R177). -/
theorem fold_eq_cntPair {s t : State} {ka kb : Nat} {f : Byte → Byte → Byte} {p : Bool → Bool → Bool}
    (hf : Bitwise f p) (hp : p false false = false) (h : paddingCleared [ka, kb] s t)
    (hlen : (s.slot ka).len = (s.slot kb).len) (he : (s.slot ka).endian = (s.slot kb).endian) :
    fold t ka kb f = cntPair s ka kb p (s.slot ka).len := by
  have he' : (t.slot ka).endian = (t.slot kb).endian := by rw [(h.1.2.2 ka).2.1, (h.1.2.2 kb).2.1, he]
  have h1 := cntPair_foldFrom hf he' (bytesUsed t ka) 0
  rw [Nat.mul_zero, Nat.zero_add, show cntPair t ka kb p 0 = 0 from rfl, Nat.zero_add] at h1
  have hused : bytesUsed s ka = bytesUsed s kb := by simp only [bytesUsed, hlen]
  rw [fold, ← h1, h.1.bytesUsed]
  have hle : (s.slot ka).len ≤ 8 * bytesUsed s ka := by simp only [bytesUsed, bytesForBits_eq]; omega
  obtain ⟨n, hn⟩ := Nat.exists_eq_add_of_le hle
  rw [hn, cntPair, filter_range_add, cntPair]
  have hpad : ((List.range n).filter fun x =>
      p (bitAt t ka ((s.slot ka).len + x)) (bitAt t kb ((s.slot ka).len + x))) = [] := by
    refine List.filter_eq_nil_iff.2 fun x hx => ?_
    have := List.mem_range.1 hx
    rw [h.bitAt_padding (by simp) (by omega) (by omega), h.bitAt_padding (by simp) (by omega) (by omega), hp]
    simp
  rw [hpad, List.length_nil, Nat.add_zero]
  congr 1
  refine List.filter_congr fun x hx => ?_
  have := List.mem_range.1 hx
  rw [h.bitAt_logical this, h.bitAt_logical (hlen ▸ this)]

theorem foldFrom_eq_sum (s : State) (ka kb : Nat) (f : Byte → Byte → Byte) (n q : Nat) :
    foldFrom s ka kb f n q =
      ((List.range n).map fun x => popcount (f (ramRead s ka (q + x)) (ramRead s kb (q + x)))).sum := by
  induction n generalizing q with
  | zero => rfl
  | succ n ih =>
    rw [foldFrom, ih, List.range_succ_eq_map, List.map_cons, List.sum_cons, List.map_map]
    simp only [Nat.add_zero, Function.comp_def, Nat.add_succ, Nat.succ_add]

theorem subsetFrom_iff (s : State) (ka kb n q : Nat) :
    subsetFrom s ka kb n q = true ↔
      ∀ x, q ≤ x → x < q + n → ramRead s ka x &&& ramRead s kb x = ramRead s ka x := by
  induction n generalizing q with
  | zero => simp only [subsetFrom, true_iff]; intro x h1 h2; omega
  | succ n ih =>
    simp only [subsetFrom]
    split
    · rename_i hne
      simp only [Bool.false_eq_true, false_iff]
      exact fun h => hne (h q (Nat.le_refl _) (by omega))
    · rename_i heq
      rw [ih]
      constructor
      · intro h x h1 h2
        rcases Nat.eq_or_lt_of_le h1 with rfl | hlt
        · simpa using heq
        · exact h x hlt (by omega)
      · exact fun h x h1 h2 => h x (by omega) (by omega)

/-- The byte-wise subset test on normalised operands is the subset relation of the logical bits (44_reduction.md
R176). -/
theorem subsetFrom_iff_bits {s t : State} {ka kb : Nat} (h : paddingCleared [ka, kb] s t)
    (hlen : (s.slot ka).len = (s.slot kb).len) (he : (s.slot ka).endian = (s.slot kb).endian) :
    subsetFrom t ka kb (bytesUsed s ka) 0 = true ↔
      ∀ i, i < (s.slot ka).len → bitAt s ka i = true → bitAt s kb i = true := by
  have he' : (t.slot ka).endian = (t.slot kb).endian := by rw [(h.1.2.2 ka).2.1, (h.1.2.2 kb).2.1, he]
  have hused : (s.slot ka).len ≤ 8 * bytesUsed s ka := by simp only [bytesUsed, bytesForBits_eq]; omega
  rw [subsetFrom_iff]
  constructor
  · intro hb i hi hai
    have := hb (i / 8) (Nat.zero_le _) (by omega)
    rw [← h.bitAt_logical hi, bitAt] at hai
    rw [← h.bitAt_logical (k := kb) (hlen ▸ hi), bitAt, ← he']
    rw [← this, BitVec.getLsbD_and, Bool.and_eq_true] at hai
    exact hai.2
  · intro hbits q _ hq
    refine BitVec.eq_of_getLsbD_eq fun b hb => ?_
    rw [BitVec.getLsbD_and]
    cases hab : (ramRead t ka q).getLsbD b with
    | false => rfl
    | true =>
      rw [Bool.true_and]
      have hp := bitPos_lt (t.slot ka).endian b
      have hidx : bitAt t ka (8 * q + bitPos (t.slot ka).endian b) = true := by
        rw [bitAt_byte t ka q _ hp, bitPos_invol, Nat.mod_eq_of_lt hb, hab]
      have hlog : 8 * q + bitPos (t.slot ka).endian b < (s.slot ka).len := by
        by_contra hn
        rw [h.bitAt_padding (by simp) (Nat.le_of_not_lt hn) (by omega)] at hidx
        cases hidx
      have := hbits _ hlog (by rw [← h.bitAt_logical hlog]; exact hidx)
      rw [← h.bitAt_logical (k := kb) (hlen ▸ hlog), he', bitAt_byte t kb q _ (he' ▸ hp), bitPos_invol,
        Nat.mod_eq_of_lt hb] at this
      exact this

end Sys2Proof.Machine
end

