-- ==== Sys2Proof/Laws/Search.lean ====
section
/-! SUPPORT. The scans of 43_search.md: what each loop can end in. Together they say that the three tiers of the locator
and the byte skipping of the reverse search only skip work (R157, R160). -/

namespace Sys2Proof.Machine

/-! ### The locator -/

/-- What holds of the locator's working values throughout (43_search.md R157): `i` is in the buffer, `j = cnt(k, i)`,
and no index below `i` has the total `n`. -/
structure Scan.Ok (s : State) (k n : Nat) (p : Scan) : Prop where
  le : p.i ≤ (s.slot k).len
  eq : p.j = cnt s k p.i
  below : ∀ i, i < p.i → cnt s k i < n

theorem Scan.Ok.start (s : State) (k n : Nat) : Scan.Ok s k n ⟨0, 0⟩ :=
  ⟨Nat.zero_le _, rfl, fun _ h => absurd h (Nat.not_lt_zero _)⟩

/-- Phases 1 and 2 keep the invariant, keep `j` below `n`, and stop on a whole byte. -/
theorem commitBlocks_ok {s : State} {k n bits : Nat} (hbits : bits % 8 = 0) (fuel : Nat) {p : Scan}
    (h : Scan.Ok s k n p) (hj : p.j < n) (hi : p.i % 8 = 0) :
    Scan.Ok s k n (commitBlocks s k n bits fuel p) ∧ (commitBlocks s k n bits fuel p).j < n ∧
      (commitBlocks s k n bits fuel p).i % 8 = 0 := by
  induction fuel generalizing p with
  | zero => exact ⟨h, hj, hi⟩
  | succ fuel ih =>
    simp only [commitBlocks]
    split
    · rename_i hfit
      split
      · rename_i hlt
        have hsum := cnt_blockSum s k (show p.i / 8 ≤ p.i / 8 + bits / 8 by omega)
        rw [show 8 * (p.i / 8 + bits / 8) = p.i + bits by omega, show 8 * (p.i / 8) = p.i by omega, ← h.eq] at hsum
        refine ih ⟨by have := h.le; simp only; omega, hsum.symm, fun i hlt' => ?_⟩ hlt (by simp only; omega)
        exact Nat.lt_of_le_of_lt ((cnt_mono s k (Nat.le_of_lt hlt')).trans_eq hsum) hlt
      · exact ⟨h, hj, hi⟩
    · exact ⟨h, hj, hi⟩

/-- Phase 3 keeps the invariant and ends with the total `n`, or at the end of the buffer below it. -/
theorem scanBits_ok {s : State} {k n : Nat} (fuel : Nat) {p : Scan} (h : Scan.Ok s k n p) (hj : p.j ≤ n)
    (hfuel : (s.slot k).len ≤ p.i + fuel) :
    Scan.Ok s k n (scanBits s k n fuel p) ∧
      ((scanBits s k n fuel p).j = n ∨
        (scanBits s k n fuel p).j < n ∧ (scanBits s k n fuel p).i = (s.slot k).len) := by
  induction fuel generalizing p with
  | zero => exact ⟨h, by have := h.le; simp only [scanBits]; omega⟩
  | succ fuel ih =>
    simp only [scanBits]
    split
    · rename_i hc
      have hs := cnt_succ s k p.i
      rw [← h.eq, ← bitRead_eq_bitAt] at hs
      have hb : (bitRead s k p.i).toNat ≤ 1 := Bool.toNat_le _
      refine ih ⟨hc.2, hs.symm, fun i hlt => ?_⟩ (by simp only; omega) (by simp only; omega)
      rcases Nat.lt_succ_iff_lt_or_eq.1 hlt with hlt | rfl
      · exact h.below i hlt
      · exact h.eq ▸ hc.1
    · exact ⟨h, by have := h.le; omega⟩

/-- The three tiers find the least index with `n` set bits below it, or exhaust the buffer (43_search.md R151). -/
theorem locate_ok {s : State} {k n : Nat} (hblock : s.cfg.blockBits % 8 = 0) (hn : 0 < n) :
    Scan.Ok s k n (locate s k n) ∧
      ((locate s k n).j = n ∨ (locate s k n).j < n ∧ (locate s k n).i = (s.slot k).len) := by
  obtain ⟨h1, j1, i1⟩ := commitBlocks_ok hblock ((s.slot k).len / s.cfg.blockBits) (Scan.Ok.start s k n) hn rfl
  obtain ⟨h2, j2, -⟩ := commitBlocks_ok (bits := 8) rfl ((s.slot k).len / 8) h1 j1 i1
  exact scanBits_ok _ h2 (Nat.le_of_lt j2) (by unfold phase2 phase1; omega)

/-! ### The reverse search -/

theorem scanBack_some {s : State} {k : Nat} {v : Bool} {lo n i : Nat} (h : scanBack s k v lo n = some i) :
    lo ≤ i ∧ i < lo + n ∧ bitAt s k i = v ∧ ∀ x, i < x → x < lo + n → bitAt s k x ≠ v := by
  induction n with
  | zero => cases h
  | succ n ih =>
    simp only [scanBack, bitRead_eq_bitAt] at h
    split at h
    · rename_i hb
      cases h
      exact ⟨by omega, by omega, hb, fun x h1 h2 => absurd h2 (by omega)⟩
    · rename_i hb
      obtain ⟨h1, h2, h3, h4⟩ := ih h
      refine ⟨h1, by omega, h3, fun x hx hx' => ?_⟩
      rcases Nat.lt_or_ge x (lo + n) with hlt | hge
      · exact h4 x hx hlt
      · rwa [show x = lo + n by omega]

theorem scanBack_none {s : State} {k : Nat} {v : Bool} {lo n : Nat} (h : scanBack s k v lo n = none) :
    ∀ x, lo ≤ x → x < lo + n → bitAt s k x ≠ v := by
  induction n with
  | zero => intro x h1 h2; omega
  | succ n ih =>
    simp only [scanBack, bitRead_eq_bitAt] at h
    split at h
    · cases h
    · rename_i hb
      intro x h1 h2
      rcases Nat.lt_or_ge x (lo + n) with hlt | hge
      · exact ih h x h1 hlt
      · rwa [show x = lo + n by omega]

/-- The bytes `FINDLAST` keeps end in one that differs from the skipped byte, and all after it equal it. -/
theorem skipBytes_spec (s : State) (k : Nat) (b : Byte) (q : Nat) :
    skipBytes s k b q ≤ q ∧ (∀ x, skipBytes s k b q ≤ x → x < q → ramRead s k x = b) ∧
      (0 < skipBytes s k b q → ramRead s k (skipBytes s k b q - 1) ≠ b) := by
  induction q with
  | zero => exact ⟨Nat.le_refl _, fun x _ h => absurd h (Nat.not_lt_zero _), fun h => absurd h (Nat.lt_irrefl _)⟩
  | succ q ih =>
    simp only [skipBytes]
    split
    · rename_i hb
      refine ⟨by omega, fun x h1 h2 => ?_, ih.2.2⟩
      rcases Nat.lt_or_ge x q with hlt | hge
      · exact ih.2.1 x h1 hlt
      · rwa [show x = q by omega]
    · rename_i hb
      exact ⟨Nat.le_refl _, fun x h1 h2 => by omega, fun _ => hb⟩

theorem skipByte_getLsbD (v : Bool) {b : Nat} (hb : b < 8) : (skipByte v).getLsbD b = !v := by
  have hbs : b = 0 ∨ b = 1 ∨ b = 2 ∨ b = 3 ∨ b = 4 ∨ b = 5 ∨ b = 6 ∨ b = 7 := by omega
  cases v <;> rcases hbs with rfl | rfl | rfl | rfl | rfl | rfl | rfl | rfl <;> rfl

/-- A byte is the skipped byte exactly when none of its bits is `v` (43_search.md R158, step 3 always finds a match). -/
theorem ramRead_eq_skipByte_iff (s : State) (k q : Nat) (v : Bool) :
    ramRead s k q = skipByte v ↔ ∀ x, 8 * q ≤ x → x < 8 * q + 8 → bitAt s k x ≠ v := by
  constructor
  · intro h x h1 h2
    obtain ⟨y, rfl⟩ := Nat.exists_eq_add_of_le h1
    rw [bitAt_byte s k q y (by omega), h, skipByte_getLsbD v (bitPos_lt _ _)]
    cases v <;> simp
  · intro h
    refine BitVec.eq_of_getLsbD_eq fun b hb => ?_
    have hp := bitPos_lt (s.slot k).endian b
    have := h (8 * q + bitPos (s.slot k).endian b) (by omega) (by omega)
    rw [bitAt_byte s k q _ hp, bitPos_invol, Nat.mod_eq_of_lt hb] at this
    rw [skipByte_getLsbD v hb]
    revert this
    cases (ramRead s k q).getLsbD b <;> cases v <;> simp

/-- What `FINDLAST` does on a slot whose RAM is in order: it finds the highest index that holds `v`, or none holds it
(43_search.md R159). -/
theorem findlastFrom_spec (ba : Nat) (v : Bool) (s : State) :
    (∃ i, i < (s.slot ba).len ∧ bitAt s ba i = v ∧ (∀ x, i < x → x < (s.slot ba).len → bitAt s ba x ≠ v) ∧
        findlastFrom ba v s = done (s.setRes i)) ∨
      (∀ x, x < (s.slot ba).len → bitAt s ba x ≠ v) ∧ findlastFrom ba v s = raiseNotFound s := by
  unfold findlastFrom
  split
  · rename_i h0
    exact .inr ⟨fun x hx => by omega, rfl⟩
  · rename_i h0
    simp only
    have hlast : 8 * (bytesUsed s ba - 1) < (s.slot ba).len ∧ (s.slot ba).len ≤ 8 * (bytesUsed s ba - 1) + 8 := by
      simp only [bytesUsed, bytesForBits_eq]; omega
    generalize bytesUsed s ba - 1 = last at hlast
    split
    · rename_i i hi
      obtain ⟨h1, h2, h3, h4⟩ := scanBack_some hi
      exact .inl ⟨i, by omega, h3, fun x hx hx' => h4 x hx (by omega), rfl⟩
    · rename_i hnone
      have htail := scanBack_none hnone
      obtain ⟨hle, hskip, hdiff⟩ := skipBytes_spec s ba (skipByte v) last
      have hgap : ∀ x, 8 * skipBytes s ba (skipByte v) last ≤ x → x < (s.slot ba).len → bitAt s ba x ≠ v := by
        intro x h1 h2
        rcases Nat.lt_or_ge x (8 * last) with hlt | hge
        · exact (ramRead_eq_skipByte_iff s ba (x / 8) v).1 (hskip _ (by omega) (by omega)) x (by omega) (by omega)
        · exact htail x hge (by omega)
      unfold findlastBytes
      split
      · rename_i hz
        exact .inr ⟨fun x hx => hgap x (by omega) hx, rfl⟩
      · rename_i q hq
        rw [hq] at hle hgap hdiff
        have hd := hdiff (Nat.succ_pos q)
        rw [Nat.succ_sub_one] at hd
        split
        · rename_i i hi
          obtain ⟨h1, h2, h3, h4⟩ := scanBack_some hi
          refine .inl ⟨i, by omega, h3, fun x hx hx' => ?_, rfl⟩
          rcases Nat.lt_or_ge x (8 * q + 8) with hlt | hge
          · exact h4 x hx hlt
          · exact hgap x (by omega) hx'
        · rename_i hno
          exact absurd ((ramRead_eq_skipByte_iff s ba q v).2 (scanBack_none hno)) hd

end Sys2Proof.Machine
end

