-- ==== Sys2Proof/Laws/Outcome.lean ====
section
/-! SUPPORT. How a command can end: one lemma per operand check (60_exceptions.md R210), and one inversion lemma per
command. Proofs about `exec` cite these and do not unfold a meaning. -/

namespace Sys2Proof.Machine

/-! ### The operand checks -/

theorem checkSlotNumber_cases (k : Nat) (s : State) (rest : Result) :
    s.cfg.nbuf ≤ k ∧ checkSlotNumber k s rest = .next (s.setCode .badSlot) ∨
      k < s.cfg.nbuf ∧ checkSlotNumber k s rest = rest := by
  unfold checkSlotNumber
  split
  · rename_i h; exact .inl ⟨h, rfl⟩
  · exact .inr ⟨by omega, rfl⟩

theorem checkSlot_cases (k : Nat) (s : State) (rest : Result) :
    ¬s.usable k ∧ checkSlot k s rest = .next (s.setCode .badSlot) ∨ s.usable k ∧ checkSlot k s rest = rest := by
  unfold checkSlot
  split
  · rename_i h
    exact .inl ⟨fun h' => h.elim (fun h1 => by omega) (fun h1 => by simp [h'.2] at h1), rfl⟩
  · rename_i h
    rw [not_or] at h
    exact .inr ⟨⟨by omega, by simpa using h.2⟩, rfl⟩

theorem checkCapacity_cases (s : State) (rest : Result) :
    maxBits s.cfg < s.op ∧ checkCapacity s rest = .next (s.setCode .capacityExceeded) ∨
      s.op ≤ maxBits s.cfg ∧ checkCapacity s rest = rest := by
  unfold checkCapacity
  split
  · rename_i h; exact .inl ⟨h, rfl⟩
  · exact .inr ⟨by omega, rfl⟩

theorem checkByteOffset_cases (s : State) (rest : Result) :
    s.cfg.capBytes ≤ s.op ∧ checkByteOffset s rest = .next (s.setCode .byteOffsetOutOfRange) ∨
      s.op < s.cfg.capBytes ∧ checkByteOffset s rest = rest := by
  unfold checkByteOffset
  split
  · rename_i h; exact .inl ⟨h, rfl⟩
  · exact .inr ⟨by omega, rfl⟩

theorem checkIndex_cases (k : Nat) (s : State) (rest : Result) :
    (s.slot k).len ≤ s.op ∧ s.cfg.validating = true ∧ checkIndex k s rest = .next (s.setCode .indexOutOfRange) ∨
      (s.slot k).len ≤ s.op ∧ s.cfg.validating = false ∧ checkIndex k s rest = .fault (.fatal s.setFatal) ∨
      s.op < (s.slot k).len ∧ checkIndex k s rest = rest := by
  unfold checkIndex
  split
  · rename_i h
    split
    · rename_i hv; exact .inl ⟨h, hv, rfl⟩
    · rename_i hv; exact .inr (.inl ⟨h, by simpa using hv, rfl⟩)
  · exact .inr (.inr ⟨by omega, rfl⟩)

theorem checkRam_cases (k n : Nat) (s : State) (rest : Result) :
    s.cfg.capBytes < n ∧ checkRam k n s rest = .fault (.ramOffset k (n - 1)) ∨
      n ≤ s.cfg.capBytes ∧ checkRam k n s rest = rest := by
  unfold checkRam
  split
  · rename_i h; exact .inl ⟨h, rfl⟩
  · exact .inr ⟨by omega, rfl⟩

/-- 10_state.md R28 (a): the bytes a buffer uses exist. -/
theorem State.wf.bytesUsed_le {s : State} (h : s.wf) (k : Nat) : bytesUsed s k ≤ s.cfg.capBytes := by
  have := (h.slot k).1
  simp only [maxBits, bytesUsed, bytesForBits_eq] at *
  omega

theorem State.wf.checkRam_used {s : State} (h : s.wf) (k : Nat) (rest : Result) :
    checkRam k (bytesUsed s k) s rest = rest := by
  rcases checkRam_cases k (bytesUsed s k) s rest with ⟨h1, -⟩ | ⟨-, h1⟩
  · exact absurd h1 (by have := h.bytesUsed_le k; omega)
  · exact h1

theorem State.wf.checkRam_index {s : State} (h : s.wf) {k : Nat} (hi : s.op < (s.slot k).len) (rest : Result) :
    checkRam k (byteIndex (s.slot k).endian s.op + 1) s rest = rest := by
  rcases checkRam_cases k (byteIndex (s.slot k).endian s.op + 1) s rest with ⟨h1, -⟩ | ⟨-, h1⟩
  · have := (h.slot k).1
    simp only [maxBits, byteIndex] at *
    omega
  · exact h1

theorem checkPair_cases (ka kb : Nat) (s : State) (rest : Result) :
    ¬(s.usable ka ∧ s.usable kb) ∧ checkPair ka kb s rest = .next (s.setCode .badSlot) ∨
      (s.usable ka ∧ s.usable kb) ∧
        ((s.slot ka).len ≠ (s.slot kb).len ∧ checkPair ka kb s rest = .next (s.setCode .lengthMismatch) ∨
          (s.slot ka).len = (s.slot kb).len ∧
            ((s.slot ka).endian ≠ (s.slot kb).endian ∧
                checkPair ka kb s rest = .next (s.setCode .endiannessMismatch) ∨
              (s.slot ka).endian = (s.slot kb).endian ∧
                checkPair ka kb s rest = checkRam ka (bytesUsed s ka) s rest)) := by
  unfold checkPair
  rcases checkSlot_cases ka s _ with ⟨ha, h⟩ | ⟨ha, h⟩
  · exact .inl ⟨fun h' => ha h'.1, h⟩
  · rw [h]
    rcases checkSlot_cases kb s _ with ⟨hb, h⟩ | ⟨hb, h⟩
    · exact .inl ⟨fun h' => hb h'.2, h⟩
    · rw [h]
      refine .inr ⟨⟨ha, hb⟩, ?_⟩
      split
      · rename_i hl; exact .inl ⟨hl, rfl⟩
      · rename_i hl
        refine .inr ⟨by simpa using hl, ?_⟩
        split
        · rename_i he; exact .inl ⟨he, rfl⟩
        · rename_i he; exact .inr ⟨by simpa using he, rfl⟩

/-! ### How each command can end -/

/-- What a `COUNTN` that passes its checks does: it finds the least index with `OP` set bits below it, or `NOT_FOUND`
(43_search.md R151, R152). -/
theorem countn_found {s t : State} {k : Nat} (hb : s.cfg.blockBits % 8 = 0) (h : paddingCleared [k] s t)
    (hn : s.op ≠ 0) (hj : (locate t k s.op).j = s.op) :
    (locate t k s.op).i ≤ (s.slot k).len ∧ cnt s k (locate t k s.op).i = s.op ∧
      ∀ i, i < (locate t k s.op).i → cnt s k i < s.op := by
  have hcfg : t.cfg = s.cfg := by rw [h.1.eq]
  obtain ⟨hok, -⟩ := locate_ok (s := t) (k := k) (n := s.op) (by rw [hcfg]; exact hb) (Nat.pos_of_ne_zero hn)
  have hle := hok.le
  rw [(h.1.2.2 k).1] at hle
  refine ⟨hle, by rw [← h.cnt hle, ← hok.eq, hj], fun i hi => ?_⟩
  rw [← h.cnt (by omega)]
  exact hok.below i hi

theorem countn_notFound {s t : State} {k : Nat} (hb : s.cfg.blockBits % 8 = 0) (h : paddingCleared [k] s t)
    (hn : s.op ≠ 0) (hj : (locate t k s.op).j ≠ s.op) : cnt s k (s.slot k).len < s.op := by
  have hcfg : t.cfg = s.cfg := by rw [h.1.eq]
  obtain ⟨hok, hend⟩ := locate_ok (s := t) (k := k) (n := s.op) (by rw [hcfg]; exact hb) (Nat.pos_of_ne_zero hn)
  rcases hend with h' | ⟨h1, h2⟩
  · exact absurd h' hj
  · rw [hok.eq, h2, (h.1.2.2 k).1, h.cnt (Nat.le_refl _)] at h1
    exact h1

theorem execCreate_cases (ba : Nat) (e : Endian) (s : State) :
    s.cfg.nbuf ≤ ba ∧ execCreate ba e s = .next (s.setCode .badSlot) ∨
      ba < s.cfg.nbuf ∧
        (maxBits s.cfg < s.op ∧ execCreate ba e s = .next (s.setCode .capacityExceeded) ∨
          s.op ≤ maxBits s.cfg ∧
            execCreate ba e s =
              .next ((s.setSlot ba { s.slot ba with len := s.op, endian := e, valid := true }).setCode .ok)) := by
  unfold execCreate
  rcases checkSlotNumber_cases ba s _ with ⟨hb, h⟩ | ⟨hb, h⟩ <;> rw [h]
  · exact .inl ⟨hb, rfl⟩
  · rcases checkCapacity_cases s _ with ⟨hc, h⟩ | ⟨hc, h⟩ <;> rw [h]
    · exact .inr ⟨hb, .inl ⟨hc, rfl⟩⟩
    · exact .inr ⟨hb, .inr ⟨hc, rfl⟩⟩

theorem execResize_cases (ba : Nat) (s : State) :
    ¬s.usable ba ∧ execResize ba s = .next (s.setCode .badSlot) ∨
      s.usable ba ∧
        (maxBits s.cfg < s.op ∧ execResize ba s = .next (s.setCode .capacityExceeded) ∨
          s.op ≤ maxBits s.cfg ∧ execResize ba s = .next ((s.setLen ba s.op).setCode .ok)) := by
  unfold execResize
  rcases checkSlot_cases ba s _ with ⟨hb, h⟩ | ⟨hb, h⟩ <;> rw [h]
  · exact .inl ⟨hb, rfl⟩
  · rcases checkCapacity_cases s _ with ⟨hc, h⟩ | ⟨hc, h⟩ <;> rw [h]
    · exact .inr ⟨hb, .inl ⟨hc, rfl⟩⟩
    · exact .inr ⟨hb, .inr ⟨hc, rfl⟩⟩

theorem execFree_cases (ba : Nat) (s : State) :
    ¬s.usable ba ∧ execFree ba s = .next (s.setCode .badSlot) ∨
      s.usable ba ∧ execFree ba s = .next ((s.setValid ba false).setCode .ok) := by
  unfold execFree
  rcases checkSlot_cases ba s _ with ⟨hb, h⟩ | ⟨hb, h⟩ <;> rw [h]
  · exact .inl ⟨hb, rfl⟩
  · exact .inr ⟨hb, rfl⟩

theorem execWrbyte_cases (ba : Nat) (b : Byte) (s : State) :
    ¬s.usable ba ∧ execWrbyte ba b s = .next (s.setCode .badSlot) ∨
      s.usable ba ∧
        (s.cfg.capBytes ≤ s.op ∧ execWrbyte ba b s = .next (s.setCode .byteOffsetOutOfRange) ∨
          s.op < s.cfg.capBytes ∧ execWrbyte ba b s = .next ((ramWrite s ba s.op b).setCode .ok)) := by
  unfold execWrbyte
  rcases checkSlot_cases ba s _ with ⟨hb, h⟩ | ⟨hb, h⟩ <;> rw [h]
  · exact .inl ⟨hb, rfl⟩
  · rcases checkByteOffset_cases s _ with ⟨hc, h⟩ | ⟨hc, h⟩ <;> rw [h]
    · exact .inr ⟨hb, .inl ⟨hc, rfl⟩⟩
    · exact .inr ⟨hb, .inr ⟨hc, rfl⟩⟩

theorem execRdbyte_cases (ba : Nat) (s : State) :
    ¬s.usable ba ∧ execRdbyte ba s = .next (s.setCode .badSlot) ∨
      s.usable ba ∧
        (s.cfg.capBytes ≤ s.op ∧ execRdbyte ba s = .next (s.setCode .byteOffsetOutOfRange) ∨
          s.op < s.cfg.capBytes ∧ execRdbyte ba s = .next ((s.setAux (ramRead s ba s.op)).setCode .ok)) := by
  unfold execRdbyte
  rcases checkSlot_cases ba s _ with ⟨hb, h⟩ | ⟨hb, h⟩ <;> rw [h]
  · exact .inl ⟨hb, rfl⟩
  · rcases checkByteOffset_cases s _ with ⟨hc, h⟩ | ⟨hc, h⟩ <;> rw [h]
    · exact .inr ⟨hb, .inl ⟨hc, rfl⟩⟩
    · exact .inr ⟨hb, .inr ⟨hc, rfl⟩⟩

/-- How `GETBIT` and `SETBIT` can end, with `rest` what they do on an index in range. -/
theorem checkBit_cases (ba : Nat) (s : State) (rest : Result) :
    let r := checkSlot ba s <| checkIndex ba s <| checkRam ba (byteIndex (s.slot ba).endian s.op + 1) s rest
    ¬s.usable ba ∧ r = .next (s.setCode .badSlot) ∨
      s.usable ba ∧
        ((s.slot ba).len ≤ s.op ∧ s.cfg.validating = true ∧ r = .next (s.setCode .indexOutOfRange) ∨
          (s.slot ba).len ≤ s.op ∧ s.cfg.validating = false ∧ r = .fault (.fatal s.setFatal) ∨
          s.op < (s.slot ba).len ∧
            (s.cfg.capBytes ≤ s.op / 8 ∧ r = .fault (.ramOffset ba (s.op / 8)) ∨
              s.op / 8 < s.cfg.capBytes ∧ r = rest)) := by
  intro r
  rcases checkSlot_cases ba s (checkIndex ba s <| checkRam ba (byteIndex (s.slot ba).endian s.op + 1) s rest) with
    ⟨hb, h⟩ | ⟨hb, h⟩
  · exact .inl ⟨hb, h⟩
  · refine .inr ⟨hb, ?_⟩
    simp only [r, h]
    rcases checkIndex_cases ba s (checkRam ba (byteIndex (s.slot ba).endian s.op + 1) s rest) with
      ⟨h1, h2, h⟩ | ⟨h1, h2, h⟩ | ⟨h1, h⟩
    · exact .inl ⟨h1, h2, h⟩
    · exact .inr (.inl ⟨h1, h2, h⟩)
    · refine .inr (.inr ⟨h1, ?_⟩)
      rw [h]
      rcases checkRam_cases ba (byteIndex (s.slot ba).endian s.op + 1) s rest with ⟨h2, h⟩ | ⟨h2, h⟩
      · exact .inl ⟨Nat.lt_succ_iff.1 h2, h⟩
      · exact .inr ⟨h2, h⟩

/-- How a one-slot command that normalises can end, with `rest` what it does on a good slot. -/
theorem checkUsed_cases (ba : Nat) (s : State) (rest : Result) :
    let r := checkSlot ba s <| checkRam ba (bytesUsed s ba) s rest
    ¬s.usable ba ∧ r = .next (s.setCode .badSlot) ∨
      s.usable ba ∧
        (s.cfg.capBytes < bytesUsed s ba ∧ r = .fault (.ramOffset ba (bytesUsed s ba - 1)) ∨
          bytesUsed s ba ≤ s.cfg.capBytes ∧ r = rest) := by
  intro r
  rcases checkSlot_cases ba s (checkRam ba (bytesUsed s ba) s rest) with ⟨hb, h⟩ | ⟨hb, h⟩
  · exact .inl ⟨hb, h⟩
  · refine .inr ⟨hb, ?_⟩
    simp only [r, h]
    exact checkRam_cases ba (bytesUsed s ba) s rest

theorem execNormtail_cases (ba : Nat) (s : State) :
    ¬s.usable ba ∧ execNormtail ba s = .next (s.setCode .badSlot) ∨
      s.usable ba ∧
        (s.cfg.capBytes < bytesUsed s ba ∧ execNormtail ba s = .fault (.ramOffset ba (bytesUsed s ba - 1)) ∨
          bytesUsed s ba ≤ s.cfg.capBytes ∧ execNormtail ba s = .next ((normalize ba s).setCode .ok)) :=
  checkUsed_cases ba s _

theorem execCount_cases (ba : Nat) (s : State) :
    ¬s.usable ba ∧ execCount ba s = .next (s.setCode .badSlot) ∨
      s.usable ba ∧
        (s.cfg.capBytes < bytesUsed s ba ∧ execCount ba s = .fault (.ramOffset ba (bytesUsed s ba - 1)) ∨
          bytesUsed s ba ≤ s.cfg.capBytes ∧
            execCount ba s = .next (((normalize ba s).setRes (cnt s ba (s.slot ba).len)).setCode .ok)) := by
  rcases checkUsed_cases ba s
    (done ((normalize ba s).setRes (blockSum (normalize ba s) ba 0 (bytesUsed s ba)))) with h | ⟨hu, h | ⟨hr, h⟩⟩
  · exact .inl h
  · exact .inr ⟨hu, .inl h⟩
  · refine .inr ⟨hu, .inr ⟨hr, h.trans ?_⟩⟩
    rw [(normalize_paddingCleared (State.lt_length_of_valid hu.2)).blockSum (by simp)]
    rfl

/-- How `COUNTN` can end (43_search.md R151, R152). The premise is what 00_scope.md R5 asks of `BLOCK_BITS`. -/
theorem execCountn_cases (ba : Nat) {s : State} (hblock : s.cfg.blockBits % 8 = 0) :
    ¬s.usable ba ∧ execCountn ba s = .next (s.setCode .badSlot) ∨
      s.usable ba ∧
        (s.cfg.capBytes < bytesUsed s ba ∧ execCountn ba s = .fault (.ramOffset ba (bytesUsed s ba - 1)) ∨
          bytesUsed s ba ≤ s.cfg.capBytes ∧
            ((∃ i, i ≤ (s.slot ba).len ∧ cnt s ba i = s.op ∧ (∀ j, j < i → cnt s ba j < s.op) ∧
                execCountn ba s = .next (((normalize ba s).setRes i).setCode .ok)) ∨
              cnt s ba (s.slot ba).len < s.op ∧
                execCountn ba s = .next (((normalize ba s).setRes (all1 s.cfg)).setCode .notFound))) := by
  rcases checkUsed_cases ba s _ with h | ⟨hu, h | ⟨hr, h⟩⟩
  · exact .inl h
  · exact .inr ⟨hu, .inl h⟩
  · refine .inr ⟨hu, .inr ⟨hr, ?_⟩⟩
    have hpc := normalize_paddingCleared (State.lt_length_of_valid hu.2)
    have hexec : execCountn ba s = _ := h
    rw [hexec]
    split
    · rename_i h0
      exact .inl ⟨0, Nat.zero_le _, h0.symm, fun j hj => absurd hj (Nat.not_lt_zero _), rfl⟩
    · rename_i h0
      simp only
      split
      · rename_i hj
        obtain ⟨h1, h2, h3⟩ := countn_found hblock hpc h0 hj
        exact .inl ⟨_, h1, h2, h3, rfl⟩
      · rename_i hj
        refine .inr ⟨countn_notFound hblock hpc h0 hj, ?_⟩
        rw [raiseNotFound, hpc.1.eq]
        rfl

/-- How `FINDLAST` can end (43_search.md R158, R159). -/
theorem execFindlast_cases (ba : Nat) (v : Bool) (s : State) :
    ¬s.usable ba ∧ execFindlast ba v s = .next (s.setCode .badSlot) ∨
      s.usable ba ∧
        (s.cfg.capBytes < bytesUsed s ba ∧ execFindlast ba v s = .fault (.ramOffset ba (bytesUsed s ba - 1)) ∨
          bytesUsed s ba ≤ s.cfg.capBytes ∧
            ((∃ i, i < (s.slot ba).len ∧ bitAt s ba i = v ∧ (∀ x, i < x → x < (s.slot ba).len → bitAt s ba x ≠ v) ∧
                execFindlast ba v s = .next (((normalize ba s).setRes i).setCode .ok)) ∨
              (∀ x, x < (s.slot ba).len → bitAt s ba x ≠ v) ∧
                execFindlast ba v s = .next (((normalize ba s).setRes (all1 s.cfg)).setCode .notFound))) := by
  rcases checkUsed_cases ba s (findlastFrom ba v (normalize ba s)) with h | ⟨hu, h | ⟨hr, h⟩⟩
  · exact .inl h
  · exact .inr ⟨hu, .inl h⟩
  · refine .inr ⟨hu, .inr ⟨hr, ?_⟩⟩
    have hpc := normalize_paddingCleared (State.lt_length_of_valid hu.2)
    have hexec : execFindlast ba v s = findlastFrom ba v (normalize ba s) := h
    have hlen := (hpc.1.2.2 ba).1
    rw [hexec]
    rcases findlastFrom_spec ba v (normalize ba s) with ⟨i, h1, h2, h3, h4⟩ | ⟨h1, h2⟩
    · rw [hlen] at h1 h3
      rw [hpc.bitAt_logical h1] at h2
      exact .inl ⟨i, h1, h2, fun x hx hx' => hpc.bitAt_logical hx' ▸ h3 x hx hx', h4⟩
    · rw [hlen] at h1
      refine .inr ⟨fun x hx => hpc.bitAt_logical hx ▸ h1 x hx, h2.trans ?_⟩
      rw [raiseNotFound, hpc.1.eq]
      rfl

/-- How a pairwise command can end, with `rest` what it does on compatible operands. -/
theorem checkPairUsed_cases (ka kb : Nat) (s : State) (rest : Result) :
    ¬(s.usable ka ∧ s.usable kb) ∧ checkPair ka kb s rest = .next (s.setCode .badSlot) ∨
      (s.usable ka ∧ s.usable kb) ∧
        ((s.slot ka).len ≠ (s.slot kb).len ∧ checkPair ka kb s rest = .next (s.setCode .lengthMismatch) ∨
          (s.slot ka).len = (s.slot kb).len ∧
            ((s.slot ka).endian ≠ (s.slot kb).endian ∧
                checkPair ka kb s rest = .next (s.setCode .endiannessMismatch) ∨
              (s.slot ka).endian = (s.slot kb).endian ∧
                (s.cfg.capBytes < bytesUsed s ka ∧
                    checkPair ka kb s rest = .fault (.ramOffset ka (bytesUsed s ka - 1)) ∨
                  bytesUsed s ka ≤ s.cfg.capBytes ∧ checkPair ka kb s rest = rest))) := by
  rcases checkPair_cases ka kb s rest with h | ⟨hu, h | ⟨hl, h | ⟨he, h⟩⟩⟩
  · exact .inl h
  · exact .inr ⟨hu, .inl h⟩
  · exact .inr ⟨hu, .inr ⟨hl, .inl h⟩⟩
  · rw [h]
    exact .inr ⟨hu, .inr ⟨hl, .inr ⟨he, checkRam_cases ka (bytesUsed s ka) s rest⟩⟩⟩

/-! ### `pairError` -/

theorem pairError_eq_none {s : State} {ka kb : Nat} :
    pairError s ka kb = none ↔ s.usable ka ∧ s.usable kb ∧ (s.slot ka).len = (s.slot kb).len ∧
      (s.slot ka).endian = (s.slot kb).endian := by
  unfold pairError; grind

theorem checkPair_of_pairError {s : State} {ka kb : Nat} {c : Code} (h : pairError s ka kb = some c) (rest : Result) :
    checkPair ka kb s rest = .next (s.setCode c) := by
  unfold pairError at h
  rcases checkPair_cases ka kb s rest with ⟨hu, g⟩ | ⟨hu, ⟨hl, g⟩ | ⟨hl, ⟨he, g⟩ | ⟨he, g⟩⟩⟩
  · by_cases ha : s.usable ka
    · rw [if_neg (not_not.2 ha), if_pos fun hb => hu ⟨ha, hb⟩] at h
      cases h; exact g
    · rw [if_pos ha] at h
      cases h; exact g
  · rw [if_neg (not_not.2 hu.1), if_neg (not_not.2 hu.2), if_pos hl] at h
    cases h; exact g
  · rw [if_neg (not_not.2 hu.1), if_neg (not_not.2 hu.2), if_neg (not_not.2 hl), if_pos he] at h
    cases h; exact g
  · rw [if_neg (not_not.2 hu.1), if_neg (not_not.2 hu.2), if_neg (not_not.2 hl), if_neg (not_not.2 he)] at h
    cases h

end Sys2Proof.Machine
end

