-- ==== Sys2Proof/Laws/Effects.lean ====
section
/-! SUPPORT. What is left when `exec` answers a next state: one inversion lemma per shape of command (registers, slot
fields, one stored byte, one normalised slot, a pair). Each names every field that may differ. Proofs that range over all
commands split on these, not on the meanings. -/

namespace Sys2Proof.Machine

theorem next_inj {s t : State} (h : (Host.Outcome.next s : Result) = .next t) : s = t := by injection h

theorem ramRead_setSlot {s : State} {k : Nat} {sl : Slot} (h : sl.ram = (s.slot k).ram) (j off : Nat) :
    ramRead (s.setSlot k sl) j off = ramRead s j off := by
  have hram : ((s.setSlot k sl).slot j).ram = (s.slot j).ram := by
    rw [State.slot_setSlot]
    split
    · rename_i hj; rw [h, hj.1]
    · rfl
  unfold ramRead
  rw [hram, State.setSlot_draw]

/-- `RDBYTE` and `GETBIT`: only `AUX` and `STATUS.CODE`. -/
theorem execRdbyte_next {ba : Nat} {s t : State} (h : execRdbyte ba s = .next t) :
    ¬s.usable ba ∧ t = s.setCode .badSlot ∨
      s.usable ba ∧ (t = s.setCode .byteOffsetOutOfRange ∧ s.cfg.capBytes ≤ s.op ∨
        t = (s.setAux (ramRead s ba s.op)).setCode .ok ∧ s.op < s.cfg.capBytes) := by
  rcases execRdbyte_cases ba s with ⟨hu, g⟩ | ⟨hu, ⟨hc, g⟩ | ⟨hc, g⟩⟩ <;> rw [g] at h <;> cases h
  · exact .inl ⟨hu, rfl⟩
  · exact .inr ⟨hu, .inl ⟨rfl, hc⟩⟩
  · exact .inr ⟨hu, .inr ⟨rfl, hc⟩⟩

theorem execGetbit_next {ba : Nat} {s t : State} (h : execGetbit ba s = .next t) :
    ¬s.usable ba ∧ t = s.setCode .badSlot ∨
      s.usable ba ∧ (t = s.setCode .indexOutOfRange ∧ (s.slot ba).len ≤ s.op ∧ s.cfg.validating = true ∨
        t = (s.setAux (boolByte (bitRead s ba s.op))).setCode .ok ∧ s.op < (s.slot ba).len) := by
  rcases checkBit_cases ba s (done (s.setAux (boolByte (bitRead s ba s.op)))) with
    ⟨hu, g⟩ | ⟨hu, ⟨hi, hv, g⟩ | ⟨_, _, g⟩ | ⟨hi, ⟨_, g⟩ | ⟨_, g⟩⟩⟩ <;>
    (have g : execGetbit ba s = _ := g; rw [g] at h; cases h)
  · exact .inl ⟨hu, rfl⟩
  · exact .inr ⟨hu, .inl ⟨rfl, hi, hv⟩⟩
  · exact .inr ⟨hu, .inr ⟨rfl, hi⟩⟩

/-- `WRBYTE` and `SETBIT`: one byte of RAM and `STATUS.CODE`. -/
theorem execWrbyte_next {ba : Nat} {b : Byte} {s t : State} (h : execWrbyte ba b s = .next t) :
    ¬s.usable ba ∧ t = s.setCode .badSlot ∨
      s.usable ba ∧ (t = s.setCode .byteOffsetOutOfRange ∧ s.cfg.capBytes ≤ s.op ∨
        t = (ramWrite s ba s.op b).setCode .ok ∧ s.op < s.cfg.capBytes) := by
  rcases execWrbyte_cases ba b s with ⟨hu, g⟩ | ⟨hu, ⟨hc, g⟩ | ⟨hc, g⟩⟩ <;> rw [g] at h <;> cases h
  · exact .inl ⟨hu, rfl⟩
  · exact .inr ⟨hu, .inl ⟨rfl, hc⟩⟩
  · exact .inr ⟨hu, .inr ⟨rfl, hc⟩⟩

theorem execSetbit_next {ba : Nat} {v : Bool} {s t : State} (h : execSetbit ba v s = .next t) :
    ¬s.usable ba ∧ t = s.setCode .badSlot ∨
      s.usable ba ∧ (t = s.setCode .indexOutOfRange ∧ (s.slot ba).len ≤ s.op ∧ s.cfg.validating = true ∨
        t = (bitWrite s ba s.op v).setCode .ok ∧ s.op < (s.slot ba).len ∧ s.op / 8 < s.cfg.capBytes) := by
  rcases checkBit_cases ba s (done (bitWrite s ba s.op v)) with
    ⟨hu, g⟩ | ⟨hu, ⟨hi, hv, g⟩ | ⟨_, _, g⟩ | ⟨hi, ⟨_, g⟩ | ⟨hc, g⟩⟩⟩ <;>
    (have g : execSetbit ba v s = _ := g; rw [g] at h; cases h)
  · exact .inl ⟨hu, rfl⟩
  · exact .inr ⟨hu, .inl ⟨rfl, hi, hv⟩⟩
  · exact .inr ⟨hu, .inr ⟨rfl, hi, hc⟩⟩

/-- `CREATE`, `RESIZE`, `FREE`: one slot's fields, not its RAM, and `STATUS.CODE`. -/
theorem execCreate_next {ba : Nat} {e : Endian} {s t : State} (h : execCreate ba e s = .next t) :
    s.cfg.nbuf ≤ ba ∧ t = s.setCode .badSlot ∨
      ba < s.cfg.nbuf ∧ (t = s.setCode .capacityExceeded ∧ maxBits s.cfg < s.op ∨
        t = (s.setSlot ba { s.slot ba with len := s.op, endian := e, valid := true }).setCode .ok ∧
          s.op ≤ maxBits s.cfg) := by
  rcases execCreate_cases ba e s with ⟨hu, g⟩ | ⟨hu, ⟨hc, g⟩ | ⟨hc, g⟩⟩ <;> rw [g] at h <;> cases h
  · exact .inl ⟨hu, rfl⟩
  · exact .inr ⟨hu, .inl ⟨rfl, hc⟩⟩
  · exact .inr ⟨hu, .inr ⟨rfl, hc⟩⟩

theorem execResize_next {ba : Nat} {s t : State} (h : execResize ba s = .next t) :
    ¬s.usable ba ∧ t = s.setCode .badSlot ∨
      s.usable ba ∧ (t = s.setCode .capacityExceeded ∧ maxBits s.cfg < s.op ∨
        t = (s.setLen ba s.op).setCode .ok ∧ s.op ≤ maxBits s.cfg) := by
  rcases execResize_cases ba s with ⟨hu, g⟩ | ⟨hu, ⟨hc, g⟩ | ⟨hc, g⟩⟩ <;> rw [g] at h <;> cases h
  · exact .inl ⟨hu, rfl⟩
  · exact .inr ⟨hu, .inl ⟨rfl, hc⟩⟩
  · exact .inr ⟨hu, .inr ⟨rfl, hc⟩⟩

theorem execFree_next {ba : Nat} {s t : State} (h : execFree ba s = .next t) :
    ¬s.usable ba ∧ t = s.setCode .badSlot ∨ s.usable ba ∧ t = (s.setValid ba false).setCode .ok := by
  rcases execFree_cases ba s with ⟨hu, g⟩ | ⟨hu, g⟩ <;> rw [g] at h <;> cases h
  · exact .inl ⟨hu, rfl⟩
  · exact .inr ⟨hu, rfl⟩

/-- What a command that normalises one slot can leave: the error untouched, or the slot's padding cleared, with `RES` and
the code `OK` or `NOT_FOUND`. -/
def Normalised (ba : Nat) (s t : State) : Prop :=
  ¬s.usable ba ∧ t = s.setCode .badSlot ∨
    (s.usable ba ∧ bytesUsed s ba ≤ s.cfg.capBytes) ∧
      ∃ r, t = ((normalize ba s).setRes r).setCode .ok ∨
        r = all1 s.cfg ∧ t = ((normalize ba s).setRes r).setCode .notFound

theorem execNormtail_next {ba : Nat} {s t : State} (h : execNormtail ba s = .next t) :
    ¬s.usable ba ∧ t = s.setCode .badSlot ∨
      (s.usable ba ∧ bytesUsed s ba ≤ s.cfg.capBytes) ∧ t = (normalize ba s).setCode .ok := by
  rcases execNormtail_cases ba s with ⟨hu, g⟩ | ⟨hu, ⟨hc, g⟩ | ⟨hc, g⟩⟩ <;> rw [g] at h <;> cases h
  · exact .inl ⟨hu, rfl⟩
  · exact .inr ⟨⟨hu, hc⟩, rfl⟩

theorem execCount_next {ba : Nat} {s t : State} (h : execCount ba s = .next t) :
    ¬s.usable ba ∧ t = s.setCode .badSlot ∨
      (s.usable ba ∧ bytesUsed s ba ≤ s.cfg.capBytes) ∧
        t = ((normalize ba s).setRes (cnt s ba (s.slot ba).len)).setCode .ok := by
  rcases execCount_cases ba s with ⟨hu, g⟩ | ⟨hu, ⟨hc, g⟩ | ⟨hc, g⟩⟩ <;> rw [g] at h <;> cases h
  · exact .inl ⟨hu, rfl⟩
  · exact .inr ⟨⟨hu, hc⟩, rfl⟩

theorem execCountn_next {ba : Nat} {s t : State} (h : execCountn ba s = .next t) : Normalised ba s t := by
  rcases checkUsed_cases ba s (if s.op = 0 then done ((normalize ba s).setRes 0)
    else
      let p := locate (normalize ba s) ba s.op
      if p.j = s.op then done ((normalize ba s).setRes p.i) else raiseNotFound (normalize ba s)) with
    ⟨hu, g⟩ | ⟨hu, ⟨hc, g⟩ | ⟨hc, g⟩⟩ <;> (have g : execCountn ba s = _ := g; rw [g] at h)
  · cases h; exact .inl ⟨hu, rfl⟩
  · cases h
  · refine .inr ⟨⟨hu, hc⟩, ?_⟩
    split at h
    · cases h; exact ⟨_, .inl rfl⟩
    · simp only at h
      split at h
      · cases h; exact ⟨_, .inl rfl⟩
      · cases h
        exact ⟨_, .inr ⟨rfl, by rw [(normalize_ramOnly ba s).eq]⟩⟩

theorem execFindlast_next {ba : Nat} {v : Bool} {s t : State} (h : execFindlast ba v s = .next t) :
    Normalised ba s t := by
  rcases execFindlast_cases ba v s with ⟨hu, g⟩ | ⟨hu, ⟨_, g⟩ | ⟨hc, ⟨i, _, _, _, g⟩ | ⟨_, g⟩⟩⟩ <;> rw [g] at h <;>
    cases h
  · exact .inl ⟨hu, rfl⟩
  · exact .inr ⟨⟨hu, hc⟩, i, .inl rfl⟩
  · exact .inr ⟨⟨hu, hc⟩, _, .inr ⟨rfl, rfl⟩⟩

theorem Normalised.ofNormtail {ba : Nat} {s t : State} (h : execNormtail ba s = .next t) : Normalised ba s t :=
  (execNormtail_next h).imp_right fun ⟨hu, ht⟩ => ⟨hu, s.res, .inl (by rw [ht, (normalize_ramOnly ba s).eq]; rfl)⟩

theorem Normalised.ofCount {ba : Nat} {s t : State} (h : execCount ba s = .next t) : Normalised ba s t :=
  (execCount_next h).imp_right fun ⟨hu, ht⟩ => ⟨hu, _, .inl ht⟩

/-- Two slots a pairwise command accepts, with RAM for their bytes. -/
abbrev PairOk (ka kb : Nat) (s : State) : Prop :=
  s.usable ka ∧ s.usable kb ∧ (s.slot ka).len = (s.slot kb).len ∧ (s.slot ka).endian = (s.slot kb).endian ∧
    bytesUsed s ka ≤ s.cfg.capBytes

/-- A pairwise command ended with an error, and only the code was written. -/
abbrev PairError (s t : State) : Prop :=
  ∃ c ∈ [Code.badSlot, .lengthMismatch, .endiannessMismatch], t = s.setCode c

theorem checkPair_next {ka kb : Nat} {s t u : State} (h : checkPair ka kb s (.next u) = .next t) :
    PairError s t ∨ PairOk ka kb s ∧ t = u := by
  rcases checkPairUsed_cases ka kb s (.next u) with
    ⟨_, g⟩ | ⟨hu, ⟨_, g⟩ | ⟨hl, ⟨_, g⟩ | ⟨he, ⟨_, g⟩ | ⟨hc, g⟩⟩⟩⟩ <;> rw [g] at h <;> cases h
  · exact .inl ⟨.badSlot, by simp, rfl⟩
  · exact .inl ⟨.lengthMismatch, by simp, rfl⟩
  · exact .inl ⟨.endiannessMismatch, by simp, rfl⟩
  · exact .inr ⟨⟨hu.1, hu.2, hl, he, hc⟩, rfl⟩

theorem normalizePair_ramOnly (ka kb : Nat) (s : State) : ramOnly s (normalizePair ka kb s) :=
  (normalize_ramOnly ka s).trans (normalize_ramOnly kb _)

/-- `CNTAND`, `CNTOR`, `CNTXOR`: both paddings, `RES` and the code. -/
theorem pairCount_next {f : Byte → Byte → Byte} {ka kb : Nat} {s t : State} (h : pairCount f ka kb s = .next t) :
    PairError s t ∨ PairOk ka kb s ∧ ∃ r, t = ((normalizePair ka kb s).setRes r).setCode .ok :=
  (checkPair_next h).imp_right fun ⟨hu, ht⟩ => ⟨hu, _, ht⟩

/-- `SUBSET`: both paddings, `AUX` and the code. -/
theorem execSubset_next {ka kb : Nat} {s t : State} (h : execSubset ka kb s = .next t) :
    PairError s t ∨ PairOk ka kb s ∧ ∃ x, t = ((normalizePair ka kb s).setAux x).setCode .ok :=
  (checkPair_next h).imp_right fun ⟨hu, ht⟩ => ⟨hu, _, ht⟩

/-- A counting command on compatible operands (44_reduction.md R173 to R175, R177). -/
theorem pairCount_compatible {f : Byte → Byte → Byte} {p : Bool → Bool → Bool} (hf : Bitwise f p)
    (hp : p false false = false) {ka kb : Nat} {s : State} (hw : s.wf) (ha : s.usable ka) (hb : s.usable kb)
    (hl : (s.slot ka).len = (s.slot kb).len) (he : (s.slot ka).endian = (s.slot kb).endian) :
    pairCount f ka kb s =
      .next (((normalizePair ka kb s).setRes (cntPair s ka kb p (s.slot ka).len)).setCode .ok) := by
  have hpc := normalizePair_paddingCleared (State.lt_length_of_valid ha.2) (State.lt_length_of_valid hb.2)
  rw [← fold_eq_cntPair hf hp hpc hl he]
  rcases checkPairUsed_cases ka kb s (done ((normalizePair ka kb s).setRes (fold (normalizePair ka kb s) ka kb f))) with
    ⟨h, _⟩ | ⟨_, ⟨h, _⟩ | ⟨_, ⟨h, _⟩ | ⟨_, ⟨h, _⟩ | ⟨_, h⟩⟩⟩⟩
  · exact absurd ⟨ha, hb⟩ h
  · exact absurd hl h
  · exact absurd he h
  · exact absurd (hw.bytesUsed_le ka) (Nat.not_le.2 h)
  · exact h

/-- `SUBSET` on compatible operands (44_reduction.md R176). -/
theorem execSubset_compatible {ka kb : Nat} {s : State} (hw : s.wf) (ha : s.usable ka) (hb : s.usable kb)
    (hl : (s.slot ka).len = (s.slot kb).len) (he : (s.slot ka).endian = (s.slot kb).endian) :
    execSubset ka kb s =
      .next (((normalizePair ka kb s).setAux
        (boolByte (subsetFrom (normalizePair ka kb s) ka kb (bytesUsed s ka) 0))).setCode .ok) := by
  rcases checkPairUsed_cases ka kb s (done ((normalizePair ka kb s).setAux
      (boolByte (subsetFrom (normalizePair ka kb s) ka kb (bytesUsed s ka) 0)))) with
    ⟨h, _⟩ | ⟨_, ⟨h, _⟩ | ⟨_, ⟨h, _⟩ | ⟨_, ⟨h, _⟩ | ⟨_, h⟩⟩⟩⟩
  · exact absurd ⟨ha, hb⟩ h
  · exact absurd hl h
  · exact absurd he h
  · exact absurd (hw.bytesUsed_le ka) (Nat.not_le.2 h)
  · exact h

/-! ### What no command changes -/

/-- The fields a command that goes on leaves alone: the parameters, `OP`, `CMD`, `STATUS.FATAL`, and the model's own. -/
structure SameElse (s t : State) : Prop where
  cfg : t.cfg = s.cfg
  op : t.op = s.op
  cmd : t.cmd = s.cmd
  fatal : t.fatal = s.fatal
  draw : t.draw = s.draw
  hostOps : t.hostOps = s.hostOps
  portOut : t.portOut = s.portOut

theorem ramOnly.sameElse {s u : State} (h : ramOnly s u) (r : Nat) (x : Byte) (c : Code) :
    SameElse s (((u.setRes r).setAux x).setCode c) := by
  rw [h.eq]; exact ⟨rfl, rfl, rfl, rfl, rfl, rfl, rfl⟩

theorem Normalised.sameElse {k : Nat} {s t : State} (h : Normalised k s t) : SameElse s t := by
  rcases h with ⟨-, rfl⟩ | ⟨-, r, rfl | ⟨-, rfl⟩⟩
  · exact ⟨rfl, rfl, rfl, rfl, rfl, rfl, rfl⟩
  · exact (normalize_ramOnly k s).sameElse r (normalize k s).aux .ok
  · exact (normalize_ramOnly k s).sameElse r (normalize k s).aux .notFound

theorem exec_sameElse {i : Instr} {s t : State} (h : exec i s = .next t) : SameElse s t := by
  have same : ∀ r x c, SameElse s (((s.setRes r).setAux x).setCode c) := (ramOnly.refl s).sameElse
  cases i with
  | nop => cases h; exact ⟨rfl, rfl, rfl, rfl, rfl, rfl, rfl⟩
  | decode e => cases h; exact ⟨rfl, rfl, rfl, rfl, rfl, rfl, rfl⟩
  | bytesfor => cases h; exact ⟨rfl, rfl, rfl, rfl, rfl, rfl, rfl⟩
  | popb b => cases h; exact ⟨rfl, rfl, rfl, rfl, rfl, rfl, rfl⟩
  | nibswap b => cases h; exact ⟨rfl, rfl, rfl, rfl, rfl, rfl, rfl⟩
  | create a e =>
    rcases execCreate_next h with ⟨-, rfl⟩ | ⟨-, ⟨rfl, -⟩ | ⟨rfl, -⟩⟩ <;> exact ⟨rfl, rfl, rfl, rfl, rfl, rfl, rfl⟩
  | resize a =>
    rcases execResize_next h with ⟨-, rfl⟩ | ⟨-, ⟨rfl, -⟩ | ⟨rfl, -⟩⟩ <;> exact ⟨rfl, rfl, rfl, rfl, rfl, rfl, rfl⟩
  | free a => rcases execFree_next h with ⟨-, rfl⟩ | ⟨-, rfl⟩ <;> exact ⟨rfl, rfl, rfl, rfl, rfl, rfl, rfl⟩
  | wrbyte a b =>
    rcases execWrbyte_next h with ⟨-, rfl⟩ | ⟨-, ⟨rfl, -⟩ | ⟨rfl, -⟩⟩ <;> exact ⟨rfl, rfl, rfl, rfl, rfl, rfl, rfl⟩
  | rdbyte a =>
    rcases execRdbyte_next h with ⟨-, rfl⟩ | ⟨-, ⟨rfl, -⟩ | ⟨rfl, -⟩⟩ <;> exact ⟨rfl, rfl, rfl, rfl, rfl, rfl, rfl⟩
  | getbit a =>
    rcases execGetbit_next h with ⟨-, rfl⟩ | ⟨-, ⟨rfl, -⟩ | ⟨rfl, -⟩⟩ <;> exact ⟨rfl, rfl, rfl, rfl, rfl, rfl, rfl⟩
  | setbit a v =>
    rcases execSetbit_next h with ⟨-, rfl⟩ | ⟨-, ⟨rfl, -⟩ | ⟨rfl, -⟩⟩ <;> exact ⟨rfl, rfl, rfl, rfl, rfl, rfl, rfl⟩
  | normtail a => exact (Normalised.ofNormtail h).sameElse
  | count a => exact (Normalised.ofCount h).sameElse
  | countn a => exact (execCountn_next h).sameElse
  | findlast a v => exact (execFindlast_next h).sameElse
  | cntand a b | cntor a b | cntxor a b =>
    rcases pairCount_next h with ⟨c, -, rfl⟩ | ⟨-, r, rfl⟩
    · exact same s.res s.aux c
    · exact (normalizePair_ramOnly a b s).sameElse r (normalizePair a b s).aux .ok
  | subset a b =>
    rcases execSubset_next h with ⟨c, -, rfl⟩ | ⟨-, x, rfl⟩
    · exact same s.res s.aux c
    · exact (normalizePair_ramOnly a b s).sameElse (normalizePair a b s).res x .ok

end Sys2Proof.Machine
end

