-- ==== Sys2Proof/Laws/PerInstr.lean ====
section
/-! SUPPORT. Statements made per instruction. `EncodeFits`: the word of a well-formed command has the fixed bits of its row
of 30_encoding.md R75, and no others than its own fields besides. -/

namespace Sys2Proof.Laws.EncodeFits

/-- The mask and match of a command's row, 30_encoding.md R75. -/
def fixedBits : Instr → CmdWord × CmdWord
  | .nop => (0xFFFFFFFF#32, 0x00000000#32)
  | .decode _ => (0xFFFEFFFF#32, 0x00000001#32)
  | .bytesfor => (0xFFFFFFFF#32, 0x00000002#32)
  | .popb _ => (0x00FFFFFF#32, 0x00000003#32)
  | .nibswap _ => (0x00FFFFFF#32, 0x00000004#32)
  | .create _ _ => (0xFFFEF0FF#32, 0x00000010#32)
  | .resize _ => (0xFFFFF0FF#32, 0x00000011#32)
  | .free _ => (0xFFFFF0FF#32, 0x00000012#32)
  | .wrbyte _ _ => (0x00FFF0FF#32, 0x00000013#32)
  | .rdbyte _ => (0xFFFFF0FF#32, 0x00000014#32)
  | .getbit _ => (0xFFFFF0FF#32, 0x00000020#32)
  | .setbit _ _ => (0xFFFDF0FF#32, 0x00000021#32)
  | .normtail _ => (0xFFFFF0FF#32, 0x00000022#32)
  | .count _ => (0xFFFFF0FF#32, 0x00000030#32)
  | .countn _ => (0xFFFFF0FF#32, 0x00000031#32)
  | .findlast _ _ => (0xFFFDF0FF#32, 0x00000032#32)
  | .cntand _ _ => (0xFFFF00FF#32, 0x00000040#32)
  | .cntor _ _ => (0xFFFF00FF#32, 0x00000041#32)
  | .cntxor _ _ => (0xFFFF00FF#32, 0x00000042#32)
  | .subset _ _ => (0xFFFF00FF#32, 0x00000043#32)

/-- A well-formed command's word has its row's fixed bits. -/
def Statement (i : Instr) : Prop := i.wf = true → encode i &&& (fixedBits i).1 = (fixedBits i).2

theorem lt_of_slotFieldOk {k : Nat} (h : slotFieldOk k = true) : k < 16 := of_decide_eq_true h

theorem nop : Statement .nop := fun _ =>
  assemble_and_mask (by decide) (by decide) _ _ _ (by simp only [fixedBits]; rfl)
    (.inl rfl) (.inl rfl) (.inl rfl) (.inl rfl) (.inl rfl)

theorem decode (e : Endian) : Statement (.decode e) := fun _ =>
  assemble_and_mask (by decide) (by decide) _ _ _ (by simp only [fixedBits]; rfl)
    (.inl rfl) (.inl rfl) (.inr (by simp only [fixedBits]; rfl)) (.inl rfl) (.inl rfl)

theorem bytesfor : Statement .bytesfor := fun _ =>
  assemble_and_mask (by decide) (by decide) _ _ _ (by simp only [fixedBits]; rfl)
    (.inl rfl) (.inl rfl) (.inl rfl) (.inl rfl) (.inl rfl)

theorem popb (imm8 : Byte) : Statement (.popb imm8) := fun _ =>
  assemble_and_mask (by decide) (by decide) _ _ _ (by simp only [fixedBits]; rfl)
    (.inl rfl) (.inl rfl) (.inl rfl) (.inl rfl) (.inr (by simp only [fixedBits]; rfl))

theorem nibswap (imm8 : Byte) : Statement (.nibswap imm8) := fun _ =>
  assemble_and_mask (by decide) (by decide) _ _ _ (by simp only [fixedBits]; rfl)
    (.inl rfl) (.inl rfl) (.inl rfl) (.inl rfl) (.inr (by simp only [fixedBits]; rfl))

theorem create (ba : Nat) (e : Endian) : Statement (.create ba e) := fun h =>
  assemble_and_mask (lt_of_slotFieldOk h) (by decide) _ _ _ (by simp only [fixedBits]; rfl)
    (.inr (by simp only [fixedBits]; rfl)) (.inl rfl) (.inr (by simp only [fixedBits]; rfl)) (.inl rfl) (.inl rfl)

theorem resize (ba : Nat) : Statement (.resize ba) := fun h =>
  assemble_and_mask (lt_of_slotFieldOk h) (by decide) _ _ _ (by simp only [fixedBits]; rfl)
    (.inr (by simp only [fixedBits]; rfl)) (.inl rfl) (.inl rfl) (.inl rfl) (.inl rfl)

theorem free (ba : Nat) : Statement (.free ba) := fun h =>
  assemble_and_mask (lt_of_slotFieldOk h) (by decide) _ _ _ (by simp only [fixedBits]; rfl)
    (.inr (by simp only [fixedBits]; rfl)) (.inl rfl) (.inl rfl) (.inl rfl) (.inl rfl)

theorem wrbyte (ba : Nat) (imm8 : Byte) : Statement (.wrbyte ba imm8) := fun h =>
  assemble_and_mask (lt_of_slotFieldOk h) (by decide) _ _ _ (by simp only [fixedBits]; rfl)
    (.inr (by simp only [fixedBits]; rfl)) (.inl rfl) (.inl rfl) (.inl rfl) (.inr (by simp only [fixedBits]; rfl))

theorem rdbyte (ba : Nat) : Statement (.rdbyte ba) := fun h =>
  assemble_and_mask (lt_of_slotFieldOk h) (by decide) _ _ _ (by simp only [fixedBits]; rfl)
    (.inr (by simp only [fixedBits]; rfl)) (.inl rfl) (.inl rfl) (.inl rfl) (.inl rfl)

theorem getbit (ba : Nat) : Statement (.getbit ba) := fun h =>
  assemble_and_mask (lt_of_slotFieldOk h) (by decide) _ _ _ (by simp only [fixedBits]; rfl)
    (.inr (by simp only [fixedBits]; rfl)) (.inl rfl) (.inl rfl) (.inl rfl) (.inl rfl)

theorem setbit (ba : Nat) (v : Bool) : Statement (.setbit ba v) := fun h =>
  assemble_and_mask (lt_of_slotFieldOk h) (by decide) _ _ _ (by simp only [fixedBits]; rfl)
    (.inr (by simp only [fixedBits]; rfl)) (.inl rfl) (.inl rfl) (.inr (by simp only [fixedBits]; rfl)) (.inl rfl)

theorem normtail (ba : Nat) : Statement (.normtail ba) := fun h =>
  assemble_and_mask (lt_of_slotFieldOk h) (by decide) _ _ _ (by simp only [fixedBits]; rfl)
    (.inr (by simp only [fixedBits]; rfl)) (.inl rfl) (.inl rfl) (.inl rfl) (.inl rfl)

theorem count (ba : Nat) : Statement (.count ba) := fun h =>
  assemble_and_mask (lt_of_slotFieldOk h) (by decide) _ _ _ (by simp only [fixedBits]; rfl)
    (.inr (by simp only [fixedBits]; rfl)) (.inl rfl) (.inl rfl) (.inl rfl) (.inl rfl)

theorem countn (ba : Nat) : Statement (.countn ba) := fun h =>
  assemble_and_mask (lt_of_slotFieldOk h) (by decide) _ _ _ (by simp only [fixedBits]; rfl)
    (.inr (by simp only [fixedBits]; rfl)) (.inl rfl) (.inl rfl) (.inl rfl) (.inl rfl)

theorem findlast (ba : Nat) (v : Bool) : Statement (.findlast ba v) := fun h =>
  assemble_and_mask (lt_of_slotFieldOk h) (by decide) _ _ _ (by simp only [fixedBits]; rfl)
    (.inr (by simp only [fixedBits]; rfl)) (.inl rfl) (.inl rfl) (.inr (by simp only [fixedBits]; rfl)) (.inl rfl)

theorem cntand (ba : Nat) (bb : Nat) : Statement (.cntand ba bb) := fun h =>
  have h := Bool.and_eq_true_iff.1 h
  assemble_and_mask (lt_of_slotFieldOk h.1) (lt_of_slotFieldOk h.2) _ _ _ (by simp only [fixedBits]; rfl)
    (.inr (by simp only [fixedBits]; rfl)) (.inr (by simp only [fixedBits]; rfl)) (.inl rfl) (.inl rfl) (.inl rfl)

theorem cntor (ba : Nat) (bb : Nat) : Statement (.cntor ba bb) := fun h =>
  have h := Bool.and_eq_true_iff.1 h
  assemble_and_mask (lt_of_slotFieldOk h.1) (lt_of_slotFieldOk h.2) _ _ _ (by simp only [fixedBits]; rfl)
    (.inr (by simp only [fixedBits]; rfl)) (.inr (by simp only [fixedBits]; rfl)) (.inl rfl) (.inl rfl) (.inl rfl)

theorem cntxor (ba : Nat) (bb : Nat) : Statement (.cntxor ba bb) := fun h =>
  have h := Bool.and_eq_true_iff.1 h
  assemble_and_mask (lt_of_slotFieldOk h.1) (lt_of_slotFieldOk h.2) _ _ _ (by simp only [fixedBits]; rfl)
    (.inr (by simp only [fixedBits]; rfl)) (.inr (by simp only [fixedBits]; rfl)) (.inl rfl) (.inl rfl) (.inl rfl)

theorem subset (ba : Nat) (bb : Nat) : Statement (.subset ba bb) := fun h =>
  have h := Bool.and_eq_true_iff.1 h
  assemble_and_mask (lt_of_slotFieldOk h.1) (lt_of_slotFieldOk h.2) _ _ _ (by simp only [fixedBits]; rfl)
    (.inr (by simp only [fixedBits]; rfl)) (.inr (by simp only [fixedBits]; rfl)) (.inl rfl) (.inl rfl) (.inl rfl)

end Sys2Proof.Laws.EncodeFits
end

