-- ==== Sys2Proof/Laws/Step.lean ====
section
/-! SUPPORT. What a step can do, said once: one lemma per kind of host operation. -/

namespace Sys2Proof.Machine

theorem step_idle {s : State} (h : s.hostOps = []) : step s = .next s := by
  simp only [step, serveNext, h]

theorem step_serve {s : State} {o : HostOp} {rest : List HostOp} (h : s.hostOps = o :: rest) :
    step s = serve o (s.dequeue rest) := by
  simp only [step, serveNext, h]

/-- A write of a register, by the register's number (10_state.md R21, R35). -/
theorem hostWrite_cases (r v : Nat) (s : State) :
    regWidth s.cfg r = none ∧ hostWrite r v s = .refused (.unmappedRegister r) ∨
      ∃ width, regWidth s.cfg r = some width ∧
        (2 ^ width ≤ v ∧ hostWrite r v s = .refused (.valueTooWide r v) ∨
          v < 2 ^ width ∧
            (r = 0 ∧ hostWrite r v s = .next (s.setOp v) ∨
              r = 1 ∧ (s.fatal = true ∧ hostWrite r v s = .next s ∨
                s.fatal = false ∧ hostWrite r v s = runCommand (BitVec.ofNat 32 v) s) ∨
              2 ≤ r ∧ hostWrite r v s = .next s)) := by
  unfold hostWrite
  cases hw : regWidth s.cfg r with
  | none => exact .inl ⟨rfl, rfl⟩
  | some width =>
    refine .inr ⟨width, rfl, ?_⟩
    by_cases hv : 2 ^ width ≤ v
    · exact .inl ⟨hv, if_pos hv⟩
    · refine .inr ⟨Nat.not_le.1 hv, ?_⟩
      simp only [if_neg hv]
      match r with
      | 0 => exact .inl ⟨rfl, rfl⟩
      | 1 =>
        refine .inr (.inl ⟨rfl, ?_⟩)
        cases hf : s.fatal with
        | true => exact .inl ⟨rfl, rfl⟩
        | false => exact .inr ⟨rfl, rfl⟩
      | r + 2 => exact .inr (.inr ⟨by omega, rfl⟩)

theorem runCommand_cases (w : CmdWord) (s : State) :
    (∃ i, decode w = .ok i ∧ runCommand w s = exec i (s.setCmd w)) ∨
      (∀ i, decode w ≠ .ok i) ∧ runCommand w s = .next ((s.setCmd w).setCode .illegalCommand) := by
  unfold runCommand
  cases hd : decode w with
  | ok i => exact .inl ⟨i, rfl, rfl⟩
  | error e => exact .inr ⟨fun i h => (by cases h), rfl⟩

theorem step_write_op {s : State} {v : Nat} {rest : List HostOp} (h : s.hostOps = .write 0 v :: rest)
    (hv : v < 2 ^ s.cfg.idxw) : step s = .next ((s.dequeue rest).setOp v) := by
  rw [step_serve h]
  exact if_neg (Nat.not_le.2 hv)

theorem step_write_cmd {s : State} {v : Nat} {rest : List HostOp} (h : s.hostOps = .write 1 v :: rest)
    (hv : v < 2 ^ 32) :
    step s = if s.fatal then .next (s.dequeue rest) else runCommand (BitVec.ofNat 32 v) (s.dequeue rest) := by
  rw [step_serve h]
  exact if_neg (Nat.not_le.2 hv)

theorem step_read {s : State} {r x : Nat} {rest : List HostOp} (h : s.hostOps = .read r :: rest)
    (hr : regRead s r = some x) : step s = .next ((s.dequeue rest).setPortOut x) := by
  rw [step_serve h]
  simp only [serve, hostRead, show regRead (s.dequeue rest) r = regRead s r from rfl, hr]

/-- Every step that leaves a state, fatal or not, by what the host asked for. `u` is the state with the operation taken
off the queue. -/
theorem step_cases {s t : State} (h : step s = .next t ∨ step s = .fault (.fatal t)) :
    s.hostOps = [] ∧ t = s ∨
      ∃ o rest, s.hostOps = o :: rest ∧
        (o = .reset ∧ t = State.resetOf s.cfg (s.draw + 1) rest ∨
          (∃ r v, o = .read r ∧ regRead (s.dequeue rest) r = some v ∧ t = (s.dequeue rest).setPortOut v) ∨
          (∃ v, o = .write 0 v ∧ v < 2 ^ s.cfg.idxw ∧ t = (s.dequeue rest).setOp v) ∨
          (∃ v, o = .write 1 v ∧ s.fatal = false ∧
            ((∃ i, decode (BitVec.ofNat 32 v) = .ok i ∧
                (exec i ((s.dequeue rest).setCmd (BitVec.ofNat 32 v)) = .next t ∨
                  exec i ((s.dequeue rest).setCmd (BitVec.ofNat 32 v)) = .fault (.fatal t))) ∨
              t = ((s.dequeue rest).setCmd (BitVec.ofNat 32 v)).setCode .illegalCommand)) ∨
          (∃ r v, o = .write r v ∧ (r = 1 → s.fatal = true) ∧ t = s.dequeue rest)) := by
  cases hops : s.hostOps with
  | nil =>
    rw [step_idle hops] at h
    rcases h with h | h <;> cases h
    exact .inl ⟨rfl, rfl⟩
  | cons o rest =>
    refine .inr ⟨o, rest, rfl, ?_⟩
    rw [step_serve hops] at h
    cases o with
    | reset => rcases h with h | h <;> cases h; exact .inl ⟨rfl, rfl⟩
    | read r =>
      simp only [serve, hostRead] at h
      cases hr : regRead (s.dequeue rest) r with
      | none => rw [hr] at h; rcases h with h | h <;> cases h
      | some v =>
        rw [hr] at h
        rcases h with h | h <;> cases h
        exact .inr (.inl ⟨r, v, rfl, hr, rfl⟩)
    | write r v =>
      simp only [serve] at h
      rcases hostWrite_cases r v (s.dequeue rest) with ⟨-, g⟩ | ⟨width, hw, ⟨-, g⟩ | ⟨hv, ⟨rfl, g⟩ | ⟨rfl, ⟨hf, g⟩ | ⟨hf, g⟩⟩ |
        ⟨hr, g⟩⟩⟩ <;> rw [g] at h
      · rcases h with h | h <;> cases h
      · rcases h with h | h <;> cases h
      · rcases h with h | h <;> cases h
        cases hw
        exact .inr (.inr (.inl ⟨v, rfl, hv, rfl⟩))
      · rcases h with h | h <;> cases h
        exact .inr (.inr (.inr (.inr ⟨1, v, rfl, fun _ => hf, rfl⟩)))
      · refine .inr (.inr (.inr (.inl ⟨v, rfl, hf, ?_⟩)))
        rcases runCommand_cases (BitVec.ofNat 32 v) (s.dequeue rest) with ⟨i, hd, g⟩ | ⟨-, g⟩ <;> rw [g] at h
        · exact .inl ⟨i, hd, h⟩
        · rcases h with h | h <;> cases h
          exact .inr rfl
      · rcases h with h | h <;> cases h
        exact .inr (.inr (.inr (.inr ⟨r, v, rfl, fun h1 => by omega, rfl⟩)))

end Sys2Proof.Machine
end

