-- ==== Sys2Proof/Tests/Slice0.lean ====
section
/-! SUPPORT. The model's own tests. Expected values are those of spec/95_test_vectors.md (its section is named at each test)
and of the tables and examples of the rules; none was produced by the model. Then one witness per obligation that has
hypotheses: a concrete state and operands that meet them. -/

namespace Sys2Proof.Tests

open Sys2Proof Sys2Proof.Machine

/-! ### Helpers -/

/-- `r` is a next state of which `p` holds. -/
def ends (r : Result) (p : State → Bool) : Bool :=
  match r with
  | .next t => p t
  | _ => false

theorem ends_spec {r : Result} {p : State → Bool} (h : ends r p = true) : ∃ t, r = .next t ∧ p t = true := by
  cases r with
  | next t => exact ⟨t, rfl, h⟩
  | fault f => cases h
  | refused f => cases h

/-- `r` is the fatal fault, leaving a state of which `p` holds. -/
def endsFatal (r : Result) (p : State → Bool) : Bool :=
  match r with
  | .fault (.fatal t) => p t
  | _ => false

/-- A valid slot whose first bytes are `bytes`; no other byte was written. -/
def buf (e : Endian) (len : Nat) (bytes : List Byte) : Slot :=
  { len := len, endian := e, valid := true, ram := (List.range bytes.length).zip bytes }

/-- The reset state with two buffers and `OP`. -/
def st (a b : Slot) (op : Nat) : State := { State.reset with slots := [a, b], op := op }

/-- One step: the host writes the word `w` to `CMD`. -/
def run (w : Nat) (s : State) : Result := step (s.withFetchWord 32 w)

/-- One step: the host does `o`. -/
def host (o : HostOp) (s : State) : Result := step { s with hostOps := [o] }

/-- The first `n` bytes of slot `k`. -/
def bytes (s : State) (k n : Nat) : List Byte := (List.range n).map (ramRead s k)

def noBuf : Slot := Slot.vacant

/-- A non-validating BVE. -/
def lax (s : State) : State := { s with cfg := { s.cfg with validating := false } }

/-! ### Well-formedness: one ill-formed term for each check (30_encoding.md R71: a slot field has 4 bits) -/

theorem test_wf_refuses_slot_16 :
    [Instr.create 16 .big, .resize 16, .free 16, .wrbyte 16 0xFF#8, .rdbyte 16, .getbit 16, .setbit 16 true, .normtail 16,
      .count 16, .countn 16, .findlast 16 false, .cntand 16 0, .cntand 0 16, .cntor 16 0, .cntor 0 16, .cntxor 16 0,
      .cntxor 0 16, .subset 16 0, .subset 0 16].all (fun i => !i.wf) = true := by decide

theorem test_wf_accepts_slot_15 : (Instr.subset 15 15).wf = true ∧ (Instr.create 15 .big).wf = true := by decide

/-! ### Decoding: 95 section 2.1, a word of every command -/

theorem test_decode_pure_words :
    decode 0x00000000#32 = .ok .nop ∧ decode 0x00000001#32 = .ok (.decode .little) ∧
      decode 0x00010001#32 = .ok (.decode .big) ∧ decode 0x00000002#32 = .ok .bytesfor ∧
      decode 0xB7000003#32 = .ok (.popb 0xB7#8) ∧ decode 0x1F000004#32 = .ok (.nibswap 0x1F#8) :=
  ⟨rfl, rfl, rfl, rfl, rfl, rfl⟩

theorem test_decode_buffer_words :
    decode 0x00010010#32 = .ok (.create 0 .big) ∧ decode 0x00000110#32 = .ok (.create 1 .little) ∧
      decode 0x00000111#32 = .ok (.resize 1) ∧ decode 0x00000112#32 = .ok (.free 1) ∧
      decode 0xD0000013#32 = .ok (.wrbyte 0 0xD0#8) ∧ decode 0x00000114#32 = .ok (.rdbyte 1) ∧
      decode 0x00010F10#32 = .ok (.create 15 .big) := ⟨rfl, rfl, rfl, rfl, rfl, rfl, rfl⟩

theorem test_decode_bit_and_search_words :
    decode 0x00000120#32 = .ok (.getbit 1) ∧ decode 0x00020121#32 = .ok (.setbit 1 true) ∧
      decode 0x00000021#32 = .ok (.setbit 0 false) ∧ decode 0x00000122#32 = .ok (.normtail 1) ∧
      decode 0x00000130#32 = .ok (.count 1) ∧ decode 0x00000031#32 = .ok (.countn 0) ∧
      decode 0x00020032#32 = .ok (.findlast 0 true) ∧ decode 0x00000132#32 = .ok (.findlast 1 false) :=
  ⟨rfl, rfl, rfl, rfl, rfl, rfl, rfl, rfl⟩

theorem test_decode_pair_words :
    decode 0x00001040#32 = .ok (.cntand 0 1) ∧ decode 0x00000141#32 = .ok (.cntor 1 0) ∧
      decode 0x00001042#32 = .ok (.cntxor 0 1) ∧ decode 0x00000143#32 = .ok (.subset 1 0) ∧
      decode 0x0000EF43#32 = .ok (.subset 15 14) := ⟨rfl, rfl, rfl, rfl, rfl⟩

theorem test_decode_rejects_unassigned_opcodes :
    decode 0x00000005#32 = .error (.unassignedOpcode 0x05#8) ∧ decode 0x000000FF#32 = .error (.unassignedOpcode 0xFF#8) ∧
      decode 0x00000015#32 = .error (.unassignedOpcode 0x15#8) ∧ decode 0x00000044#32 = .error (.unassignedOpcode 0x44#8) :=
  ⟨rfl, rfl, rfl, rfl⟩

theorem test_decode_rejects_unused_bits :
    [0x01000000, 0x00000100, 0x00040020, 0x00800020, 0x00010020, 0x00020020, 0x00001020, 0x00020001, 0x00000101,
      0x00010002, 0x00010003, 0xD0001013, 0x00020010, 0x00010021, 0x00010032, 0x00021040, 0x01000043].all
      (fun w => (decodeTableWord 32 w).isNone) = true := by decide

theorem test_decode_names_the_unused_bits :
    decode 0x00040020#32 = .error (.unusedBitsSet 0x00040000#32) ∧
      decode 0x00000100#32 = .error (.unusedBitsSet 0x00000100#32) := ⟨rfl, rfl⟩

/-! ### The printed tables: 42_popcount.md R140, 45_nibble_swap.md R190 -/

def popcountTableLow : List Nat :=
  [0, 1, 1, 2, 1, 2, 2, 3, 1, 2, 2, 3, 2, 3, 3, 4] ++
    [1, 2, 2, 3, 2, 3, 3, 4, 2, 3, 3, 4, 3, 4, 4, 5] ++
    [1, 2, 2, 3, 2, 3, 3, 4, 2, 3, 3, 4, 3, 4, 4, 5] ++
    [2, 3, 3, 4, 3, 4, 4, 5, 3, 4, 4, 5, 4, 5, 5, 6] ++
    [1, 2, 2, 3, 2, 3, 3, 4, 2, 3, 3, 4, 3, 4, 4, 5] ++
    [2, 3, 3, 4, 3, 4, 4, 5, 3, 4, 4, 5, 4, 5, 5, 6] ++
    [2, 3, 3, 4, 3, 4, 4, 5, 3, 4, 4, 5, 4, 5, 5, 6] ++
    [3, 4, 4, 5, 4, 5, 5, 6, 4, 5, 5, 6, 5, 6, 6, 7]

theorem test_popcountTable_low :
    (List.range 128).map (fun n => popcount (BitVec.ofNat 8 (0 + n))) = popcountTableLow := by decide +kernel

def popcountTableHigh : List Nat :=
  [1, 2, 2, 3, 2, 3, 3, 4, 2, 3, 3, 4, 3, 4, 4, 5] ++
    [2, 3, 3, 4, 3, 4, 4, 5, 3, 4, 4, 5, 4, 5, 5, 6] ++
    [2, 3, 3, 4, 3, 4, 4, 5, 3, 4, 4, 5, 4, 5, 5, 6] ++
    [3, 4, 4, 5, 4, 5, 5, 6, 4, 5, 5, 6, 5, 6, 6, 7] ++
    [2, 3, 3, 4, 3, 4, 4, 5, 3, 4, 4, 5, 4, 5, 5, 6] ++
    [3, 4, 4, 5, 4, 5, 5, 6, 4, 5, 5, 6, 5, 6, 6, 7] ++
    [3, 4, 4, 5, 4, 5, 5, 6, 4, 5, 5, 6, 5, 6, 6, 7] ++
    [4, 5, 5, 6, 5, 6, 6, 7, 5, 6, 6, 7, 6, 7, 7, 8]

theorem test_popcountTable_high :
    (List.range 128).map (fun n => popcount (BitVec.ofNat 8 (128 + n))) = popcountTableHigh := by decide +kernel

def nibbleTableLow : List Byte :=
  [0x00#8, 0x10#8, 0x20#8, 0x30#8, 0x40#8, 0x50#8, 0x60#8, 0x70#8, 0x80#8, 0x90#8, 0xA0#8, 0xB0#8, 0xC0#8, 0xD0#8, 0xE0#8, 0xF0#8] ++
    [0x01#8, 0x11#8, 0x21#8, 0x31#8, 0x41#8, 0x51#8, 0x61#8, 0x71#8, 0x81#8, 0x91#8, 0xA1#8, 0xB1#8, 0xC1#8, 0xD1#8, 0xE1#8, 0xF1#8] ++
    [0x02#8, 0x12#8, 0x22#8, 0x32#8, 0x42#8, 0x52#8, 0x62#8, 0x72#8, 0x82#8, 0x92#8, 0xA2#8, 0xB2#8, 0xC2#8, 0xD2#8, 0xE2#8, 0xF2#8] ++
    [0x03#8, 0x13#8, 0x23#8, 0x33#8, 0x43#8, 0x53#8, 0x63#8, 0x73#8, 0x83#8, 0x93#8, 0xA3#8, 0xB3#8, 0xC3#8, 0xD3#8, 0xE3#8, 0xF3#8] ++
    [0x04#8, 0x14#8, 0x24#8, 0x34#8, 0x44#8, 0x54#8, 0x64#8, 0x74#8, 0x84#8, 0x94#8, 0xA4#8, 0xB4#8, 0xC4#8, 0xD4#8, 0xE4#8, 0xF4#8] ++
    [0x05#8, 0x15#8, 0x25#8, 0x35#8, 0x45#8, 0x55#8, 0x65#8, 0x75#8, 0x85#8, 0x95#8, 0xA5#8, 0xB5#8, 0xC5#8, 0xD5#8, 0xE5#8, 0xF5#8] ++
    [0x06#8, 0x16#8, 0x26#8, 0x36#8, 0x46#8, 0x56#8, 0x66#8, 0x76#8, 0x86#8, 0x96#8, 0xA6#8, 0xB6#8, 0xC6#8, 0xD6#8, 0xE6#8, 0xF6#8] ++
    [0x07#8, 0x17#8, 0x27#8, 0x37#8, 0x47#8, 0x57#8, 0x67#8, 0x77#8, 0x87#8, 0x97#8, 0xA7#8, 0xB7#8, 0xC7#8, 0xD7#8, 0xE7#8, 0xF7#8]

theorem test_nibbleTable_low :
    (List.range 128).map (fun n => nibbleSwap (BitVec.ofNat 8 (0 + n))) = nibbleTableLow := by decide +kernel

def nibbleTableHigh : List Byte :=
  [0x08#8, 0x18#8, 0x28#8, 0x38#8, 0x48#8, 0x58#8, 0x68#8, 0x78#8, 0x88#8, 0x98#8, 0xA8#8, 0xB8#8, 0xC8#8, 0xD8#8, 0xE8#8, 0xF8#8] ++
    [0x09#8, 0x19#8, 0x29#8, 0x39#8, 0x49#8, 0x59#8, 0x69#8, 0x79#8, 0x89#8, 0x99#8, 0xA9#8, 0xB9#8, 0xC9#8, 0xD9#8, 0xE9#8, 0xF9#8] ++
    [0x0A#8, 0x1A#8, 0x2A#8, 0x3A#8, 0x4A#8, 0x5A#8, 0x6A#8, 0x7A#8, 0x8A#8, 0x9A#8, 0xAA#8, 0xBA#8, 0xCA#8, 0xDA#8, 0xEA#8, 0xFA#8] ++
    [0x0B#8, 0x1B#8, 0x2B#8, 0x3B#8, 0x4B#8, 0x5B#8, 0x6B#8, 0x7B#8, 0x8B#8, 0x9B#8, 0xAB#8, 0xBB#8, 0xCB#8, 0xDB#8, 0xEB#8, 0xFB#8] ++
    [0x0C#8, 0x1C#8, 0x2C#8, 0x3C#8, 0x4C#8, 0x5C#8, 0x6C#8, 0x7C#8, 0x8C#8, 0x9C#8, 0xAC#8, 0xBC#8, 0xCC#8, 0xDC#8, 0xEC#8, 0xFC#8] ++
    [0x0D#8, 0x1D#8, 0x2D#8, 0x3D#8, 0x4D#8, 0x5D#8, 0x6D#8, 0x7D#8, 0x8D#8, 0x9D#8, 0xAD#8, 0xBD#8, 0xCD#8, 0xDD#8, 0xED#8, 0xFD#8] ++
    [0x0E#8, 0x1E#8, 0x2E#8, 0x3E#8, 0x4E#8, 0x5E#8, 0x6E#8, 0x7E#8, 0x8E#8, 0x9E#8, 0xAE#8, 0xBE#8, 0xCE#8, 0xDE#8, 0xEE#8, 0xFE#8] ++
    [0x0F#8, 0x1F#8, 0x2F#8, 0x3F#8, 0x4F#8, 0x5F#8, 0x6F#8, 0x7F#8, 0x8F#8, 0x9F#8, 0xAF#8, 0xBF#8, 0xCF#8, 0xDF#8, 0xEF#8, 0xFF#8]

theorem test_nibbleTable_high :
    (List.range 128).map (fun n => nibbleSwap (BitVec.ofNat 8 (128 + n))) = nibbleTableHigh := by decide +kernel

/-! ### One step of each command. The word is written to `CMD`; see 95 sections 2.2 to 2.8. -/

theorem test_nop_clears_code :
    ends (run 0x00000000 { st noBuf noBuf 3 with code := .badSlot, res := 7, aux := 0x5A#8 })
      (fun t => t.code == .ok && t.res == 7 && t.aux == 0x5A#8 && t.op == 3) = true := by decide

/-- 95 2.2: an index wider than 32 bits. -/
theorem test_decode_wide_index :
    ends (run 0x00000001 (st noBuf noBuf 4294967301)) (fun t => t.res == 536870912 && t.aux == 0x20#8) = true := by decide

theorem test_decode_big :
    ends (run 0x00010001 (st noBuf noBuf 19)) (fun t => t.res == 2 && t.aux == 0x10#8) = true := by decide

/-- 95 2.2: `(n + 7) div 8` in 64-bit arithmetic would give 0. -/
theorem test_bytesfor_all1 :
    ends (run 0x00000002 (st noBuf noBuf 0xFFFFFFFFFFFFFFFF)) (fun t => t.res == 0x2000000000000000) = true := by decide

theorem test_bytesfor_8193 : ends (run 0x00000002 (st noBuf noBuf 8193)) (fun t => t.res == 1025) = true := by decide

theorem test_popb : ends (run 0xB7000003 (st noBuf noBuf 0)) (fun t => t.res == 6 && t.code == .ok) = true := by decide

theorem test_nibswap :
    ends (run 0x1F000004 (st noBuf noBuf 0)) (fun t => t.aux == 0xF1#8 && t.res == 0) = true := by decide

theorem test_create_at_capacity :
    ends (run 0x00010010 (st noBuf noBuf 32768))
      (fun t => t.code == .ok && (t.slot 0).len == 32768 && bufctlWord (t.slot 0) == 3 && bufctlWord (t.slot 1) == 0) =
      true := by decide

theorem test_create_beyond_capacity :
    ends (run 0x00000010 (st noBuf noBuf 32769))
      (fun t => t.code == .capacityExceeded && bufctlWord (t.slot 0) == 0) = true := by decide

/-- 95 2.3: `RESIZE` never touches RAM. -/
theorem test_resize_keeps_bytes :
    ends (run 0x00000011 (st (buf .little 16 [0xFF#8, 0xFF#8]) noBuf 9))
      (fun t => (t.slot 0).len == 9 && bytes t 0 2 == [0xFF#8, 0xFF#8]) = true := by decide

theorem test_resize_beyond_capacity :
    ends (run 0x00000011 (st (buf .little 3 []) noBuf 32769))
      (fun t => t.code == .capacityExceeded && (t.slot 0).len == 3) = true := by decide

/-- P2 steps 36, 39, 40. -/
theorem test_free_keeps_len_and_endian :
    ends (run 0x00000112 (st noBuf (buf .big 13 []) 13))
      (fun t => t.code == .ok && bufctlWord (t.slot 1) == 2 && (t.slot 1).len == 13) = true := by decide

theorem test_free_again :
    ends (run 0x00000112 (st noBuf { buf .big 13 [] with valid := false } 13)) (fun t => t.code == .badSlot) = true := by
  decide

/-- 95 2.3: an offset beyond `bytes_used` is legal. -/
theorem test_wrbyte_last_offset :
    ends (run 0xAA000013 (st (buf .little 0 []) noBuf 4095)) (fun t => t.code == .ok && ramRead t 0 4095 == 0xAA#8) =
      true := by decide

theorem test_wrbyte_beyond_ram :
    ends (run 0xAA000013 (st (buf .little 0 []) noBuf 4096))
      (fun t => t.code == .byteOffsetOutOfRange && (t.slot 0).ram == []) = true := by decide

/-- 95 S2: the byte as stored. -/
theorem test_rdbyte_raw :
    ends (run 0x00000014 (st (buf .big 10 [0xD0#8, 0xFF#8]) noBuf 1)) (fun t => t.aux == 0xFF#8) = true := by decide

theorem test_rdbyte_beyond_ram :
    ends (run 0x00000014 { st (buf .big 10 [0xD0#8, 0xFF#8]) noBuf 4096 with aux := 0x11#8 })
      (fun t => t.code == .byteOffsetOutOfRange && t.aux == 0x11#8) = true := by decide

theorem test_getbit_last_index :
    ends (run 0x00000020 (st (buf .big 10 [0xD0#8, 0xC0#8]) noBuf 9)) (fun t => t.code == .ok && t.aux == 0x01#8) =
      true := by decide

theorem test_getbit_out_of_range :
    ends (run 0x00000020 (st (buf .big 10 [0xD0#8, 0xC0#8]) noBuf 10))
      (fun t => t.code == .indexOutOfRange && t.aux == 0x00#8) = true := by decide

theorem test_setbit_big :
    ends (run 0x00020021 (st (buf .big 10 [0xD0#8, 0xC0#8]) noBuf 2)) (fun t => bytes t 0 2 == [0xF0#8, 0xC0#8]) =
      true := by decide

theorem test_setbit_clears_big :
    ends (run 0x00000021 (st (buf .big 10 [0xD0#8, 0xC0#8]) noBuf 9)) (fun t => bytes t 0 2 == [0xD0#8, 0x80#8]) =
      true := by decide

/-- 95 2.3: a final byte `0xA5`, `LEN = 13`. -/
theorem test_normtail_little :
    ends (run 0x00000022 (st (buf .little 13 [0xFF#8, 0xA5#8]) noBuf 0)) (fun t => bytes t 0 2 == [0xFF#8, 0x05#8]) =
      true := by decide

theorem test_normtail_big :
    ends (run 0x00000022 (st (buf .big 13 [0xFF#8, 0xA5#8]) noBuf 0)) (fun t => bytes t 0 2 == [0xFF#8, 0xA0#8]) =
      true := by decide

/-- 95 S2. -/
theorem test_count_skips_padding :
    ends (run 0x00000030 (st (buf .big 10 [0xD0#8, 0xFF#8]) noBuf 0))
      (fun t => t.code == .ok && t.res == 5 && bytes t 0 2 == [0xD0#8, 0xC0#8]) = true := by decide

/-- The buffer of 95 2.5. -/
def tierBytes : List Byte := [0x00#8, 0x81#8, 0xFF#8, 0x00#8, 0x10#8, 0x3F#8]

theorem test_count_little_45 :
    ends (run 0x00000030 (st (buf .little 45 tierBytes) noBuf 0)) (fun t => t.res == 16 && ramRead t 0 5 == 0x1F#8) =
      true := by decide

/-- 95 2.5, `BLOCK_BITS = 16`. -/
def tier (e : Endian) (n : Nat) : State :=
  { st (buf e 45 tierBytes) noBuf n with cfg := { Config.default with blockBits := 16 } }

theorem test_countn_tiers :
    [(0, 0), (1, 9), (2, 16), (3, 17), (9, 23), (10, 24), (11, 37), (12, 41), (16, 45)].all
      (fun p => ends (run 0x00000031 (tier .little p.1)) (fun t => t.code == .ok && t.res == p.2)) = true := by decide

theorem test_countn_not_found :
    ends (run 0x00000031 (tier .big 15)) (fun t => t.code == .notFound && t.res == 0xFFFFFFFFFFFFFFFF &&
      ramRead t 0 5 == 0x38#8) = true := by decide

/-- 95 2.5: the pairs `(i, j)` after phases 1 and 2, for `n = 2`, `3`, `12`, `17`. -/
theorem test_countn_phases :
    [(2, 0, 0, 8, 0), (3, 16, 2, 16, 2), (12, 32, 10, 40, 11), (17, 32, 10, 40, 11)].all (fun p =>
      let s := normalize 0 (tier .little p.1)
      let q := phase1 s 0 p.1 ⟨0, 0⟩
      q == ⟨p.2.1, p.2.2.1⟩ && phase2 s 0 p.1 q == ⟨p.2.2.2.1, p.2.2.2.2⟩) = true := by decide

/-- 95 2.5: the final byte has no match, byte 1 is skipped, byte 0 scanned. -/
theorem test_findlast_skips_bytes :
    ends (run 0x00020032 (st (buf .big 24 [0x04#8, 0x00#8, 0x00#8]) noBuf 0)) (fun t => t.code == .ok && t.res == 5) =
      true := by decide

theorem test_findlast_not_found :
    ends (run 0x00000032 (st (buf .little 20 [0xFF#8, 0xFF#8, 0xFF#8]) noBuf 0))
      (fun t => t.code == .notFound && t.res == 0xFFFFFFFFFFFFFFFF && ramRead t 0 2 == 0x0F#8) = true := by decide

/-- 95 2.6, row PV2 (`LITTLE`) and its bytes as `BIG` (PV3). -/
def pv (e : Endian) : State := st (buf e 12 [0xF0#8, 0xFF#8]) (buf e 12 [0x3C#8, 0xF5#8]) 0

theorem test_cntand_pv2 :
    ends (run 0x00001040 (pv .little))
      (fun t => t.res == 4 && bytes t 0 2 == [0xF0#8, 0x0F#8] && bytes t 1 2 == [0x3C#8, 0x05#8]) = true := by decide

theorem test_cntand_itself :
    ends (run 0x00000040 (pv .little)) (fun t => t.res == 8 && bytes t 0 2 == [0xF0#8, 0x0F#8]) = true := by decide

theorem test_cntor_pv2 : ends (run 0x00001041 (pv .little)) (fun t => t.code == .ok && t.res == 10) = true := by decide

theorem test_cntxor_pv3 :
    ends (run 0x00001042 (pv .big)) (fun t => t.res == 4 && bytes t 1 2 == [0x3C#8, 0xF0#8]) = true := by decide

theorem test_subset_pv4 :
    ends (run 0x00001043 (st (buf .little 12 [0x30#8, 0x05#8]) (buf .little 12 [0xF0#8, 0x0F#8]) 0))
      (fun t => t.aux == 0x01#8 && t.res == 0) = true := by decide

theorem test_subset_pv4_swapped :
    ends (run 0x00000143 (st (buf .little 12 [0x30#8, 0x05#8]) (buf .little 12 [0xF0#8, 0x0F#8]) 0))
      (fun t => t.code == .ok && t.aux == 0x00#8) = true := by decide

/-- 95 2.6, errors: `RES` stays 77, nothing is normalised, and length is tested before endianness. -/
theorem test_pair_errors :
    let s := fun b => { st (buf .little 12 [0xF0#8, 0xFF#8]) b 0 with res := 77, aux := 0x5A#8 }
    let same := fun c => fun (t : State) => t.code == c && t.res == 77 && t.aux == 0x5A#8 && ramRead t 0 1 == 0xFF#8
    ends (run 0x00001040 (s (buf .little 13 []))) (same .lengthMismatch) = true ∧
      ends (run 0x00001042 (s (buf .big 12 []))) (same .endiannessMismatch) = true ∧
      ends (run 0x00001041 (s (buf .big 13 []))) (same .lengthMismatch) = true ∧
      ends (run 0x00001043 (s noBuf)) (same .badSlot) = true ∧ ends (run 0x00000143 (s noBuf)) (same .badSlot) = true ∧
      ends (run 0x00002040 (s noBuf)) (same .badSlot) = true := by decide

/-- P5 step 8: the fatal state, and the state it leaves. -/
theorem test_fatal_entered :
    endsFatal (run 0x00000020 (lax (st (buf .little 8 [0xA5#8]) noBuf 8)))
      (fun t => statusWord t == 0x80000000 && t.aux == 0x00#8 && t.cmd == 0x00000020#32) = true := by decide

/-- P5 steps 11, 14: a command is ignored, `CMD` not even written; `OP` still is. -/
theorem test_fatal_ignores_commands :
    ends (run 0x00000000 { lax (st (buf .little 8 [0xA5#8]) noBuf 8) with fatal := true, cmd := 0x20#32 })
        (fun t => t.cmd == 0x20#32 && statusWord t == 0x80000000) = true ∧
      ends (host (.write 0 0) { lax (st noBuf noBuf 8) with fatal := true }) (fun t => t.op == 0) = true := by decide

/-- 95 2.1 and 2.8: a word that is no command. -/
theorem test_illegal_word :
    ends (run 0x00000099 { st noBuf noBuf 4 with res := 9, aux := 0x01#8 })
      (fun t => statusWord t == 5 && t.cmd == 0x99#32 && t.res == 9 && t.aux == 0x01#8 && t.op == 4) = true := by decide

/-- 60_exceptions.md R210: decoding comes before the slot check. -/
theorem test_illegal_before_bad_slot :
    ends (run 0x00040F20 (st noBuf noBuf 0)) (fun t => t.code == .illegalCommand) = true := by decide

/-- P1 steps 9, 10; P2 step 39: `rlen`, `rctl`. -/
theorem test_register_reads :
    let s := st (buf .big 10 []) { buf .big 13 [] with valid := false } 0
    ends (host (.read 16) s) (fun t => t.portOut == some 10) = true ∧
      ends (host (.read 17) s) (fun t => t.portOut == some 3) = true ∧
      ends (host (.read 19) s) (fun t => t.portOut == some 2) = true := by decide

/-- 70_reset_and_hazards.md R230: reset leaves the fatal state. -/
theorem test_reset_clears :
    ends (host .reset { lax (pv .little) with fatal := true, res := 5 })
      (fun t => t.res == 0 && statusWord t == 0 && t.slots == [Slot.vacant, Slot.vacant]) = true := by decide

/-- The very next step after `withFetchWord` runs that command, right after reset too. -/
theorem test_fetch_word_runs_next :
    ends (step (State.reset.withFetchWord 32 0xB7000003)) (fun t => t.res == 6 && t.hostOps == []) = true ∧
      ends (step (State.reset.withFetchWord 32 0x00000130)) (fun t => t.code == .badSlot) = true := by decide

/-! ### Witnesses: for each obligation with hypotheses, states and operands that meet them, clause by clause -/

/-- Two usable slots of one shape with stale padding; `OP = 9` is the last index of each. -/
def sA : State := st (buf .big 10 [0xD0#8, 0xFF#8]) (buf .big 10 [0xC0#8, 0xFF#8]) 9

/-- A well-formed state where slot 0 is usable and slot 1 is not. -/
def sB : State := st (buf .little 12 [0xF0#8, 0xFF#8]) noBuf 12

/-- A state with operations queued. -/
def queued (ops : List HostOp) (s : State) : State := { s with hostOps := ops }

theorem witness_DecodeInvertsEncode : (Instr.subset 15 0).wf = true ∧ (Instr.create 0 .big).wf = true := by decide

theorem witness_EncodeInvertsDecode : decode 0xFF000F13#32 = .ok (.wrbyte 15 0xFF#8) := rfl

theorem witness_AcceptedIffOneTableRowMatches : 0x0000FF43#32 &&& 0xFFFF00FF#32 = 0x00000043#32 := by decide

theorem witness_BitMaskIsOneHot : 0 % 8 ≠ 7 % 8 := by decide

theorem witness_PopcountTableCountsSetBits : (7 : Nat) < 8 ∧ (15 : Nat) < 16 ∧ (0 : Nat) < 16 := by decide

theorem witness_RamReadAfterWrite :
    sA.wf ∧ 1 < sA.cfg.nbuf ∧ 4095 < sA.cfg.capBytes ∧ ¬((0 : Nat) = 1 ∧ (4095 : Nat) = 4095) := by decide

theorem witness_BitWriteChangesOneBit :
    sA.wf ∧ (sA.slot 1).valid = true ∧ 32767 < 8 * sA.cfg.capBytes ∧ ¬((1 : Nat) = 1 ∧ (32766 : Nat) = 32767) := by decide

theorem witness_NormalizeClearsPaddingOnly :
    sA.wf ∧ (sA.slot 0).valid = true ∧ 9 < (sA.slot 0).len ∧ (sA.slot 0).len ≤ 10 ∧ 15 < 8 * bytesUsed sA 0 := by decide

/-- The encodings of the commands with every operand bit set, for the first clause of each command's obligation. -/
theorem witness_command_words :
    0x00000000#32 &&& 0xFFFFFFFF#32 = 0x00000000#32 ∧ 0x00010001#32 &&& 0xFFFEFFFF#32 = 0x00000001#32 ∧
      0x00000002#32 &&& 0xFFFFFFFF#32 = 0x00000002#32 ∧ 0xFF000003#32 &&& 0x00FFFFFF#32 = 0x00000003#32 ∧
      0xFF000004#32 &&& 0x00FFFFFF#32 = 0x00000004#32 ∧ 0x00010F10#32 &&& 0xFFFEF0FF#32 = 0x00000010#32 ∧
      0x00000F11#32 &&& 0xFFFFF0FF#32 = 0x00000011#32 ∧ 0x00000F12#32 &&& 0xFFFFF0FF#32 = 0x00000012#32 ∧
      0xFF000F13#32 &&& 0x00FFF0FF#32 = 0x00000013#32 ∧ 0x00000F14#32 &&& 0xFFFFF0FF#32 = 0x00000014#32 ∧
      0x00000F20#32 &&& 0xFFFFF0FF#32 = 0x00000020#32 ∧ 0x00020F21#32 &&& 0xFFFDF0FF#32 = 0x00000021#32 ∧
      0x00000F22#32 &&& 0xFFFFF0FF#32 = 0x00000022#32 ∧ 0x00000F30#32 &&& 0xFFFFF0FF#32 = 0x00000030#32 ∧
      0x00000F31#32 &&& 0xFFFFF0FF#32 = 0x00000031#32 ∧ 0x00020F32#32 &&& 0xFFFDF0FF#32 = 0x00000032#32 ∧
      0x0000FF40#32 &&& 0xFFFF00FF#32 = 0x00000040#32 ∧ 0x0000FF41#32 &&& 0xFFFF00FF#32 = 0x00000041#32 ∧
      0x0000FF42#32 &&& 0xFFFF00FF#32 = 0x00000042#32 ∧ 0x0000FF43#32 &&& 0xFFFF00FF#32 = 0x00000043#32 := by decide

theorem witness_BytesforGivesByteCount : (33 : Nat) ≤ 64 ∧ 2 ^ 64 - 1 < 2 ^ 64 ∧ (1 : Nat) ≠ 0 := by decide

theorem witness_NibswapSwapsNibbles : (15 : Nat) < 16 ∧ (0 : Nat) < 16 := by decide

/-- `GETBIT`, `SETBIT`: a bad slot; the first index out of range, reported and fatal; the last index in range. -/
theorem witness_GetbitReadsAddressedBit :
    ¬sB.usable 1 ∧ ¬sB.usable 2 ∧
      (sB.usable 0 ∧ (sB.slot 0).len ≤ sB.op ∧ sB.cfg.validating = true) ∧
      ((lax sB).usable 0 ∧ ((lax sB).slot 0).len ≤ (lax sB).op ∧ (lax sB).cfg.validating = false) ∧
      sA.wf ∧ sA.usable 1 ∧ sA.op < (sA.slot 1).len := by decide

theorem witness_SetbitWritesAddressedBit :
    ¬sB.usable 1 ∧ (sB.usable 0 ∧ (sB.slot 0).len ≤ sB.op ∧ sB.cfg.validating = true) ∧
      ((lax sB).usable 0 ∧ ((lax sB).slot 0).len ≤ (lax sB).op ∧ (lax sB).cfg.validating = false) ∧
      sA.wf ∧ sA.usable 1 ∧ sA.op < (sA.slot 1).len ∧
      (1 = sA.op / 8 ∧ 6 = bitPos (sA.slot 1).endian sA.op) ∧ ¬(7 = bitPos (sA.slot 1).endian sA.op) := by decide

theorem witness_CreateMakesBuffer :
    let full := st noBuf noBuf 32768
    let past := st noBuf noBuf 32769
    full.cfg.nbuf ≤ 2 ∧ (1 < past.cfg.nbuf ∧ 8 * past.cfg.capBytes < past.op) ∧
      full.wf ∧ 1 < full.cfg.nbuf ∧ full.op ≤ 8 * full.cfg.capBytes := by decide

theorem witness_ResizeSetsLengthOnly :
    ¬sB.usable 1 ∧ (let past := { sA with op := 32769 }
      past.usable 1 ∧ 8 * past.cfg.capBytes < past.op) ∧
      (let full := { sA with op := 32768 }
      full.usable 1 ∧ full.op ≤ 8 * full.cfg.capBytes) := by decide

theorem witness_FreeClearsValidOnly : ¬sB.usable 1 ∧ sA.usable 1 := by decide

theorem witness_WrbyteStoresOneByte :
    ¬sB.usable 1 ∧ (let past := { sA with op := 4096 }
      past.usable 1 ∧ past.cfg.capBytes ≤ past.op) ∧
      (let last := { sA with op := 4095 }
      last.usable 1 ∧ last.op < last.cfg.capBytes) := by decide

theorem witness_RdbyteLoadsByteAsStored :
    ¬sB.usable 1 ∧ (let past := { sA with op := 4096 }
      past.usable 1 ∧ past.cfg.capBytes ≤ past.op) ∧
      (let last := { sA with op := 4095 }
      last.usable 1 ∧ last.op < last.cfg.capBytes) := by decide

theorem witness_NormtailClearsPadding : ¬sB.usable 1 ∧ sA.wf ∧ sA.usable 1 := by decide

theorem witness_CountCountsLogicalBits : ¬sB.usable 1 ∧ sA.wf ∧ sA.usable 1 := by decide

/-- `OP` 0, `OP` the number of set bits, and one more. -/
theorem witness_CountnFindsLeastIndex :
    ¬sB.usable 1 ∧
      (let zero := { sA with op := 0 }
      zero.wf ∧ zero.usable 0 ∧ zero.op ≤ cnt zero 0 (zero.slot 0).len ∧ zero.op = 0) ∧
      (let all := { sA with op := 5 }
      all.wf ∧ all.usable 0 ∧ all.op ≤ cnt all 0 (all.slot 0).len ∧ all.op ≠ 0) ∧
      (let more := { sA with op := 6 }
      more.wf ∧ more.usable 0 ∧ cnt more 0 (more.slot 0).len < more.op) := by decide

/-- A hit at the last index; a buffer of one bit that is 0, and an empty buffer. -/
theorem witness_FindlastFindsHighestIndex :
    ¬sB.usable 1 ∧ (sA.wf ∧ sA.usable 0 ∧ 9 < (sA.slot 0).len ∧ bitAt sA 0 9 = true) ∧
      (let s := st (buf .little 1 [0xFE#8]) (buf .little 0 []) 0
      s.wf ∧ s.usable 0 ∧ s.usable 1 ∧ (∀ i, i < (s.slot 0).len → bitAt s 0 i ≠ true) ∧
        ∀ i, i < (s.slot 1).len → bitAt s 1 i ≠ true) := by decide

theorem witness_PairChecksComeFirst :
    (¬sB.usable 1 ∧ sB.usable 0) ∧
      (let s := st (buf .little 12 []) (buf .big 13 []) 0
      s.usable 0 ∧ s.usable 1 ∧ (s.slot 0).len ≠ (s.slot 1).len) ∧
      (let s := st (buf .little 12 []) (buf .big 12 []) 0
      s.usable 0 ∧ s.usable 1 ∧ (s.slot 0).len = (s.slot 1).len ∧ (s.slot 0).endian ≠ (s.slot 1).endian) := by decide

/-- The hypotheses of `CntandCountsCommonBits`, `CntorCountsUnionBits`, `CntxorCountsDifferingBits`,
`SubsetTestsInclusion` and `PairwiseIdentities`: two slots, and a slot paired with itself. -/
theorem witness_pairwise :
    (pairError sB 0 1 = some .badSlot ∧ pairError sA 0 1 = none) ∧ (sA.wf ∧ sA.usable 0 ∧ sA.usable 1 ∧ (sA.slot 0).len = (sA.slot 1).len ∧
      (sA.slot 0).endian = (sA.slot 1).endian) ∧ sB.wf ∧ sB.usable 0 := by decide

/-- Also for `FindlastNotFoundIffCount`. The count is 5, so `n = 1`, `n' = 5` meet the last clause. -/
theorem witness_LocatorProperties :
    sA.wf ∧ sA.usable 0 ∧ 0 < (sA.slot 0).len ∧ bitAt sA 0 ((sA.slot 0).len - 1) = true ∧
      (∃ t, exec (.count 0) sA = .next t ∧ (t.res == 5) = true) ∧
      (∃ a, exec (.countn 0) { sA with op := 1 } = .next a ∧ (a.code == .ok) = true) ∧
      (∃ b, exec (.countn 0) { sA with op := 5 } = .next b ∧ (b.code == .ok) = true) ∧
      ∃ f, exec (.findlast 0 true) sA = .next f ∧ (f.code == .ok) = true :=
  ⟨by decide, by decide, by decide, by decide, ends_spec (by decide), ends_spec (by decide), ends_spec (by decide),
    ends_spec (by decide)⟩

theorem witness_LocatorIndependentOfBlockSize :
    sA.wf ∧ 8 % 8 = 0 ∧ 8 ≤ 8 ∧ ∃ t, exec (.countn 0) sA = .next t ∧ (t.code == .notFound) = true :=
  ⟨by decide, by decide, by decide, ends_spec (by decide)⟩

/-- Every command of `RegisterCommandsFrame`, `SlotFieldCommandsFrame`, `StoringCommandsFrame`,
`NormalisingCommandsFrame` and `PairwiseCommandsFrame` ends in a next state with code `OK`; so do the first nine clauses
of rules over all commands. -/
theorem witness_frames :
    ∀ i ∈ [Instr.nop, .decode .big, .bytesfor, .popb 0xFF#8, .nibswap 0x0F#8, .create 1 .big, .resize 1, .free 1,
      .wrbyte 1 0x55#8, .rdbyte 1, .getbit 1, .setbit 1 true, .normtail 1, .count 1, .findlast 1 true, .cntand 0 1,
      .cntor 0 1, .cntxor 0 1, .subset 0 1], ∃ t, exec i sA = .next t ∧ (t.code == .ok) = true := by
  intro i hi
  simp only [List.mem_cons, List.not_mem_nil, or_false] at hi
  rcases hi with rfl | rfl | rfl | rfl | rfl | rfl | rfl | rfl | rfl | rfl | rfl | rfl | rfl | rfl | rfl | rfl | rfl |
    rfl | rfl <;> exact ends_spec (by decide)

theorem witness_countn_frame : ∃ t, exec (.countn 1) { sA with op := 1 } = .next t ∧ (t.code == .ok) = true :=
  ends_spec (by decide)

/-- An error code, `NOT_FOUND`, and `OK` with a count. -/
theorem witness_ErrorsChangeNothingElse :
    (∃ t, exec (.getbit 1) sB = .next t ∧ (t.code == .badSlot) = true) ∧
      (∃ t, exec (.countn 0) sB = .next t ∧ (t.code == .notFound) = true) ∧
      sA.wf ∧ ∃ t, exec (.count 0) sA = .next t ∧ (t.code == .ok) = true :=
  ⟨ends_spec (by decide), ends_spec (by decide), by decide, ends_spec (by decide)⟩

theorem witness_StatusCodeMatrix : ∃ t, exec (.cntand 0 2) sA = .next t ∧ (t.code == .badSlot) = true :=
  ends_spec (by decide)

/-- A number `≥ NBUF`, a slot that is not valid, and `CREATE` on each side of `NBUF`. -/
theorem witness_BadSlotComesFirst :
    (2 ∈ namedSlots (.cntand 0 2) ∧ sB.cfg.nbuf ≤ 2) ∧ (1 ∈ namedSlots (.getbit 1) ∧ (sB.slot 1).valid = false) ∧
      ∃ t, exec (.create 2 .big) sB = .next t ∧ (t.code == .badSlot) = true :=
  ⟨by decide, by decide, ends_spec (by decide)⟩

theorem witness_FatalEnteredInOneCaseOnly :
    endsFatal (exec (.setbit 0 true) (lax sB)) (fun t => t.fatal && t.op == 12) = true ∧ sA.cfg.validating = true ∧
      ∃ t, step { sA with fatal := true } = .next t ∧ t.fatal = true :=
  ⟨by decide, by decide, ends_spec (by decide)⟩

theorem witness_SlotFieldWriters :
    (∃ t, exec (.create 1 .big) sB = .next t ∧
        (decide ((t.slot 1).len ≠ (sB.slot 1).len) && decide ((t.slot 1).endian ≠ (sB.slot 1).endian) &&
          (t.slot 1).valid) = true) ∧
      ∃ t, exec (.free 0) sB = .next t ∧ (!(t.slot 0).valid) = true :=
  ⟨ends_spec (by decide), ends_spec (by decide)⟩

/-- The first byte beyond the used ones, under a command that clears padding. -/
theorem witness_BytesBeyondUseKept :
    (∀ k b, Instr.count 0 ≠ .wrbyte k b) ∧ bytesUsed sA 0 ≤ 2 ∧
      ∃ t, exec (.count 0) sA = .next t ∧ (t.code == .ok) = true :=
  ⟨fun _ _ h => (by cases h), by decide, ends_spec (by decide)⟩

/-- The first and the last padding bit. -/
theorem witness_PaddingZeroAfterNormalising :
    ∃ t, exec (.cntand 0 1) sA = .next t ∧
      (t.code == .ok && decide ((t.slot 1).len ≤ 10) && decide (15 < 8 * bytesUsed t 1)) = true := ends_spec (by decide)

theorem witness_OutcomeIgnoresEarlierResults :
    let s' := { sA with res := 1, aux := 0x02#8, code := Code.badSlot, cmd := 0x03#32 }
    s'.cfg = sA.cfg ∧ s'.op = sA.op ∧ s'.slots = sA.slots ∧ s'.draw = sA.draw ∧
      ∃ t, exec (.getbit 0) sA = .next t ∧ (t.aux == 0x01#8) = true :=
  ⟨rfl, rfl, rfl, rfl, ends_spec (by decide)⟩

theorem witness_OpIsHostsAndIgnoredWhereUnused :
    (queued [.write 0 (2 ^ 64 - 1)] sA).hostOps = .write 0 (2 ^ 64 - 1) :: [] ∧ 2 ^ 64 - 1 < 2 ^ sA.cfg.idxw ∧
      ∃ t, exec (.count 0) sA = .next t ∧ (t.op == 9) = true := ⟨rfl, by decide, ends_spec (by decide)⟩

theorem witness_EveryCommandRunsToItsEnd : sA.wf ∧ (lax sB).wf := by decide

/-- The largest word of `CMD`, a word that decodes, and a read. -/
theorem witness_CommandWriteRunsDecodedCommand :
    (queued [.write 1 0xFF000003] sA).hostOps = .write 1 0xFF000003 :: [] ∧ 0xFF000003 < 2 ^ 32 ∧
      sA.fatal = false ∧ decode (BitVec.ofNat 32 0xFF000003) = .ok (.popb 0xFF#8) ∧
      (queued [.write 1 (2 ^ 32 - 1)] { sA with fatal := true }).hostOps = .write 1 (2 ^ 32 - 1) :: [] ∧
      (queued [.read 1] sA).hostOps = .read 1 :: [] := ⟨rfl, by decide, rfl, rfl, rfl, rfl⟩

theorem witness_IllegalWordRaisesIllegalCommand :
    (queued [.write 1 (2 ^ 32 - 1)] sA).hostOps = .write 1 (2 ^ 32 - 1) :: [] ∧ 2 ^ 32 - 1 < 2 ^ 32 ∧
      sA.fatal = false ∧ ∀ i, decode (BitVec.ofNat 32 (2 ^ 32 - 1)) ≠ .ok i :=
  ⟨rfl, by decide, rfl, fun _ h => by cases h⟩

/-- Both ends of the register map, a read, and the reset that leaves the fatal state. -/
theorem witness_FatalStateIgnoresCommands :
    let s := { lax sA with fatal := true }
    s.fatal = true ∧ (queued [.write 1 0] s).hostOps = .write 1 0 :: [] ∧ 0 < 2 ^ 32 ∧
      (queued [.write 0 7] s).hostOps = .write 0 7 :: [] ∧ 7 < 2 ^ s.cfg.idxw ∧
      (queued [.read 19] s).hostOps = .read 19 :: [] ∧ 16 ≤ 19 ∧ 19 < 16 + 2 * s.cfg.nbuf ∧
      ∃ t, step (queued [.reset] s) = .next t ∧ (!t.fatal) = true :=
  ⟨rfl, rfl, by decide, rfl, by decide, rfl, by decide, by decide, ends_spec (by decide)⟩

/-- The registers at the ends of each range, and the numbers beside them that are none. -/
theorem witness_RegisterAccess :
    (4, 0) ∈ [(0, sA.op), (1, sA.cmd.toNat), (2, sA.res), (3, sA.aux.toNat),
        (4, sA.code.number + if sA.fatal then 2 ^ 31 else 0)] ∧
      1 < sA.cfg.nbuf ∧
      (2 = 2 ∧ 2 ^ 64 - 1 < 2 ^ sA.cfg.idxw) ∧ (3 = 3 ∧ 255 < 2 ^ 8) ∧ (4 = 4 ∧ 2 ^ 32 - 1 < 2 ^ 32) ∧
      (18 = 16 + 2 * 1 ∧ 2 ^ 64 - 1 < 2 ^ sA.cfg.idxw) ∧ (19 = 17 + 2 * 1 ∧ 2 ^ 32 - 1 < 2 ^ 32) ∧ (5 ≤ 15 ∧ 15 < 16) ∧ 16 + 2 * sA.cfg.nbuf ≤ 20 ∧
      (queued [.write 0 (2 ^ 64 - 1)] sA).hostOps = .write 0 (2 ^ 64 - 1) :: [] ∧ (queued [.read 4] sA).hostOps = .read 4 :: [] ∧
      (queued [.write 20 0] sA).hostOps = .write 20 0 :: [] := by decide

theorem witness_StatusRegisterLayout :
    (queued [.read 4] { sA with fatal := true }).hostOps = .read 4 :: [] ∧
      ∃ t, exec .nop { sA with code := .badSlot } = .next t ∧ (t.code == .ok) = true := ⟨rfl, ends_spec (by decide)⟩

theorem witness_ResetState : (queued [.reset, .read 4] { sA with fatal := true }).hostOps = .reset :: [.read 4] := rfl

theorem witness_StepServesOldestOperation :
    sA.hostOps = [] ∧ (∃ t, step (queued [.read 2, .reset] sA) = .next t ∧ (t.hostOps == [.reset]) = true) ∧
      endsFatal (step (queued [.write 1 0x20] (lax sB))) (fun t => t.hostOps == []) = true :=
  ⟨rfl, ends_spec (by decide), by decide⟩

theorem witness_StepKeepsStateWellFormed :
    sA.wf ∧ (∃ t, step (queued [.write 1 0x30] sA) = .next t ∧ (t.res == 5) = true) ∧ (lax sB).wf ∧
      endsFatal (step (queued [.write 1 0x20] (lax sB))) (fun t => t.fatal) = true :=
  ⟨by decide, ends_spec (by decide), by decide, by decide⟩

/-- The smallest and the largest parameters. -/
theorem witness_ResetStateIsWellFormed :
    Config.wf { idxw := 33, nbuf := 2, capBytes := 1, blockBits := 8, validating := false } ∧
      Config.wf { idxw := 64, nbuf := 16, capBytes := 2 ^ 61 - 1, blockBits := 8192, validating := true } := by decide

theorem witness_LengthInvariants :
    Config.default.wf ∧ sA.cfg.wf ∧
      (∀ k, (sA.slot k).len ≤ 8 * sA.cfg.capBytes ∧ bytesUsed sA k ≤ sA.cfg.capBytes ∧
        8 * bytesUsed sA k ≤ 8 * sA.cfg.capBytes ∧ 8 * sA.cfg.capBytes ≤ 2 ^ sA.cfg.idxw - 8 ∧
        8 * bytesUsed sA k < 2 ^ sA.cfg.idxw ∧ (sA.slot k).len + 7 < 2 ^ sA.cfg.idxw ∧
        ∀ off, (ramRead sA k off).toNat ≤ 0xFF) ∧
      ∃ t, exec (.create 0 .little) { sA with op := 32768 } = .next t ∧ ((t.slot 0).len == 32768) = true := by
  refine ⟨by decide, by decide, fun k => ?_, ends_spec (by decide)⟩
  have byte : ∀ off, (ramRead sA k off).toNat ≤ 0xFF := fun off => Nat.le_of_lt_succ (ramRead sA k off).isLt
  match k, byte with
  | 0, byte => exact ⟨by decide, by decide, by decide, by decide, by decide, by decide, byte⟩
  | 1, byte => exact ⟨by decide, by decide, by decide, by decide, by decide, by decide, byte⟩
  | k + 2, byte =>
    have hk : sA.slot (k + 2) = Slot.vacant := rfl
    rw [bytesUsed, hk]
    exact ⟨by decide, by decide, by decide, by decide, by decide, by decide, byte⟩

end Sys2Proof.Tests
end

section
/-! The state after reset (10_state.md R36) meets the model's invariant, for every legal choice of parameters
(00_scope.md R5). -/

namespace Sys2Proof.Machine

theorem Config.default_wf : Config.default.wf := by decide

/-- A slot as reset leaves it is empty, so it fits every capacity. -/
theorem Slot.vacant_wf (c : Config) : Slot.vacant.wf c := ⟨Nat.zero_le _, Memory.wf_nil _⟩

theorem State.resetOf_wf {c : Config} (hc : c.wf) (draw : Nat) (ops : List HostOp) :
    (State.resetOf c draw ops).wf := by
  have hzero : 0 < 2 ^ c.idxw := Nat.two_pow_pos _
  refine ⟨hc, hzero, hzero, List.length_replicate, fun sl hsl => ?_⟩
  rw [List.eq_of_mem_replicate hsl]
  exact Slot.vacant_wf c

/-- Settles O59: `State.reset` is the reset state of the default parameters, which are legal. -/
theorem resetStateIsWellFormed : Obligations.ResetStateIsWellFormed :=
  ⟨State.resetOf_wf Config.default_wf 0 [], fun _ draw ops hc => State.resetOf_wf hc draw ops⟩

end Sys2Proof.Machine
end

section
/-! The model's invariant is kept by every step (10_state.md R21, R28). A command's result fits `RES` because a count or
an index is at most a length, and `MAXBITS` fits `W` bits (00_scope.md R5). -/

namespace Sys2Proof.Machine

/-! ### What the parameters and the invariant bound -/

/-- 10_state.md R28 (b): `MAXBITS` is at most `2^W - 8`. -/
theorem maxBits_add_eight_le {c : Config} (h : c.wf) : maxBits c + 8 ≤ 2 ^ c.idxw := by
  obtain ⟨hw, -, ⟨-, hcap⟩, -⟩ := h
  have hpow : 2 ^ c.idxw = 2 ^ (c.idxw - 3) * 8 := by
    rw [show (8 : Nat) = 2 ^ 3 from rfl, ← Nat.pow_add, Nat.sub_add_cancel (by omega)]
  have hpos := Nat.two_pow_pos (c.idxw - 3)
  unfold maxBits
  omega

theorem maxBits_lt {c : Config} (h : c.wf) : maxBits c < 2 ^ c.idxw := by
  have := maxBits_add_eight_le h
  omega

theorem all1_lt (c : Config) : all1 c < 2 ^ c.idxw := Nat.sub_one_lt (Nat.two_pow_pos _).ne'

theorem popcount_lt (b : Byte) {c : Config} (h : c.wf) : popcount b < 2 ^ c.idxw := by
  have hmax := maxBits_lt h
  obtain ⟨-, -, ⟨hcap, -⟩, -⟩ := h
  have hle := popcount_le b
  unfold maxBits at hmax
  omega

theorem bytesForBits_le (n : Nat) : bytesForBits n ≤ n := by rw [bytesForBits_eq]; omega

theorem cntPair_le (s : State) (ka kb : Nat) (p : Bool → Bool → Bool) (i : Nat) : cntPair s ka kb p i ≤ i :=
  (List.length_filter_le _ _).trans_eq List.length_range

theorem State.wf.op_lt {s : State} (h : s.wf) : s.op < 2 ^ s.cfg.idxw := h.2.1

/-- A value up to a slot's length fits `W` bits. -/
theorem State.wf.lt_of_le_len {s : State} (h : s.wf) {k n : Nat} (hn : n ≤ (s.slot k).len) : n < 2 ^ s.cfg.idxw :=
  (hn.trans (h.slot k).1).trans_lt (maxBits_lt h.1)

/-! ### The updates keep the invariant

`State.wf` reads the parameters, `OP`, `RES` and the slots only. So an update of another field keeps it as it stands:
below, `hs : s.wf` is also the proof for `s` with another `CMD`, `AUX`, `STATUS`, queue or `portOut`. -/

theorem ramOnly.cfg {s t : State} (h : ramOnly s t) : t.cfg = s.cfg := by rw [h.eq]

theorem State.wf.setOp {s : State} (h : s.wf) {v : Nat} (hv : v < 2 ^ s.cfg.idxw) : (s.setOp v).wf := ⟨h.1, hv, h.2.2⟩

theorem State.wf.setRes {s : State} (h : s.wf) {v : Nat} (hv : v < 2 ^ s.cfg.idxw) : (s.setRes v).wf :=
  ⟨h.1, h.2.1, hv, h.2.2.2⟩

/-- New fields for a slot, its RAM kept (`CREATE`, `RESIZE`, `FREE`). -/
theorem State.wf.setSlot_fields {s : State} (h : s.wf) (k : Nat) {n : Nat} (hn : n ≤ maxBits s.cfg) (e : Endian)
    (b : Bool) : (s.setSlot k { len := n, endian := e, valid := b, ram := (s.slot k).ram }).wf :=
  h.setSlot k ⟨hn, (h.slot k).2⟩

/-- What a one-slot command that normalises leaves, with a result that fits `RES`. -/
theorem State.wf.normalize_setRes {s : State} (h : s.wf) (k : Nat) {r : Nat} (hr : r < 2 ^ s.cfg.idxw) :
    ((normalize k s).setRes r).wf :=
  (normalize_wf h k).setRes (by rwa [(normalize_ramOnly k s).cfg])

/-! ### Commands -/

theorem execCountn_wf {k : Nat} {s t : State} (hs : s.wf) (h : execCountn k s = .next t) : t.wf := by
  obtain ⟨-, -, -, hblock, -⟩ := hs.1
  rcases execCountn_cases k hblock with ⟨-, g⟩ | ⟨-, ⟨-, g⟩ | ⟨-, ⟨i, hi, -, -, g⟩ | ⟨-, g⟩⟩⟩ <;>
    rw [g] at h <;> cases h
  · exact hs
  · exact hs.normalize_setRes k (hs.lt_of_le_len hi)
  · exact hs.normalize_setRes k (all1_lt _)

theorem execFindlast_wf {k : Nat} {v : Bool} {s t : State} (hs : s.wf) (h : execFindlast k v s = .next t) : t.wf := by
  rcases execFindlast_cases k v s with ⟨-, g⟩ | ⟨-, ⟨-, g⟩ | ⟨-, ⟨i, hi, -, -, g⟩ | ⟨-, g⟩⟩⟩ <;> rw [g] at h <;> cases h
  · exact hs
  · exact hs.normalize_setRes k (hs.lt_of_le_len hi.le)
  · exact hs.normalize_setRes k (all1_lt _)

/-- `CNTAND`, `CNTOR`, `CNTXOR`: the result counts logical indices, so it is at most the common length. -/
theorem pairCount_wf {f : Byte → Byte → Byte} {p : Bool → Bool → Bool} (hf : Bitwise f p) (hp : p false false = false)
    {ka kb : Nat} {s t : State} (hs : s.wf) (h : pairCount f ka kb s = .next t) : t.wf := by
  rcases pairCount_next h with ⟨c, -, rfl⟩ | ⟨⟨ha, hb, hl, he, -⟩, -⟩
  · exact hs
  · rw [pairCount_compatible hf hp hs ha hb hl he] at h
    cases h
    refine State.wf.setRes (normalizePair_wf hs ka kb) ?_
    rw [(normalizePair_ramOnly ka kb s).cfg]
    exact hs.lt_of_le_len (cntPair_le _ _ _ _ _)

theorem exec_wf {i : Instr} {s t : State} (hs : s.wf) (h : exec i s = .next t) : t.wf := by
  cases i with
  | nop => cases h; exact hs
  | decode e => cases h; exact hs.setRes ((Nat.div_le_self _ _).trans_lt hs.op_lt)
  | bytesfor => cases h; exact hs.setRes ((bytesForBits_le _).trans_lt hs.op_lt)
  | popb b => cases h; exact hs.setRes (popcount_lt b hs.1)
  | nibswap b => cases h; exact hs
  | create a e =>
    rcases execCreate_next h with ⟨-, rfl⟩ | ⟨-, ⟨rfl, -⟩ | ⟨rfl, hle⟩⟩
    · exact hs
    · exact hs
    · exact hs.setSlot_fields a hle e true
  | resize a =>
    rcases execResize_next h with ⟨-, rfl⟩ | ⟨-, ⟨rfl, -⟩ | ⟨rfl, hle⟩⟩
    · exact hs
    · exact hs
    · exact hs.setSlot_fields a hle _ _
  | free a =>
    rcases execFree_next h with ⟨-, rfl⟩ | ⟨-, rfl⟩
    · exact hs
    · exact hs.setSlot_fields a (hs.slot a).1 _ false
  | wrbyte a b =>
    rcases execWrbyte_next h with ⟨-, rfl⟩ | ⟨-, ⟨rfl, -⟩ | ⟨rfl, hlt⟩⟩
    · exact hs
    · exact hs
    · exact ramWrite_wf hs a hlt b
  | rdbyte a => rcases execRdbyte_next h with ⟨-, rfl⟩ | ⟨-, ⟨rfl, -⟩ | ⟨rfl, -⟩⟩ <;> exact hs
  | getbit a => rcases execGetbit_next h with ⟨-, rfl⟩ | ⟨-, ⟨rfl, -⟩ | ⟨rfl, -⟩⟩ <;> exact hs
  | setbit a v =>
    rcases execSetbit_next h with ⟨-, rfl⟩ | ⟨-, ⟨rfl, -⟩ | ⟨rfl, hi, -⟩⟩
    · exact hs
    · exact hs
    · exact bitWrite_wf hs a (hi.trans_le (hs.slot a).1) v
  | normtail a =>
    rcases execNormtail_next h with ⟨-, rfl⟩ | ⟨-, rfl⟩
    · exact hs
    · exact normalize_wf hs a
  | count a =>
    rcases execCount_next h with ⟨-, rfl⟩ | ⟨-, rfl⟩
    · exact hs
    · exact hs.normalize_setRes a (hs.lt_of_le_len (cnt_le _ _ _))
  | countn a => exact execCountn_wf hs h
  | findlast a v => exact execFindlast_wf hs h
  | cntand a b => exact pairCount_wf bitwise_and rfl hs h
  | cntor a b => exact pairCount_wf bitwise_or rfl hs h
  | cntxor a b => exact pairCount_wf bitwise_xor rfl hs h
  | subset a b =>
    rcases execSubset_next h with ⟨c, -, rfl⟩ | ⟨-, x, rfl⟩
    · exact hs
    · exact normalizePair_wf hs a b

/-! ### The fatal fault: it comes from `checkIndex` alone (60_exceptions.md R215) -/

theorem checkSlot_fatal {k : Nat} {s t : State} {rest : Result} (h : checkSlot k s rest = .fault (.fatal t)) :
    rest = .fault (.fatal t) := by
  rcases checkSlot_cases k s rest with ⟨-, g⟩ | ⟨-, g⟩ <;> rw [g] at h
  · cases h
  · exact h

theorem checkByteOffset_fatal {s t : State} {rest : Result} (h : checkByteOffset s rest = .fault (.fatal t)) :
    rest = .fault (.fatal t) := by
  rcases checkByteOffset_cases s rest with ⟨-, g⟩ | ⟨-, g⟩ <;> rw [g] at h
  · cases h
  · exact h

theorem checkRam_fatal {k n : Nat} {s t : State} {rest : Result} (h : checkRam k n s rest = .fault (.fatal t)) :
    rest = .fault (.fatal t) := by
  rcases checkRam_cases k n s rest with ⟨-, g⟩ | ⟨-, g⟩ <;> rw [g] at h
  · cases h
  · exact h

theorem checkPair_fatal {ka kb : Nat} {s t : State} {rest : Result} (h : checkPair ka kb s rest = .fault (.fatal t)) :
    rest = .fault (.fatal t) := by
  rcases checkPair_cases ka kb s rest with ⟨-, g⟩ | ⟨-, ⟨-, g⟩ | ⟨-, ⟨-, g⟩ | ⟨-, g⟩⟩⟩ <;> rw [g] at h
  · cases h
  · cases h
  · cases h
  · exact checkRam_fatal h

theorem checkIndex_fatal {k : Nat} {s t : State} {rest : Result} (h : checkIndex k s rest = .fault (.fatal t)) :
    t = s.setFatal ∨ rest = .fault (.fatal t) := by
  rcases checkIndex_cases k s rest with ⟨-, -, g⟩ | ⟨-, -, g⟩ | ⟨-, g⟩ <;> rw [g] at h
  · cases h
  · cases h; exact .inl rfl
  · exact .inr h

theorem execCountn_ne_fatal (k : Nat) (s t : State) : execCountn k s ≠ .fault (.fatal t) := by
  intro h
  have hrest := checkRam_fatal (checkSlot_fatal h)
  split at hrest
  · cases hrest
  · simp only at hrest
    split at hrest <;> cases hrest

theorem execFindlast_ne_fatal (k : Nat) (v : Bool) (s t : State) : execFindlast k v s ≠ .fault (.fatal t) := by
  intro h
  have hrest := checkRam_fatal (checkSlot_fatal h)
  rcases findlastFrom_spec k v (normalize k s) with ⟨i, -, -, -, g⟩ | ⟨-, g⟩ <;> rw [g] at hrest <;> cases hrest

/-- The fatal fault carries the state before the command with `STATUS.FATAL = 1` and nothing else changed. -/
theorem exec_fatal {i : Instr} {s t : State} (h : exec i s = .fault (.fatal t)) : t = s.setFatal := by
  cases i with
  | nop | decode e | bytesfor | popb b | nibswap b => cases h
  | create a e =>
    rcases execCreate_cases a e s with ⟨-, g⟩ | ⟨-, ⟨-, g⟩ | ⟨-, g⟩⟩ <;> cases g.symm.trans h
  | resize a =>
    rcases execResize_cases a s with ⟨-, g⟩ | ⟨-, ⟨-, g⟩ | ⟨-, g⟩⟩ <;> cases g.symm.trans h
  | free a => cases checkSlot_fatal h
  | wrbyte a b => cases checkByteOffset_fatal (checkSlot_fatal h)
  | rdbyte a => cases checkByteOffset_fatal (checkSlot_fatal h)
  | getbit a | setbit a v =>
    rcases checkIndex_fatal (checkSlot_fatal h) with ht | hrest
    · exact ht
    · cases checkRam_fatal hrest
  | normtail a | count a => cases checkRam_fatal (checkSlot_fatal h)
  | countn a => exact absurd h (execCountn_ne_fatal a s t)
  | findlast a v => exact absurd h (execFindlast_ne_fatal a v s t)
  | cntand a b | cntor a b | cntxor a b | subset a b => cases checkPair_fatal h

/-! ### Steps -/

/-- Settles O58: a case per kind of host operation; a command keeps the invariant, and the fatal fault carries the state
before it. -/
theorem stepKeepsStateWellFormed : Obligations.StepKeepsStateWellFormed := by
  intro s t hs h
  rcases step_cases h with ⟨-, rfl⟩ | ⟨o, rest, -, ⟨-, rfl⟩ | ⟨r, v, -, -, rfl⟩ | ⟨v, -, hv, rfl⟩ |
    ⟨v, -, -, ⟨i, -, hnext | hfatal⟩ | rfl⟩ | ⟨r, v, -, -, rfl⟩⟩
  · exact hs
  · exact State.resetOf_wf hs.1 _ _
  · exact hs
  · exact hs.setOp hv
  · exact exec_wf (s := (s.dequeue rest).setCmd _) hs hnext
  · rw [exec_fatal hfatal]
    exact hs
  · exact hs
  · exact hs

end Sys2Proof.Machine
end

section
/-! Which command writes which slot field (10_state.md R25 to R27), said once for all commands, and the length
invariants of R28 that follow from it. -/

namespace Sys2Proof.Machine

/-- Every slot of `t` has the length, endianness and validity it has in `s`. -/
def SameSlotFields (s t : State) : Prop :=
  ∀ k, (t.slot k).len = (s.slot k).len ∧ (t.slot k).endian = (s.slot k).endian ∧ (t.slot k).valid = (s.slot k).valid

theorem SameSlotFields.of_slots_eq {s t : State} (h : t.slots = s.slots) : SameSlotFields s t := by
  intro k
  simp only [State.slot, h, and_self]

theorem ramOnly.sameSlotFields {s t : State} (h : ramOnly s t) : SameSlotFields s t := h.2.2

theorem Normalised.sameSlotFields {k : Nat} {s t : State} (h : Normalised k s t) : SameSlotFields s t := by
  rcases h with ⟨-, rfl⟩ | ⟨-, r, rfl | ⟨-, rfl⟩⟩
  · exact .of_slots_eq rfl
  · exact (normalize_ramOnly k s).sameSlotFields
  · exact (normalize_ramOnly k s).sameSlotFields

/-- A slot after a write of slot `a`: the new one, at number `a` only, or the old one. -/
theorem slot_setSlot_cases (s : State) (a : Nat) (sl : Slot) (k : Nat) :
    k = a ∧ (s.setSlot a sl).slot k = sl ∨ (s.setSlot a sl).slot k = s.slot k := by
  rw [State.slot_setSlot]
  split
  · rename_i hk; exact .inl ⟨hk.1, rfl⟩
  · exact .inr rfl

/-- What a command does to the fields of slot `k`: only `CREATE`, `RESIZE` and `FREE` of that slot write any. -/
theorem exec_slotFields {i : Instr} {s t : State} (h : exec i s = .next t) (k : Nat) :
    ((t.slot k).len = (s.slot k).len ∧ (t.slot k).endian = (s.slot k).endian ∧ (t.slot k).valid = (s.slot k).valid) ∨
      (∃ e, i = .create k e ∧ s.op ≤ maxBits s.cfg ∧ (t.slot k).len = s.op ∧ (t.slot k).valid = true) ∨
      (i = .resize k ∧ s.op ≤ maxBits s.cfg ∧ (t.slot k).len = s.op ∧ (t.slot k).endian = (s.slot k).endian ∧
        (t.slot k).valid = (s.slot k).valid) ∨
      (i = .free k ∧ (t.slot k).len = (s.slot k).len ∧ (t.slot k).endian = (s.slot k).endian ∧
        (t.slot k).valid = false) := by
  cases i with
  | nop | decode e | bytesfor | popb b | nibswap b => cases h; exact .inl (SameSlotFields.of_slots_eq rfl k)
  | create a e =>
    rcases execCreate_next h with ⟨-, rfl⟩ | ⟨-, ⟨rfl, -⟩ | ⟨ht, hle⟩⟩
    · exact .inl (SameSlotFields.of_slots_eq rfl k)
    · exact .inl (SameSlotFields.of_slots_eq rfl k)
    · rcases slot_setSlot_cases s a { s.slot a with len := s.op, endian := e, valid := true } k with ⟨rfl, g⟩ | g <;>
        rw [ht, State.slot_setCode, g]
      · exact .inr (.inl ⟨e, rfl, hle, rfl, rfl⟩)
      · exact .inl ⟨rfl, rfl, rfl⟩
  | resize a =>
    rcases execResize_next h with ⟨-, rfl⟩ | ⟨-, ⟨rfl, -⟩ | ⟨ht, hle⟩⟩
    · exact .inl (SameSlotFields.of_slots_eq rfl k)
    · exact .inl (SameSlotFields.of_slots_eq rfl k)
    · rcases slot_setSlot_cases s a { s.slot a with len := s.op } k with ⟨rfl, g⟩ | g <;>
        rw [ht, State.slot_setCode, State.setLen, g]
      · exact .inr (.inr (.inl ⟨rfl, hle, rfl, rfl, rfl⟩))
      · exact .inl ⟨rfl, rfl, rfl⟩
  | free a =>
    rcases execFree_next h with ⟨-, rfl⟩ | ⟨-, ht⟩
    · exact .inl (SameSlotFields.of_slots_eq rfl k)
    · rcases slot_setSlot_cases s a { s.slot a with valid := false } k with ⟨rfl, g⟩ | g <;>
        rw [ht, State.slot_setCode, State.setValid, g]
      · exact .inr (.inr (.inr ⟨rfl, rfl, rfl, rfl⟩))
      · exact .inl ⟨rfl, rfl, rfl⟩
  | wrbyte a b =>
    rcases execWrbyte_next h with ⟨-, rfl⟩ | ⟨-, ⟨rfl, -⟩ | ⟨rfl, -⟩⟩
    · exact .inl (SameSlotFields.of_slots_eq rfl k)
    · exact .inl (SameSlotFields.of_slots_eq rfl k)
    · exact .inl ((ramWrite_ramOnly s a s.op b).sameSlotFields k)
  | rdbyte a =>
    rcases execRdbyte_next h with ⟨-, rfl⟩ | ⟨-, ⟨rfl, -⟩ | ⟨rfl, -⟩⟩ <;> exact .inl (SameSlotFields.of_slots_eq rfl k)
  | getbit a =>
    rcases execGetbit_next h with ⟨-, rfl⟩ | ⟨-, ⟨rfl, -⟩ | ⟨rfl, -⟩⟩ <;> exact .inl (SameSlotFields.of_slots_eq rfl k)
  | setbit a v =>
    rcases execSetbit_next h with ⟨-, rfl⟩ | ⟨-, ⟨rfl, -⟩ | ⟨rfl, -⟩⟩
    · exact .inl (SameSlotFields.of_slots_eq rfl k)
    · exact .inl (SameSlotFields.of_slots_eq rfl k)
    · exact .inl ((bitWrite_ramOnly s a s.op v).sameSlotFields k)
  | normtail a => exact .inl ((Normalised.ofNormtail h).sameSlotFields k)
  | count a => exact .inl ((Normalised.ofCount h).sameSlotFields k)
  | countn a => exact .inl ((execCountn_next h).sameSlotFields k)
  | findlast a v => exact .inl ((execFindlast_next h).sameSlotFields k)
  | cntand a b | cntor a b | cntxor a b =>
    rcases pairCount_next h with ⟨c, -, rfl⟩ | ⟨-, r, rfl⟩
    · exact .inl (SameSlotFields.of_slots_eq rfl k)
    · exact .inl ((normalizePair_ramOnly a b s).sameSlotFields k)
  | subset a b =>
    rcases execSubset_next h with ⟨c, -, rfl⟩ | ⟨-, x, rfl⟩
    · exact .inl (SameSlotFields.of_slots_eq rfl k)
    · exact .inl ((normalizePair_ramOnly a b s).sameSlotFields k)

/-- Settles O45: `exec_slotFields`, case by case. -/
theorem slotFieldWriters : Obligations.SlotFieldWriters := by
  intro i s t h k
  rcases exec_slotFields h k with ⟨hl, he, hv⟩ | ⟨e, hi, -, -, hv⟩ | ⟨hi, -, -, he, hv⟩ | ⟨hi, hl, he, hv⟩
  · exact ⟨fun hne => absurd hl hne, fun hne => absurd he hne, fun hne => absurd hv hne⟩
  · exact ⟨fun _ => .inr ⟨e, hi⟩, fun _ => ⟨e, hi⟩, fun _ => ⟨fun _ => ⟨e, hi⟩, fun hf => by simp [hv] at hf⟩⟩
  · exact ⟨fun _ => .inl hi, fun hne => absurd he hne, fun hne => absurd hv hne⟩
  · exact ⟨fun hne => absurd hl hne, fun hne => absurd he hne, fun _ => ⟨fun ht => by simp [hv] at ht, fun _ => hi⟩⟩

/-! ### Lengths (10_state.md R28) -/

/-- 10_state.md R28 (a) to (c) of every slot number. -/
def LengthsFit (s : State) : Prop :=
  ∀ k, (s.slot k).len ≤ 8 * s.cfg.capBytes ∧ bytesUsed s k ≤ s.cfg.capBytes ∧
    8 * bytesUsed s k ≤ 8 * s.cfg.capBytes ∧ 8 * s.cfg.capBytes ≤ 2 ^ s.cfg.idxw - 8 ∧
    8 * bytesUsed s k < 2 ^ s.cfg.idxw ∧ (s.slot k).len + 7 < 2 ^ s.cfg.idxw ∧
    ∀ off, (ramRead s k off).toNat ≤ 0xFF

/-- The first clause of R28 gives the others, by R5's bound on `CAP_BYTES`. -/
theorem lengthsFit_of_len_le {s : State} (hc : s.cfg.wf) (hlen : ∀ k, (s.slot k).len ≤ maxBits s.cfg) :
    LengthsFit s := by
  intro k
  have hmax := maxBits_add_eight_le hc
  have hk := hlen k
  have hbyte : ∀ off, (ramRead s k off).toNat ≤ 0xFF := fun off => Nat.le_of_lt_succ (ramRead s k off).isLt
  simp only [maxBits, bytesUsed, bytesForBits_eq] at *
  exact ⟨hk, by omega, by omega, by omega, by omega, by omega, hbyte⟩

theorem State.slot_resetOf (c : Config) (draw : Nat) (ops : List HostOp) (k : Nat) :
    (State.resetOf c draw ops).slot k = Slot.vacant := by
  simp only [State.slot, State.resetOf, List.getD_eq_getElem?_getD, List.getElem?_replicate]
  split <;> rfl

theorem exec_len_le_maxBits {i : Instr} {s t : State} (h : exec i s = .next t)
    (hlen : ∀ k, (s.slot k).len ≤ maxBits s.cfg) (k : Nat) : (t.slot k).len ≤ maxBits s.cfg := by
  rcases exec_slotFields h k with ⟨hl, -⟩ | ⟨e, -, hle, hl, -⟩ | ⟨-, hle, hl, -⟩ | ⟨-, hl, -⟩ <;> rw [hl]
  · exact hlen k
  · exact hle
  · exact hle
  · exact hlen k

theorem exec_lengthsFit {i : Instr} {s t : State} (hc : s.cfg.wf) (hs : LengthsFit s) (h : exec i s = .next t) :
    LengthsFit t := by
  have hcfg : t.cfg = s.cfg := (exec_sameElse h).cfg
  refine lengthsFit_of_len_le (hcfg ▸ hc) fun k => ?_
  rw [hcfg]
  exact exec_len_le_maxBits h (fun j => (hs j).1) k

/-- A full byte of ones with no unused bit, and `OP = 4`: `RESIZE` of slot 0 makes four of its bits unused. -/
def fullByte : State :=
  { State.reset with op := 4, slots := [{ len := 8, endian := .little, valid := true, ram := [(0, 0xFF#8)] }, .vacant] }

/-- Settles O60: a slot is empty after reset; a command keeps each length or sets it to an `OP` of at most `MAXBITS`;
and `RESIZE` to fewer bits leaves unused bits that are 1. -/
theorem lengthInvariants : Obligations.LengthInvariants := by
  refine ⟨fun c draw ops hc => ?_, fun i s t hc hs h => exec_lengthsFit hc hs h, ?_⟩
  · refine lengthsFit_of_len_le hc fun k => ?_
    rw [State.slot_resetOf]
    exact Nat.zero_le _
  · exact ⟨.resize 0, fullByte, (fullByte.setLen 0 4).setCode .ok, by decide, rfl, 4, by decide, by decide, by decide⟩

end Sys2Proof.Machine
end

section
/-! Frames (10_state.md R24, R63; 41_buffer.md R132): the commands that change no slot, and the one-slot commands that
normalise. -/

namespace Sys2Proof.Machine

/-! ### Commands that store nothing -/

/-- A byte reads from the slots and the draw of RAM contents alone. -/
theorem ramRead_congr {s t : State} (hslots : t.slots = s.slots) (hdraw : t.draw = s.draw) (k off : Nat) :
    ramRead t k off = ramRead s k off := by
  simp only [ramRead, State.slot, hslots, hdraw]

theorem execRdbyte_frame {k : Nat} {s t : State} (h : execRdbyte k s = .next t) :
    t = { s with aux := t.aux, code := t.code } := by
  rcases execRdbyte_next h with ⟨-, rfl⟩ | ⟨-, ⟨rfl, -⟩ | ⟨rfl, -⟩⟩ <;> rfl

theorem execGetbit_frame {k : Nat} {s t : State} (h : execGetbit k s = .next t) :
    t = { s with aux := t.aux, code := t.code } := by
  rcases execGetbit_next h with ⟨-, rfl⟩ | ⟨-, ⟨rfl, -⟩ | ⟨rfl, -⟩⟩ <;> rfl

/-- The commands of R24 that store nothing, together: result registers and the code. -/
theorem registerCommand_frame {e : Endian} {b : Byte} {k : Nat} {i : Instr} {s t : State}
    (hi : i ∈ [Instr.nop, .decode e, .bytesfor, .popb b, .nibswap b, .rdbyte k, .getbit k]) (h : exec i s = .next t) :
    t = { s with res := t.res, aux := t.aux, code := t.code } := by
  simp only [List.mem_cons, List.not_mem_nil, or_false] at hi
  rcases hi with rfl | rfl | rfl | rfl | rfl | rfl | rfl
  · cases h; rfl
  · cases h; rfl
  · cases h; rfl
  · cases h; rfl
  · cases h; rfl
  · rw [execRdbyte_frame h]
  · rw [execGetbit_frame h]

/-- Settles O36: each command's frame, and bytes read from fields that none of the frames lets change. -/
theorem registerCommandsFrame : Obligations.RegisterCommandsFrame := by
  intro e b k s t
  refine ⟨fun h => ?_, fun h => ?_, fun h => ?_, fun h => ?_, fun h => ?_, execRdbyte_frame, execGetbit_frame,
    fun i hi h k' off => ?_⟩
  · cases h; rfl
  · cases h; rfl
  · cases h; rfl
  · cases h; rfl
  · cases h; rfl
  · have hframe := registerCommand_frame hi h
    exact ramRead_congr (by rw [hframe]) (by rw [hframe]) k' off

/-! ### One-slot commands that normalise -/

theorem paddingCleared.refl (s : State) : paddingCleared [] s s :=
  ⟨ramOnly.refl s, fun _ _ => ⟨fun h => absurd h.1 List.not_mem_nil, fun _ => rfl⟩⟩

/-- Such a command clears the padding of its slot, or of none, and writes `RES` and the code. -/
theorem Normalised.paddingCleared {k : Nat} {s t : State} (h : Normalised k s t) :
    ∃ ks u r c, (∀ j ∈ ks, j = k) ∧ Machine.paddingCleared ks s u ∧ t = (u.setRes r).setCode c := by
  rcases h with ⟨-, rfl⟩ | ⟨⟨hu, -⟩, r, rfl | ⟨-, rfl⟩⟩
  · exact ⟨[], s, s.res, .badSlot, by simp, .refl s, rfl⟩
  · exact ⟨[k], _, r, .ok, by simp, normalize_paddingCleared (State.lt_length_of_valid hu.2), rfl⟩
  · exact ⟨[k], _, r, .notFound, by simp, normalize_paddingCleared (State.lt_length_of_valid hu.2), rfl⟩

theorem ramOnly.setRes_setCode {s u : State} (h : ramOnly s u) (r : Nat) (c : Code) :
    ramOnly { s with res := r, code := c } ((u.setRes r).setCode c) :=
  ⟨by rw [h.eq]; rfl, h.2.1, h.2.2⟩

theorem Normalised.frame {k : Nat} {s t : State} (h : Normalised k s t) :
    ramOnly { s with res := t.res, code := t.code } t ∧
      (∀ k' off, ¬(k' = k ∧ (s.slot k).len % 8 ≠ 0 ∧ off + 1 = bytesUsed s k) → ramRead t k' off = ramRead s k' off) ∧
      ∀ k' x, x < (s.slot k').len → bitAt t k' x = bitAt s k' x := by
  obtain ⟨ks, u, r, c, hks, hpc, rfl⟩ := h.paddingCleared
  refine ⟨hpc.1.setRes_setCode r c, fun k' off hne => (hpc.2 k' off).2 fun hp => hne ?_,
    fun k' x hx => hpc.bitAt_logical hx⟩
  obtain ⟨hmem, hpart⟩ := hp
  obtain rfl := hks k' hmem
  exact ⟨rfl, hpart.1, (partialByte_iff.1 hpart).2⟩

theorem execNormtail_res {k : Nat} {s t : State} (h : execNormtail k s = .next t) : t.res = s.res := by
  rcases execNormtail_next h with ⟨-, rfl⟩ | ⟨-, rfl⟩
  · rfl
  · rw [State.setCode_res, (normalize_ramOnly k s).eq]

theorem normalised_of_mem {v : Bool} {k : Nat} {i : Instr} {s t : State}
    (hi : i ∈ [Instr.normtail k, .count k, .countn k, .findlast k v]) (h : exec i s = .next t) : Normalised k s t := by
  simp only [List.mem_cons, List.not_mem_nil, or_false] at hi
  rcases hi with rfl | rfl | rfl | rfl
  · exact .ofNormtail h
  · exact .ofCount h
  · exact execCountn_next h
  · exact execFindlast_next h

/-- Settles O39: the four commands share `Normalised.frame`; `NORMTAIL` writes no result. -/
theorem normalisingCommandsFrame : Obligations.NormalisingCommandsFrame := by
  intro v k s t i hi h
  obtain ⟨hram, hbytes, hbits⟩ := (normalised_of_mem hi h).frame
  refine ⟨hram, fun hn => ?_, hbytes, hbits⟩
  subst hn
  exact execNormtail_res h

end Sys2Proof.Machine
end

section
/-! What a command reads: the parameters, the slots, the draw of RAM contents, and `OP` where its rule names it, but no
earlier result and not `STATUS` (10_state.md R22, R31). Two runs from states that agree on these stay in step, check by
check and scan by scan. -/

namespace Sys2Proof.Machine

/-- `s` and `s'` have the same parameters, slots and unwritten bytes. -/
structure SameMemory (s s' : State) : Prop where
  cfg : s'.cfg = s.cfg
  slots : s'.slots = s.slots
  draw : s'.draw = s.draw

namespace SameMemory

variable {s s' : State} (h : SameMemory s s')

include h

/-! ### What is read of memory is the same -/

theorem slot : s'.slot = s.slot := by funext k; simp only [State.slot, h.slots]

theorem ramRead : ramRead s' = ramRead s := by funext k off; exact ramRead_congr h.slots h.draw k off

theorem bytesUsed : bytesUsed s' = bytesUsed s := by funext k; simp only [Machine.bytesUsed, h.slot]

theorem bitRead : bitRead s' = bitRead s := by funext k i; simp only [Machine.bitRead, h.ramRead, h.slot]

theorem blockSum : blockSum s' = blockSum s := by
  funext k lo hi
  simp only [Machine.blockSum, sumBytes_eq_sum, h.ramRead]

theorem fold (ka kb : Nat) (f : Byte → Byte → Byte) : fold s' ka kb f = fold s ka kb f := by
  simp only [Machine.fold, foldFrom_eq_sum, h.ramRead, h.bytesUsed]

theorem subsetFrom (ka kb n q : Nat) : subsetFrom s' ka kb n q = subsetFrom s ka kb n q := by
  rw [Bool.eq_iff_iff]
  simp only [subsetFrom_iff, h.ramRead]

theorem commitBlocks (k n bits fuel : Nat) (p : Scan) :
    commitBlocks s' k n bits fuel p = commitBlocks s k n bits fuel p := by
  induction fuel generalizing p with
  | zero => rfl
  | succ fuel ih => simp only [Machine.commitBlocks, h.slot, h.blockSum, ih]

theorem scanBits (k n fuel : Nat) (p : Scan) : scanBits s' k n fuel p = scanBits s k n fuel p := by
  induction fuel generalizing p with
  | zero => rfl
  | succ fuel ih => simp only [Machine.scanBits, h.slot, h.bitRead, ih]

theorem locate (k n : Nat) : locate s' k n = locate s k n := by
  simp only [Machine.locate, phase1, phase2, phase3, h.commitBlocks, h.scanBits, h.slot, h.cfg]

theorem scanBack (k : Nat) (v : Bool) (lo n : Nat) : scanBack s' k v lo n = scanBack s k v lo n := by
  induction n with
  | zero => rfl
  | succ n ih => simp only [Machine.scanBack, h.bitRead, ih]

theorem skipBytes (k : Nat) (b : Byte) (n : Nat) : skipBytes s' k b n = skipBytes s k b n := by
  induction n with
  | zero => rfl
  | succ n ih => simp only [Machine.skipBytes, h.ramRead, ih]

/-! ### The same writes leave the same memory -/

theorem setSlot (k : Nat) (sl : Slot) : SameMemory (s.setSlot k sl) (s'.setSlot k sl) :=
  ⟨h.cfg, by simp only [State.setSlot_slots, h.slots], h.draw⟩

theorem ramWrite (k off : Nat) (v : Byte) : SameMemory (ramWrite s k off v) (ramWrite s' k off v) := by
  unfold Machine.ramWrite
  rw [h.slot]
  exact h.setSlot k _

theorem bitWrite (k i : Nat) (v : Bool) : SameMemory (bitWrite s k i v) (bitWrite s' k i v) := by
  simp only [Machine.bitWrite, h.slot, h.ramRead]
  exact h.ramWrite k _ _

omit h in
theorem clearBits (h : SameMemory s s') (k n i : Nat) : SameMemory (clearBits k n i s) (clearBits k n i s') := by
  induction n generalizing i s s' with
  | zero => exact h
  | succ n ih => exact ih (h.bitWrite k i false) (i + 1)

theorem normalize (k : Nat) : SameMemory (normalize k s) (normalize k s') := by
  unfold Machine.normalize
  rw [h.bytesUsed, h.slot]
  exact h.clearBits k _ _

theorem normalizePair (ka kb : Nat) : SameMemory (normalizePair ka kb s) (normalizePair ka kb s') :=
  (h.normalize ka).normalize kb

end SameMemory

/-! ### Outcomes in step -/

/-- `u`, come from `s`, and `u'`, come from `s'`: the same memory, and each result register the same or written in
neither. -/
structure SameUpdate (s s' u u' : State) : Prop where
  memory : SameMemory u u'
  res : u'.res = u.res ∨ u.res = s.res ∧ u'.res = s'.res
  aux : u'.aux = u.aux ∨ u.aux = s.aux ∧ u'.aux = s'.aux

/-- If a command on `s` ends in a next state by `r`, then on `s'` by `r'`, with the same code and the same update. -/
def Follows (s s' : State) (r r' : Result) : Prop :=
  ∀ t, r = .next t → ∃ t', r' = .next t' ∧ t'.code = t.code ∧ SameUpdate s s' t t'

variable {s s' : State}

theorem SameMemory.unchanged (h : SameMemory s s') : SameUpdate s s' s s' := ⟨h, .inr ⟨rfl, rfl⟩, .inr ⟨rfl, rfl⟩⟩

theorem SameMemory.ramOnly {u u' : State} (h : SameMemory u u') (hu : ramOnly s u) (hu' : ramOnly s' u') :
    SameUpdate s s' u u' :=
  ⟨h, .inr ⟨by rw [hu.eq], by rw [hu'.eq]⟩, .inr ⟨by rw [hu.eq], by rw [hu'.eq]⟩⟩

theorem SameMemory.normalized (h : SameMemory s s') (k : Nat) :
    SameUpdate s s' (Machine.normalize k s) (Machine.normalize k s') :=
  (h.normalize k).ramOnly (normalize_ramOnly k s) (normalize_ramOnly k s')

theorem SameMemory.normalizedPair (h : SameMemory s s') (ka kb : Nat) :
    SameUpdate s s' (Machine.normalizePair ka kb s) (Machine.normalizePair ka kb s') :=
  (h.normalizePair ka kb).ramOnly (normalizePair_ramOnly ka kb s) (normalizePair_ramOnly ka kb s')

theorem SameUpdate.setRes {u u' : State} (h : SameUpdate s s' u u') (v : Nat) :
    SameUpdate s s' (u.setRes v) (u'.setRes v) :=
  ⟨⟨h.memory.cfg, h.memory.slots, h.memory.draw⟩, .inl rfl, h.aux⟩

theorem SameUpdate.setAux {u u' : State} (h : SameUpdate s s' u u') (x : Byte) :
    SameUpdate s s' (u.setAux x) (u'.setAux x) :=
  ⟨⟨h.memory.cfg, h.memory.slots, h.memory.draw⟩, h.res, .inl rfl⟩

theorem SameMemory.setSlot_unchanged (h : SameMemory s s') (k : Nat) (sl : Slot) :
    SameUpdate s s' (s.setSlot k sl) (s'.setSlot k sl) :=
  ⟨h.setSlot k sl, .inr ⟨rfl, rfl⟩, .inr ⟨rfl, rfl⟩⟩

namespace Follows

theorem raise {u u' : State} (h : SameUpdate s s' u u') (c : Code) : Follows s s' (raise c u) (raise c u') := by
  intro t ht
  cases ht
  exact ⟨_, rfl, rfl, ⟨h.memory.cfg, h.memory.slots, h.memory.draw⟩, h.res, h.aux⟩

theorem done {u u' : State} (h : SameUpdate s s' u u') : Follows s s' (done u) (done u') := raise h .ok

theorem raiseNotFound {u u' : State} (h : SameUpdate s s' u u') :
    Follows s s' (raiseNotFound u) (raiseNotFound u') := by
  unfold Machine.raiseNotFound
  rw [h.memory.cfg]
  exact raise (h.setRes _) .notFound

theorem fault (f : Fault) (r : Result) : Follows s s' (.fault f) r := fun _ ht => by cases ht

section
variable {rest rest' : Result} (h : SameMemory s s') (hr : Follows s s' rest rest')
include h hr

theorem checkSlotNumber (k : Nat) : Follows s s' (checkSlotNumber k s rest) (checkSlotNumber k s' rest') := by
  unfold Machine.checkSlotNumber
  rw [h.cfg]
  split
  · exact raise h.unchanged _
  · exact hr

theorem checkSlot (k : Nat) : Follows s s' (checkSlot k s rest) (checkSlot k s' rest') := by
  unfold Machine.checkSlot
  rw [h.cfg, h.slot]
  split
  · exact raise h.unchanged _
  · exact hr

theorem checkCapacity (hop : s'.op = s.op) : Follows s s' (checkCapacity s rest) (checkCapacity s' rest') := by
  unfold Machine.checkCapacity
  rw [h.cfg, hop]
  split
  · exact raise h.unchanged _
  · exact hr

theorem checkByteOffset (hop : s'.op = s.op) : Follows s s' (checkByteOffset s rest) (checkByteOffset s' rest') := by
  unfold Machine.checkByteOffset
  rw [h.cfg, hop]
  split
  · exact raise h.unchanged _
  · exact hr

theorem checkIndex (hop : s'.op = s.op) (k : Nat) : Follows s s' (checkIndex k s rest) (checkIndex k s' rest') := by
  unfold Machine.checkIndex
  rw [h.cfg, h.slot, hop]
  split
  · split
    · exact raise h.unchanged _
    · exact fault _ _
  · exact hr

theorem checkRam (k n : Nat) : Follows s s' (checkRam k n s rest) (checkRam k n s' rest') := by
  unfold Machine.checkRam
  rw [h.cfg]
  split
  · exact fault _ _
  · exact hr

/-- The checks of the one-slot commands that normalise. -/
theorem checkUsed (k : Nat) :
    Follows s s' (Machine.checkSlot k s (Machine.checkRam k (bytesUsed s k) s rest))
      (Machine.checkSlot k s' (Machine.checkRam k (bytesUsed s' k) s' rest')) := by
  rw [h.bytesUsed]
  exact checkSlot h (checkRam h hr k _) k

theorem checkPair (ka kb : Nat) : Follows s s' (checkPair ka kb s rest) (checkPair ka kb s' rest') := by
  refine checkSlot h (checkSlot h ?_ kb) ka
  rw [h.slot, h.bytesUsed]
  split
  · exact raise h.unchanged _
  · split
    · exact raise h.unchanged _
    · exact checkRam h hr ka _

end

theorem findlastFrom {u u' : State} (h : SameUpdate s s' u u') (k : Nat) (v : Bool) :
    Follows s s' (findlastFrom k v u) (findlastFrom k v u') := by
  have hm := h.memory
  unfold Machine.findlastFrom findlastBytes
  simp only [hm.slot, hm.bytesUsed, hm.scanBack, hm.skipBytes]
  split
  · exact raiseNotFound h
  · split
    · exact done (h.setRes _)
    · split
      · exact raiseNotFound h
      · split
        · exact done (h.setRes _)
        · exact fault _ _

/-- `GETBIT` and `SETBIT`, with `rest` what they do on an index in range. -/
theorem checkBit {rest rest' : Result} (h : SameMemory s s') (hr : Follows s s' rest rest') (hop : s'.op = s.op)
    (k : Nat) :
    Follows s s'
      (Machine.checkSlot k s <| Machine.checkIndex k s <|
        Machine.checkRam k (byteIndex (s.slot k).endian s.op + 1) s rest)
      (Machine.checkSlot k s' <| Machine.checkIndex k s' <|
        Machine.checkRam k (byteIndex (s'.slot k).endian s'.op + 1) s' rest') := by
  rw [h.slot, hop]
  exact checkSlot h (checkIndex h (checkRam h hr k _) hop k) k

theorem execCountn (h : SameMemory s s') (hop : s'.op = s.op) (k : Nat) :
    Follows s s' (execCountn k s) (execCountn k s') := by
  have hnorm := h.normalized k
  refine checkUsed h ?_ k
  simp only [hop, hnorm.memory.locate]
  split
  · exact done (hnorm.setRes _)
  · split
    · exact done (hnorm.setRes _)
    · exact raiseNotFound hnorm

theorem pairCount (h : SameMemory s s') (f : Byte → Byte → Byte) (ka kb : Nat) :
    Follows s s' (pairCount f ka kb s) (pairCount f ka kb s') := by
  have hnorm := h.normalizedPair ka kb
  refine checkPair h ?_ ka kb
  rw [hnorm.memory.fold]
  exact done (hnorm.setRes _)

end Follows

/-- Whether the rule of a command names an `OP` operand (10_state.md R22, 30_encoding.md R74). -/
def readsOp : Instr → Bool
  | .nop | .popb _ | .nibswap _ | .free _ | .normtail _ | .count _ | .findlast _ _ => false
  | .cntand _ _ | .cntor _ _ | .cntxor _ _ | .subset _ _ => false
  | .decode _ | .bytesfor | .create _ _ | .resize _ | .wrbyte _ _ | .rdbyte _ => true
  | .getbit _ | .setbit _ _ | .countn _ => true

/-- A command reads the parameters, the slots, the draw, and `OP` if its rule names it. -/
theorem exec_follows {i : Instr} (h : SameMemory s s') (hop : readsOp i = true → s'.op = s.op) :
    Follows s s' (exec i s) (exec i s') := by
  cases i with
  | nop => exact .done h.unchanged
  | decode e =>
    simp only [exec, execDecode, hop rfl]
    exact .done ((h.unchanged.setRes _).setAux _)
  | bytesfor =>
    simp only [exec, execBytesfor, hop rfl]
    exact .done (h.unchanged.setRes _)
  | popb b => exact .done (h.unchanged.setRes _)
  | nibswap b => exact .done (h.unchanged.setAux _)
  | create a e =>
    refine .checkSlotNumber h (.checkCapacity h (.done ?_) (hop rfl)) a
    rw [h.slot, hop rfl]
    exact h.setSlot_unchanged a _
  | resize a =>
    refine .checkSlot h (.checkCapacity h (.done ?_) (hop rfl)) a
    rw [State.setLen, State.setLen, h.slot, hop rfl]
    exact h.setSlot_unchanged a _
  | free a =>
    refine .checkSlot h (.done ?_) a
    rw [State.setValid, State.setValid, h.slot]
    exact h.setSlot_unchanged a _
  | wrbyte a b =>
    refine .checkSlot h (.checkByteOffset h (.done ?_) (hop rfl)) a
    rw [hop rfl]
    exact (h.ramWrite a _ b).ramOnly (ramWrite_ramOnly _ _ _ _) (ramWrite_ramOnly _ _ _ _)
  | rdbyte a =>
    refine .checkSlot h (.checkByteOffset h (.done ?_) (hop rfl)) a
    rw [h.ramRead, hop rfl]
    exact h.unchanged.setAux _
  | getbit a =>
    refine .checkBit h (.done ?_) (hop rfl) a
    rw [h.bitRead, hop rfl]
    exact h.unchanged.setAux _
  | setbit a v =>
    refine .checkBit h (.done ?_) (hop rfl) a
    rw [hop rfl]
    exact (h.bitWrite a _ v).ramOnly (bitWrite_ramOnly _ _ _ _) (bitWrite_ramOnly _ _ _ _)
  | normtail a => exact .checkUsed h (.done (h.normalized a)) a
  | count a =>
    refine .checkUsed h (.done ?_) a
    rw [h.bytesUsed, (h.normalize a).blockSum]
    exact (h.normalized a).setRes _
  | countn a => exact .execCountn h (hop rfl) a
  | findlast a v => exact .checkUsed h (.findlastFrom (h.normalized a) a v) a
  | cntand a b | cntor a b | cntxor a b => exact .pairCount h _ a b
  | subset a b =>
    refine .checkPair h (.done ?_) a b
    rw [h.bytesUsed, (h.normalizePair a b).subsetFrom]
    exact (h.normalizedPair a b).setAux _

/-- Settles O48: `exec_follows`, as the statement spells it out. -/
theorem outcomeIgnoresEarlierResults : Obligations.OutcomeIgnoresEarlierResults := by
  intro i s s' t hcfg hop hslots hdraw h
  obtain ⟨t', h', hcode, hupd⟩ := exec_follows ⟨hcfg, hslots, hdraw⟩ (fun _ => hop) t h
  exact ⟨t', h', hcode, hupd.memory.slots, hupd.res, hupd.aux⟩

theorem SameElse.eq {t : State} (h : SameElse s t) :
    t = { s with res := t.res, aux := t.aux, code := t.code, slots := t.slots } := by
  rw [← h.cfg, ← h.op, ← h.cmd, ← h.fatal, ← h.draw, ← h.hostOps, ← h.portOut]

/-- With the same result registers before, the whole next state follows. -/
theorem exec_eq_of_sameResults {i : Instr} {t : State} (h : SameMemory s s') (hop : readsOp i = true → s'.op = s.op)
    (hres : s'.res = s.res) (haux : s'.aux = s.aux) (ht : exec i s = .next t) :
    exec i s' = .next { s' with res := t.res, aux := t.aux, code := t.code, slots := t.slots } := by
  obtain ⟨t', ht', hcode, hupd⟩ := exec_follows h hop t ht
  have hres' : t'.res = t.res := hupd.res.elim id fun ⟨h1, h2⟩ => by rw [h1, h2, hres]
  have haux' : t'.aux = t.aux := hupd.aux.elim id fun ⟨h1, h2⟩ => by rw [h1, h2, haux]
  rw [ht', (exec_sameElse ht').eq, hres', haux', hcode, hupd.memory.slots]

/-- A command that names no `OP` operand does the same for every `OP`. -/
theorem exec_setOp {i : Instr} {t : State} (hi : readsOp i = false) (v : Nat) (ht : exec i s = .next t) :
    exec i { s with op := v } = .next { t with op := v } := by
  have hexec := exec_eq_of_sameResults (s := s) (s' := { s with op := v }) ⟨rfl, rfl, rfl⟩
    (fun hreads => by simp [hi] at hreads) rfl rfl ht
  rw [hexec, (exec_sameElse ht).eq]

/-- Every command that goes on writes `STATUS.CODE`, so the code before it does not matter. -/
theorem exec_setCode {i : Instr} {t : State} (c : Code) (ht : exec i s = .next t) :
    exec i { s with code := c } = .next t := by
  have hexec := exec_eq_of_sameResults (s := s) (s' := { s with code := c }) ⟨rfl, rfl, rfl⟩ (fun _ => rfl) rfl rfl ht
  rw [hexec, (exec_sameElse ht).eq]

/-- Settles O49: the port's write of `OP`, the frame of every command, and `exec_setOp`. -/
theorem opIsHostsAndIgnoredWhereUnused : Obligations.OpIsHostsAndIgnoredWhereUnused := by
  refine ⟨fun s v rest h hv => step_write_op h hv, fun i s t h => (exec_sameElse h).op, fun i s t v hi h => ?_⟩
  refine exec_setOp ?_ v h
  cases i with
  | nop | popb b | nibswap b | free a | normtail a | count a | findlast a v => rfl
  | cntand a b | cntor a b | cntxor a b | subset a b => rfl
  | decode e | bytesfor | create a e | resize a | wrbyte a b | rdbyte a => exact hi.elim
  | getbit a | setbit a v | countn a => exact hi.elim

end Sys2Proof.Machine
end

section
/-! The host port and the reset input (10_state.md R23, R29, R35, R36): one lemma per kind of register, then the
statements about reads, writes, `STATUS` and reset. -/

namespace Sys2Proof.Machine

/-! ### The register map (10_state.md R21) -/

theorem regRead_of_ge {r : Nat} (s : State) (h : 5 ≤ r) :
    regRead s r = if isSlotReg s.cfg r then
      some (if r % 2 = 0 then (s.slot (regSlot r)).len else bufctlWord (s.slot (regSlot r))) else none := by
  obtain ⟨n, rfl⟩ := Nat.exists_eq_add_of_le' h
  rfl

theorem regWidth_of_ge {r : Nat} (c : Config) (h : 5 ≤ r) :
    regWidth c r = if isSlotReg c r then some (if r % 2 = 0 then c.idxw else 32) else none := by
  obtain ⟨n, rfl⟩ := Nat.exists_eq_add_of_le' h
  rfl

theorem isSlotReg_iff (c : Config) (r : Nat) : isSlotReg c r = true ↔ 16 ≤ r ∧ r < 16 + 2 * c.nbuf :=
  decide_eq_true_iff

theorem regRead_buflen (s : State) {k : Nat} (hk : k < s.cfg.nbuf) :
    regRead s (16 + 2 * k) = some (s.slot k).len := by
  rw [regRead_of_ge s (by omega), if_pos ((isSlotReg_iff _ _).2 (by omega)), if_pos (by omega),
    show regSlot (16 + 2 * k) = k by unfold regSlot; omega]

theorem regRead_bufctl (s : State) {k : Nat} (hk : k < s.cfg.nbuf) :
    regRead s (17 + 2 * k) = some (bufctlWord (s.slot k)) := by
  rw [regRead_of_ge s (by omega), if_pos ((isSlotReg_iff _ _).2 (by omega)), if_neg (by omega),
    show regSlot (17 + 2 * k) = k by unfold regSlot; omega]

theorem regWidth_buflen (c : Config) {k : Nat} (hk : k < c.nbuf) : regWidth c (16 + 2 * k) = some c.idxw := by
  rw [regWidth_of_ge c (by omega), if_pos ((isSlotReg_iff _ _).2 (by omega)), if_pos (by omega)]

theorem regWidth_bufctl (c : Config) {k : Nat} (hk : k < c.nbuf) : regWidth c (17 + 2 * k) = some 32 := by
  rw [regWidth_of_ge c (by omega), if_pos ((isSlotReg_iff _ _).2 (by omega)), if_neg (by omega)]

theorem isSlotReg_unmapped {c : Config} {r : Nat} (h : r < 16 ∨ 16 + 2 * c.nbuf ≤ r) : ¬isSlotReg c r = true := by
  rw [isSlotReg_iff]
  omega

theorem bufctlWord_eq (sl : Slot) :
    bufctlWord sl = (if sl.valid then 1 else 0) + (if sl.endian = .big then 2 else 0) := by
  unfold bufctlWord
  cases sl.endian <;> rfl

/-! ### Reads and writes through the port -/

/-- A write of a register other than `OP` and `CMD`, of a value of its width, does nothing. -/
theorem step_write_readOnly {s : State} {r v width : Nat} {rest : List HostOp} (h : s.hostOps = .write r v :: rest)
    (hr : 2 ≤ r) (hw : regWidth s.cfg r = some width) (hv : v < 2 ^ width) : step s = .next (s.dequeue rest) := by
  rw [step_serve h, serve]
  rcases hostWrite_cases r v (s.dequeue rest) with ⟨hn, -⟩ | ⟨width', hw', ⟨hwide, -⟩ | ⟨-, ⟨h0, -⟩ | ⟨h1, -⟩ | ⟨-, g⟩⟩⟩
  · cases hn.symm.trans hw
  · cases hw'.symm.trans hw
    exact absurd hv (Nat.not_lt.2 hwide)
  · omega
  · omega
  · exact g

theorem step_read_unmapped {s : State} {r : Nat} {rest : List HostOp} (h : s.hostOps = .read r :: rest)
    (hr : regRead s r = none) : step s = .refused (.unmappedRegister r) := by
  rw [step_serve h]
  simp only [serve, hostRead, show regRead (s.dequeue rest) r = regRead s r from rfl, hr]

theorem step_write_unmapped {s : State} {r v : Nat} {rest : List HostOp} (h : s.hostOps = .write r v :: rest)
    (hr : regWidth s.cfg r = none) : step s = .refused (.unmappedRegister r) := by
  rw [step_serve h]
  simp only [serve, hostWrite, State.dequeue_cfg, hr]

/-- Settles O54: the register map read, written and refused, number by number. -/
theorem registerAccess : Obligations.RegisterAccess := by
  intro s rest
  refine ⟨fun r x hops hmem => ?_, fun k hk => ⟨fun hops => ?_, fun hops x hx => ?_⟩, fun r v hops hr => ?_,
    fun v hops hv => step_write_op hops hv, fun r hr hun => ⟨fun hops => ?_, fun v hops => ?_⟩⟩
  · refine step_read hops ?_
    simp only [List.mem_cons, List.not_mem_nil, or_false, Prod.mk.injEq] at hmem
    rcases hmem with ⟨rfl, rfl⟩ | ⟨rfl, rfl⟩ | ⟨rfl, rfl⟩ | ⟨rfl, rfl⟩ | ⟨rfl, rfl⟩ <;> rfl
  · exact step_read hops (regRead_buflen s hk)
  · rw [hx, ← bufctlWord_eq]
    exact step_read hops (regRead_bufctl s hk)
  · rcases hr with ⟨rfl, hv⟩ | ⟨rfl, hv⟩ | ⟨rfl, hv⟩ | ⟨k, hk, ⟨rfl, hv⟩ | ⟨rfl, hv⟩⟩
    · exact step_write_readOnly hops (by omega) rfl hv
    · exact step_write_readOnly hops (by omega) rfl hv
    · exact step_write_readOnly hops (by omega) rfl hv
    · exact step_write_readOnly hops (by omega) (regWidth_buflen s.cfg hk) hv
    · exact step_write_readOnly hops (by omega) (regWidth_bufctl s.cfg hk) hv
  · exact step_read_unmapped hops (by rw [regRead_of_ge s hr, if_neg (isSlotReg_unmapped hun)])
  · exact step_write_unmapped hops (by rw [regWidth_of_ge s.cfg hr, if_neg (isSlotReg_unmapped hun)])

theorem runCommand_ok {w : CmdWord} {i : Instr} (h : decode w = .ok i) (s : State) :
    runCommand w s = exec i (s.setCmd w) := by
  simp only [runCommand, h]

/-- Settles O51: a write of `CMD` by the value of `FATAL`, and the read of register 1. -/
theorem commandWriteRunsDecodedCommand : Obligations.CommandWriteRunsDecodedCommand := by
  intro s rest
  refine ⟨fun v i hops hv hf hd => ?_, fun v hops hv hf => ?_, fun hops => step_read hops rfl⟩
  · rw [step_write_cmd hops hv, if_neg (by rw [hf]; exact Bool.false_ne_true), runCommand_ok hd]
    rfl
  · rw [step_write_cmd hops hv, if_pos hf]
    rfl

/-! ### `STATUS` (10_state.md R29, 60_exceptions.md R200) -/

theorem code_number_lt (c : Code) : c.number < 2 ^ 4 := by cases c <;> decide

/-- `STATUS` taken apart: `CODE` below bit 4, nothing in bits 30:4, `FATAL` in bit 31. -/
theorem statusWord_fields (s : State) :
    statusWord s % 2 ^ 4 = s.code.number ∧ statusWord s / 2 ^ 4 % 2 ^ 27 = 0 ∧
      statusWord s / 2 ^ 31 = if s.fatal then 1 else 0 := by
  have hlt := code_number_lt s.code
  unfold statusWord
  split <;> omega

/-- Settles O55: the fields of `STATUS`, and `exec_setCode`. -/
theorem statusRegisterLayout : Obligations.StatusRegisterLayout := by
  refine ⟨fun s rest hops => ?_, fun i s t c h => exec_setCode c h⟩
  obtain ⟨hcode, hzero, hfatal⟩ := statusWord_fields s
  refine ⟨statusWord s, step_read hops rfl, hcode.trans ?_, hzero, hfatal⟩
  cases s.code <;> rfl

/-! ### Reset (10_state.md R36, 70_reset_and_hazards.md R230, R231) -/

theorem ramRead_resetOf (c : Config) (draw : Nat) (ops : List HostOp) (k off : Nat) :
    ramRead (State.resetOf c draw ops) k off = Config.resetByte draw k off := by
  unfold ramRead
  rw [State.slot_resetOf]
  rfl

/-- Settles O56: a reset step leaves `State.resetOf`, whose slots are all vacant. -/
theorem resetState : Obligations.ResetState := by
  refine ⟨fun s rest hops => ⟨State.resetOf s.cfg (s.draw + 1) rest, step_serve hops, rfl, rfl, rfl, rfl, rfl, rfl,
    List.length_replicate, fun k => ?_, Nat.lt_succ_self _, rfl, rfl⟩,
    rfl, rfl, rfl, rfl, rfl, rfl, rfl, rfl, fun k => ?_⟩
  · rw [State.slot_resetOf]
    exact ⟨rfl, rfl, rfl, ramRead_resetOf _ _ _ k⟩
  · rw [State.reset, State.slot_resetOf]
    exact ⟨rfl, rfl, rfl, rfl⟩

end Sys2Proof.Machine
end

section
/-! RAM over a write and over a command (20_memory.md R51, R62): which bytes change, and which stay as they were. -/

namespace Sys2Proof.Machine

/-- Settles O8: a store reads back at its own offset and keeps every other byte and the canonical form. -/
theorem ramReadAfterWrite : Obligations.RamReadAfterWrite := by
  intro s k off v hs hk hoff
  have hlen : k < s.slots.length := by
    obtain ⟨-, -, -, hslots, -⟩ := hs
    rwa [hslots]
  refine ⟨ramWrite_wf hs k hoff v, fun k' off' => ⟨fun hsame => ?_, fun hother => ?_⟩⟩
  · rw [ramRead_ramWrite hlen, if_pos hsame]
  · rw [ramRead_ramWrite hlen, if_neg hother]

/-! ### Commands that write slot fields -/

theorem State.setSlot_slot_self (s : State) (k : Nat) : s.setSlot k (s.slot k) = s := by
  have hslots : s.slots.set k (s.slot k) = s.slots := by
    refine List.ext_getElem? fun j => ?_
    rw [List.getElem?_set, State.slot, List.getD_eq_getElem?_getD]
    grind
  rw [State.setSlot, hslots]

/-- `CREATE`, `RESIZE` and `FREE` replace the slot they name by one with the same RAM (by itself on an error), and write
the code. -/
theorem slotFieldCommand_next {e : Endian} {k : Nat} {i : Instr} {s t : State}
    (hi : i ∈ [Instr.create k e, .resize k, .free k]) (h : exec i s = .next t) :
    ∃ sl c, sl.ram = (s.slot k).ram ∧ t = (s.setSlot k sl).setCode c := by
  have error : ∀ c, ∃ sl c', sl.ram = (s.slot k).ram ∧ s.setCode c = (s.setSlot k sl).setCode c' :=
    fun c => ⟨s.slot k, c, rfl, by rw [State.setSlot_slot_self]⟩
  simp only [List.mem_cons, List.not_mem_nil, or_false] at hi
  rcases hi with rfl | rfl | rfl
  · rcases execCreate_next h with ⟨-, rfl⟩ | ⟨-, ⟨rfl, -⟩ | ⟨rfl, -⟩⟩
    · exact error _
    · exact error _
    · exact ⟨{ s.slot k with len := s.op, endian := e, valid := true }, .ok, rfl, rfl⟩
  · rcases execResize_next h with ⟨-, rfl⟩ | ⟨-, ⟨rfl, -⟩ | ⟨rfl, -⟩⟩
    · exact error _
    · exact error _
    · exact ⟨{ s.slot k with len := s.op }, .ok, rfl, rfl⟩
  · rcases execFree_next h with ⟨-, rfl⟩ | ⟨-, rfl⟩
    · exact error _
    · exact ⟨{ s.slot k with valid := false }, .ok, rfl, rfl⟩

theorem slotFieldCommand_ramRead {e : Endian} {k : Nat} {i : Instr} {s t : State}
    (hi : i ∈ [Instr.create k e, .resize k, .free k]) (h : exec i s = .next t) (k' off : Nat) :
    ramRead t k' off = ramRead s k' off := by
  obtain ⟨sl, c, hram, rfl⟩ := slotFieldCommand_next hi h
  exact ramRead_setSlot hram k' off

theorem execResize_keeps {k : Nat} {s t : State} (h : exec (.resize k) s = .next t) :
    (t.slot k).endian = (s.slot k).endian ∧ (t.slot k).valid = (s.slot k).valid := by
  rcases exec_slotFields h k with ⟨-, hsame⟩ | ⟨e, hi, -⟩ | ⟨-, -, -, hsame⟩ | ⟨hi, -⟩
  · exact hsame
  · cases hi
  · exact hsame
  · cases hi

theorem execFree_keeps {k : Nat} {s t : State} (h : exec (.free k) s = .next t) :
    (t.slot k).len = (s.slot k).len ∧ (t.slot k).endian = (s.slot k).endian := by
  rcases exec_slotFields h k with ⟨hl, he, -⟩ | ⟨e, hi, -⟩ | ⟨hi, -⟩ | ⟨-, hl, he, -⟩
  · exact ⟨hl, he⟩
  · cases hi
  · cases hi
  · exact ⟨hl, he⟩

/-- Settles O37: the three commands share `slotFieldCommand_next`; what `RESIZE` and `FREE` keep of the slot they name is
`exec_slotFields`. -/
theorem slotFieldCommandsFrame : Obligations.SlotFieldCommandsFrame := by
  intro e k s t i hi h
  have hbytes := slotFieldCommand_ramRead hi h
  obtain ⟨sl, c, -, rfl⟩ := slotFieldCommand_next hi h
  refine ⟨rfl, List.length_set, fun j hj => ?_, fun hr => execResize_keeps (hr ▸ h), fun hf => execFree_keeps (hf ▸ h),
    hbytes⟩
  rw [State.slot_setCode, State.slot_setSlot, if_neg fun hjk => hj hjk.1]

/-! ### Bytes beyond use -/

/-- Padding lies in the last byte in use. -/
theorem paddingCleared.ramRead_beyond {ks : List Nat} {s t : State} (h : paddingCleared ks s t) {k off : Nat}
    (hoff : bytesUsed s k ≤ off) : ramRead t k off = ramRead s k off := by
  refine (h.2 k off).2 fun hp => ?_
  have hlast := (partialByte_iff.1 hp.2).2
  omega

theorem Normalised.ramRead_beyond {a : Nat} {s t : State} (h : Normalised a s t) {k off : Nat}
    (hoff : bytesUsed s k ≤ off) : ramRead t k off = ramRead s k off := by
  obtain ⟨ks, u, r, c, -, hpc, rfl⟩ := h.paddingCleared
  exact hpc.ramRead_beyond hoff

theorem PairOk.paddingCleared {ka kb : Nat} {s : State} (h : PairOk ka kb s) :
    Machine.paddingCleared [ka, kb] s (normalizePair ka kb s) := by
  obtain ⟨ha, hb, -⟩ := h
  exact normalizePair_paddingCleared (State.lt_length_of_valid ha.2) (State.lt_length_of_valid hb.2)

/-- `SETBIT` on an index below the length writes a byte in use. -/
theorem bitWrite_ramRead_beyond {a i : Nat} {s : State} (hi : i < (s.slot a).len) (ha : a < s.slots.length) (v : Bool)
    {k off : Nat} (hoff : bytesUsed s k ≤ off) : ramRead (bitWrite s a i v) k off = ramRead s k off := by
  rw [bitWrite, ramRead_ramWrite ha, if_neg]
  rintro ⟨rfl, rfl⟩
  simp only [bytesUsed, bytesForBits_eq, byteIndex] at hoff
  omega

/-- Settles O46: a command but `WRBYTE` stores no byte, clears padding, or writes one logical bit; and the last two lie
in the bytes in use. -/
theorem bytesBeyondUseKept : Obligations.BytesBeyondUseKept := by
  intro i s t hne h k off hoff
  cases i with
  | nop | decode e | bytesfor | popb b | nibswap b => cases h; rfl
  | create a e => exact slotFieldCommand_ramRead (e := e) (k := a) (by simp) h k off
  | resize a | free a => exact slotFieldCommand_ramRead (e := .little) (k := a) (by simp) h k off
  | wrbyte a b => exact absurd rfl (hne a b)
  | rdbyte a => rw [execRdbyte_frame h]; rfl
  | getbit a => rw [execGetbit_frame h]; rfl
  | setbit a v =>
    rcases execSetbit_next h with ⟨-, rfl⟩ | ⟨hu, ⟨rfl, -⟩ | ⟨rfl, hi, -⟩⟩
    · rfl
    · rfl
    · exact bitWrite_ramRead_beyond hi (State.lt_length_of_valid hu.2) v hoff
  | normtail a => exact (Normalised.ofNormtail h).ramRead_beyond hoff
  | count a => exact (Normalised.ofCount h).ramRead_beyond hoff
  | countn a => exact (execCountn_next h).ramRead_beyond hoff
  | findlast a v => exact (execFindlast_next h).ramRead_beyond hoff
  | cntand a b | cntor a b | cntxor a b =>
    rcases pairCount_next h with ⟨c, -, rfl⟩ | ⟨hok, r, rfl⟩
    · rfl
    · exact (PairOk.paddingCleared hok).ramRead_beyond hoff
  | subset a b =>
    rcases execSubset_next h with ⟨c, -, rfl⟩ | ⟨hok, x, rfl⟩
    · rfl
    · exact (PairOk.paddingCleared hok).ramRead_beyond hoff

end Sys2Proof.Machine
end

section
/-! Every command runs to its end (20_memory.md R55, 60_exceptions.md R217): an operand check ends the command or goes on,
and in a well-formed state the check of RAM offsets goes on. -/

namespace Sys2Proof.Machine

/-- A next state, or the fatal fault; not one of the internal faults of R217, and no refusal. -/
def RunsToEnd (r : Result) : Prop := (∃ t, r = .next t) ∨ ∃ t, r = .fault (.fatal t)

theorem RunsToEnd.next (t : State) : RunsToEnd (.next t) := .inl ⟨t, rfl⟩

section
variable {s : State} {rest : Result} (h : RunsToEnd rest)
include h

theorem checkSlotNumber_runsToEnd (k : Nat) : RunsToEnd (checkSlotNumber k s rest) := by
  rcases checkSlotNumber_cases k s rest with ⟨-, g⟩ | ⟨-, g⟩ <;> rw [g]
  · exact .next _
  · exact h

theorem checkSlot_runsToEnd (k : Nat) : RunsToEnd (checkSlot k s rest) := by
  rcases checkSlot_cases k s rest with ⟨-, g⟩ | ⟨-, g⟩ <;> rw [g]
  · exact .next _
  · exact h

theorem checkCapacity_runsToEnd : RunsToEnd (checkCapacity s rest) := by
  rcases checkCapacity_cases s rest with ⟨-, g⟩ | ⟨-, g⟩ <;> rw [g]
  · exact .next _
  · exact h

theorem checkByteOffset_runsToEnd : RunsToEnd (checkByteOffset s rest) := by
  rcases checkByteOffset_cases s rest with ⟨-, g⟩ | ⟨-, g⟩ <;> rw [g]
  · exact .next _
  · exact h

/-- The checks of `GETBIT` and `SETBIT`. -/
theorem checkBit_runsToEnd (hs : s.wf) (k : Nat) :
    RunsToEnd (checkSlot k s <| checkIndex k s <| checkRam k (byteIndex (s.slot k).endian s.op + 1) s rest) := by
  refine checkSlot_runsToEnd ?_ k
  rcases checkIndex_cases k s (checkRam k (byteIndex (s.slot k).endian s.op + 1) s rest) with
    ⟨-, -, g⟩ | ⟨-, -, g⟩ | ⟨hi, g⟩ <;> rw [g]
  · exact .next _
  · exact .inr ⟨_, rfl⟩
  · rw [hs.checkRam_index hi]
    exact h

/-- The checks of a one-slot command that normalises. -/
theorem checkUsed_runsToEnd (hs : s.wf) (k : Nat) :
    RunsToEnd (checkSlot k s <| checkRam k (bytesUsed s k) s rest) := by
  rw [hs.checkRam_used k]
  exact checkSlot_runsToEnd h k

theorem checkPair_runsToEnd (hs : s.wf) (ka kb : Nat) : RunsToEnd (checkPair ka kb s rest) := by
  rcases checkPair_cases ka kb s rest with ⟨-, g⟩ | ⟨-, ⟨-, g⟩ | ⟨-, ⟨-, g⟩ | ⟨-, g⟩⟩⟩ <;> rw [g]
  · exact .next _
  · exact .next _
  · exact .next _
  · rw [hs.checkRam_used ka]
    exact h

end

theorem execCountn_runsToEnd {s : State} (hs : s.wf) (k : Nat) : RunsToEnd (execCountn k s) := by
  refine checkUsed_runsToEnd ?_ hs k
  split
  · exact .next _
  · dsimp only
    split <;> exact .next _

/-- The last step of `FINDLAST` finds its bit: that its search never falls through is `findlastFrom_spec`. -/
theorem findlastFrom_runsToEnd (k : Nat) (v : Bool) (s : State) : RunsToEnd (findlastFrom k v s) := by
  rcases findlastFrom_spec k v s with ⟨i, -, -, -, g⟩ | ⟨-, g⟩ <;> rw [g] <;> exact .next _

theorem exec_runsToEnd {s : State} (hs : s.wf) (i : Instr) : RunsToEnd (exec i s) := by
  cases i with
  | nop | decode e | bytesfor | popb b | nibswap b => exact .next _
  | create a e => exact checkSlotNumber_runsToEnd (checkCapacity_runsToEnd (.next _)) a
  | resize a => exact checkSlot_runsToEnd (checkCapacity_runsToEnd (.next _)) a
  | free a => exact checkSlot_runsToEnd (.next _) a
  | wrbyte a b => exact checkSlot_runsToEnd (checkByteOffset_runsToEnd (.next _)) a
  | rdbyte a => exact checkSlot_runsToEnd (checkByteOffset_runsToEnd (.next _)) a
  | getbit a | setbit a v => exact checkBit_runsToEnd (.next _) hs a
  | normtail a | count a => exact checkUsed_runsToEnd (.next _) hs a
  | countn a => exact execCountn_runsToEnd hs a
  | findlast a v => exact checkUsed_runsToEnd (findlastFrom_runsToEnd a v _) hs a
  | cntand a b | cntor a b | cntxor a b | subset a b => exact checkPair_runsToEnd (.next _) hs a b

/-- Settles O50: each operand check ends the command or goes on, and what follows the checks answers a next state. -/
theorem everyCommandRunsToItsEnd : Obligations.EveryCommandRunsToItsEnd := fun i _ hs => exec_runsToEnd hs i

end Sys2Proof.Machine
end

section
/-! Decoder and encoder are inverse to each other (30_encoding.md R71 to R82). A command's word has the fixed bits of its
row and gives the operands back; and the fixed bits of a row and the fields its command uses are all 32 bits of a word. -/

namespace Sys2Proof
open Laws.EncodeFits (Statement fixedBits lt_of_slotFieldOk)

/-! ### From a command to its word and back -/

theorem encode_and_fixedBits (i : Instr) : Statement i := by
  cases i with
  | nop => exact Laws.EncodeFits.nop
  | decode e => exact Laws.EncodeFits.decode e
  | bytesfor => exact Laws.EncodeFits.bytesfor
  | popb b => exact Laws.EncodeFits.popb b
  | nibswap b => exact Laws.EncodeFits.nibswap b
  | create a e => exact Laws.EncodeFits.create a e
  | resize a => exact Laws.EncodeFits.resize a
  | free a => exact Laws.EncodeFits.free a
  | wrbyte a b => exact Laws.EncodeFits.wrbyte a b
  | rdbyte a => exact Laws.EncodeFits.rdbyte a
  | getbit a => exact Laws.EncodeFits.getbit a
  | setbit a v => exact Laws.EncodeFits.setbit a v
  | normtail a => exact Laws.EncodeFits.normtail a
  | count a => exact Laws.EncodeFits.count a
  | countn a => exact Laws.EncodeFits.countn a
  | findlast a v => exact Laws.EncodeFits.findlast a v
  | cntand a b => exact Laws.EncodeFits.cntand a b
  | cntor a b => exact Laws.EncodeFits.cntor a b
  | cntxor a b => exact Laws.EncodeFits.cntxor a b
  | subset a b => exact Laws.EncodeFits.subset a b

/-- A command comes back from its word when the row with its opcode has its fixed bits and reads its operands. -/
theorem decode_encode_of_find {i : Instr} (hi : i.wf = true) {make : CmdWord → Instr}
    (hfind : opcodeTable.find? (fun r => opcField r.mtch == opcField (fixedBits i).2) =
      some ⟨(fixedBits i).1, (fixedBits i).2, make⟩)
    (hmake : make (encode i) = i) : decode (encode i) = .ok i :=
  decode_eq_ok_iff.2 ⟨_, List.mem_of_find?_eq_some hfind, encode_and_fixedBits i hi, hmake.symm⟩

/-- Settles O1: by command, its row is the one with its opcode, and each field of the assembled word is the operand. -/
theorem decodeInvertsEncode : Obligations.DecodeInvertsEncode := by
  intro i hi
  cases i with
  | nop | bytesfor => exact decode_encode_of_find hi rfl rfl
  | decode e =>
    exact decode_encode_of_find hi rfl (by simp [encode, eField_assemble])
  | popb b | nibswap b =>
    exact decode_encode_of_find hi rfl (by simp [encode, immField_assemble])
  | create a e =>
    have ha := lt_of_slotFieldOk hi
    exact decode_encode_of_find hi rfl (by simp [encode, baField_assemble, eField_assemble, ha])
  | resize a | free a | rdbyte a | getbit a | normtail a | count a | countn a =>
    have ha := lt_of_slotFieldOk hi
    exact decode_encode_of_find hi rfl (by simp [encode, baField_assemble, ha])
  | wrbyte a b =>
    have ha := lt_of_slotFieldOk hi
    exact decode_encode_of_find hi rfl (by simp [encode, baField_assemble, immField_assemble, ha])
  | setbit a v | findlast a v =>
    have ha := lt_of_slotFieldOk hi
    exact decode_encode_of_find hi rfl (by simp [encode, baField_assemble, vField_assemble, ha])
  | cntand a b | cntor a b | cntxor a b | subset a b =>
    obtain ⟨ha, hb⟩ := Bool.and_eq_true_iff.1 hi
    replace ha := lt_of_slotFieldOk ha
    replace hb := lt_of_slotFieldOk hb
    exact decode_encode_of_find hi rfl (by simp [encode, baField_assemble, bbField_assemble, ha, hb])

/-! ### From a word to its command and back

Each operand in its place is the word with the bits of its field alone. So a word is put together again from the fixed
bits of its row and the fields its command uses: between them they leave no bit of the word out. -/

/-- A field of a word, put back in its place, is the word with the field's bits alone. -/
theorem setWidth_extractLsb'_shiftLeft (w : CmdWord) (start len : Nat) :
    (w.extractLsb' start len).setWidth 32 <<< start = w &&& ((BitVec.allOnes len).setWidth 32 <<< start) := by
  ext j hj
  by_cases hs : j < start
  · simp [hs]
  · simp [hs, hj, show start + (j - start) = j by omega, Bool.and_comm]

theorem baField_shiftLeft (w : CmdWord) : BitVec.ofNat 32 (baField w) <<< 8 = w &&& 0x00000F00#32 := by
  rw [baField, BitVec.ofNat_toNat]
  exact setWidth_extractLsb'_shiftLeft w 8 4

theorem bbField_shiftLeft (w : CmdWord) : BitVec.ofNat 32 (bbField w) <<< 12 = w &&& 0x0000F000#32 := by
  rw [bbField, BitVec.ofNat_toNat]
  exact setWidth_extractLsb'_shiftLeft w 12 4

theorem extractLsb'_one (w : CmdWord) (j : Nat) : w.extractLsb' j 1 = BitVec.ofBool (w.getLsbD j) := by
  ext k hk
  obtain rfl : k = 0 := by omega
  simp

theorem eField_shiftLeft (w : CmdWord) : eBit (eField w) <<< 16 = w &&& 0x00010000#32 := by
  have hbit : eBit (eField w) = (w.extractLsb' 16 1).setWidth 32 := by
    rw [extractLsb'_one, eField]
    cases w.getLsbD 16 <;> rfl
  rw [hbit]
  exact setWidth_extractLsb'_shiftLeft w 16 1

theorem vField_shiftLeft (w : CmdWord) : vBit (vField w) <<< 17 = w &&& 0x00020000#32 := by
  have hbit : vBit (vField w) = (w.extractLsb' 17 1).setWidth 32 := by
    rw [extractLsb'_one, vField]
    cases w.getLsbD 17 <;> rfl
  rw [hbit]
  exact setWidth_extractLsb'_shiftLeft w 17 1

theorem immField_shiftLeft (w : CmdWord) : (immField w).setWidth 32 <<< 24 = w &&& 0xFF000000#32 :=
  setWidth_extractLsb'_shiftLeft w 24 8

/-- An operand the command does not use is 0: the word with no bit of its field. -/
theorem zero_shiftLeft (w : CmdWord) (n : Nat) : 0#32 <<< n = w &&& 0#32 := by simp

/-- A word is put together again from parts that between them have all its bits. -/
theorem assemble_eq_of_parts {w mask m ca cb ce cv ci : CmdWord} {ba bb : Nat} {e : Endian} {v : Bool} {imm : Byte}
    (hm : w &&& mask = m) (ha : BitVec.ofNat 32 ba <<< 8 = w &&& ca) (hb : BitVec.ofNat 32 bb <<< 12 = w &&& cb)
    (he : eBit e <<< 16 = w &&& ce) (hv : vBit v <<< 17 = w &&& cv) (hi : imm.setWidth 32 <<< 24 = w &&& ci)
    (hall : mask ||| ca ||| cb ||| ce ||| cv ||| ci = BitVec.allOnes 32) : assemble m ba bb e v imm = w := by
  rw [assemble, ha, hb, he, hv, hi, ← hm]
  simp only [← BitVec.and_or_distrib_left, hall, BitVec.and_allOnes]

theorem slotFieldOk_baField (w : CmdWord) : slotFieldOk (baField w) = true :=
  decide_eq_true (w.extractLsb' 8 4).isLt

theorem slotFieldOk_bbField (w : CmdWord) : slotFieldOk (bbField w) = true :=
  decide_eq_true (w.extractLsb' 12 4).isLt

theorem make_wf {r : Row} (hr : r ∈ opcodeTable) (w : CmdWord) : (r.make w).wf = true := by
  revert r
  simp [opcodeTable, Instr.wf, slotFieldOk_baField, slotFieldOk_bbField]

section Shapes
/-! One lemma for each set of fields that a command of 30_encoding.md R74 uses. -/

variable {w m : CmdWord}

theorem assemble_of_mask_none (h : w &&& 0xFFFFFFFF#32 = m) : assemble m 0 0 .little false 0 = w :=
  assemble_eq_of_parts h (zero_shiftLeft w 8) (zero_shiftLeft w 12) (zero_shiftLeft w 16) (zero_shiftLeft w 17)
    (zero_shiftLeft w 24) rfl

theorem assemble_of_mask_e (h : w &&& 0xFFFEFFFF#32 = m) : assemble m 0 0 (eField w) false 0 = w :=
  assemble_eq_of_parts h (zero_shiftLeft w 8) (zero_shiftLeft w 12) (eField_shiftLeft w) (zero_shiftLeft w 17)
    (zero_shiftLeft w 24) rfl

theorem assemble_of_mask_imm (h : w &&& 0x00FFFFFF#32 = m) : assemble m 0 0 .little false (immField w) = w :=
  assemble_eq_of_parts h (zero_shiftLeft w 8) (zero_shiftLeft w 12) (zero_shiftLeft w 16) (zero_shiftLeft w 17)
    (immField_shiftLeft w) rfl

theorem assemble_of_mask_ba (h : w &&& 0xFFFFF0FF#32 = m) : assemble m (baField w) 0 .little false 0 = w :=
  assemble_eq_of_parts h (baField_shiftLeft w) (zero_shiftLeft w 12) (zero_shiftLeft w 16) (zero_shiftLeft w 17)
    (zero_shiftLeft w 24) rfl

theorem assemble_of_mask_ba_e (h : w &&& 0xFFFEF0FF#32 = m) : assemble m (baField w) 0 (eField w) false 0 = w :=
  assemble_eq_of_parts h (baField_shiftLeft w) (zero_shiftLeft w 12) (eField_shiftLeft w) (zero_shiftLeft w 17)
    (zero_shiftLeft w 24) rfl

theorem assemble_of_mask_ba_v (h : w &&& 0xFFFDF0FF#32 = m) : assemble m (baField w) 0 .little (vField w) 0 = w :=
  assemble_eq_of_parts h (baField_shiftLeft w) (zero_shiftLeft w 12) (zero_shiftLeft w 16) (vField_shiftLeft w)
    (zero_shiftLeft w 24) rfl

theorem assemble_of_mask_ba_imm (h : w &&& 0x00FFF0FF#32 = m) :
    assemble m (baField w) 0 .little false (immField w) = w :=
  assemble_eq_of_parts h (baField_shiftLeft w) (zero_shiftLeft w 12) (zero_shiftLeft w 16) (zero_shiftLeft w 17)
    (immField_shiftLeft w) rfl

theorem assemble_of_mask_ba_bb (h : w &&& 0xFFFF00FF#32 = m) :
    assemble m (baField w) (bbField w) .little false 0 = w :=
  assemble_eq_of_parts h (baField_shiftLeft w) (bbField_shiftLeft w) (zero_shiftLeft w 16) (zero_shiftLeft w 17)
    (zero_shiftLeft w 24) rfl

end Shapes

/-- The command read from a word by a row that matches it has that word: the rows of 30_encoding.md R75 in their order. -/
theorem encode_make : ∀ r ∈ opcodeTable, ∀ w, w &&& r.mask = r.mtch → encode (r.make w) = w := by
  simp only [opcodeTable, List.forall_mem_cons]
  exact ⟨
    -- 0x0_: pure functions
    fun _ => assemble_of_mask_none, fun _ => assemble_of_mask_e, fun _ => assemble_of_mask_none,
    fun _ => assemble_of_mask_imm, fun _ => assemble_of_mask_imm,
    -- 0x1_: buffer management
    fun _ => assemble_of_mask_ba_e, fun _ => assemble_of_mask_ba, fun _ => assemble_of_mask_ba,
    fun _ => assemble_of_mask_ba_imm, fun _ => assemble_of_mask_ba,
    -- 0x2_: bit access and normalisation
    fun _ => assemble_of_mask_ba, fun _ => assemble_of_mask_ba_v, fun _ => assemble_of_mask_ba,
    -- 0x3_: counting and search
    fun _ => assemble_of_mask_ba, fun _ => assemble_of_mask_ba, fun _ => assemble_of_mask_ba_v,
    -- 0x4_: pairwise reduction
    fun _ => assemble_of_mask_ba_bb, fun _ => assemble_of_mask_ba_bb, fun _ => assemble_of_mask_ba_bb,
    fun _ => assemble_of_mask_ba_bb, nofun⟩

/-- Settles O2: the word matches a row of the table, and the command that row reads from it has this word. -/
theorem encodeInvertsDecode : Obligations.EncodeInvertsDecode := by
  intro w i h
  obtain ⟨r, hr, hw, rfl⟩ := decode_eq_ok_iff.1 h
  exact ⟨make_wf hr w, encode_make r hr w hw⟩

/-! ### Which words are commands -/

theorem exists_decode_eq_ok_iff {w : CmdWord} :
    (∃ i, decode w = .ok i) ↔ ∃ r ∈ opcodeTable, w &&& r.mask = r.mtch := by
  constructor
  · rintro ⟨i, h⟩
    obtain ⟨r, hr, hw, -⟩ := decode_eq_ok_iff.1 h
    exact ⟨r, hr, hw⟩
  · rintro ⟨r, hr, hw⟩
    exact ⟨r.make w, decode_of_row hr hw⟩

/-- The masks and matches of the decoder's table. -/
def tableBits : List (CmdWord × CmdWord) := opcodeTable.map fun r => (r.mask, r.mtch)

theorem exists_decode_eq_ok_iff_tableBits {w : CmdWord} :
    (∃ i, decode w = .ok i) ↔ ∃ p ∈ tableBits, w &&& p.1 = p.2 := by
  simp [exists_decode_eq_ok_iff, tableBits]

theorem tableBits_unique {w : CmdWord} :
    ∀ p ∈ tableBits, ∀ p' ∈ tableBits, w &&& p.1 = p.2 → w &&& p'.1 = p'.2 → p = p' := by
  simp only [tableBits, List.forall_mem_map]
  intro r hr r' hr' hw hw'
  rw [row_unique hr hr' hw hw']

/-- Settles O3: the rows listed are the masks and matches of the decoder's table. -/
theorem acceptedIffOneTableRowMatches : Obligations.AcceptedIffOneTableRowMatches :=
  fun _ => ⟨exists_decode_eq_ok_iff_tableBits, tableBits_unique⟩

theorem decode_ne_ok_of_error {w : CmdWord} {x : Reject} (h : decode w = .error x) (i : Instr) : decode w ≠ .ok i := by
  rw [h]
  exact nofun

/-- Settles O4: the decoder evaluates to each command, and to the rejection of each word that is none. -/
theorem workedEncodingsDecode : Obligations.WorkedEncodingsDecode := by
  refine ⟨rfl, rfl, rfl, rfl, rfl, rfl, rfl, rfl, rfl, ?_⟩
  simp only [List.forall_mem_cons]
  exact ⟨decode_ne_ok_of_error (x := .unassignedOpcode 0x05#8) rfl,
    decode_ne_ok_of_error (x := .unusedBitsSet 0x00040000#32) rfl,
    decode_ne_ok_of_error (x := .unusedBitsSet 0x00010000#32) rfl,
    decode_ne_ok_of_error (x := .unusedBitsSet 0x01000000#32) rfl, nofun⟩

end Sys2Proof
end

section
/-! The bit-address decoder (40_bit_addressing.md R100 to R104): masks and byte counts as numbers, and the two commands
that compute them. -/

namespace Sys2Proof

/-! ### The fields of a command word, as numbers (30_encoding.md R71) -/

theorem baField_eq (w : CmdWord) : baField w = w.toNat / 2 ^ 8 % 16 := by
  rw [baField, BitVec.extractLsb'_toNat, Nat.shiftRight_eq_div_pow]

theorem getLsbD_eq_decide (w : CmdWord) (j : Nat) : w.getLsbD j = decide (w.toNat / 2 ^ j % 2 = 1) :=
  Nat.testBit_eq_decide_div_mod_eq

theorem eField_eq (w : CmdWord) : eField w = if w.toNat / 2 ^ 16 % 2 = 1 then .big else .little := by
  simp only [eField, getLsbD_eq_decide, decide_eq_true_eq]

theorem vField_eq (w : CmdWord) : vField w = decide (w.toNat / 2 ^ 17 % 2 = 1) := getLsbD_eq_decide w 17

end Sys2Proof

namespace Sys2Proof.Machine

/-! ### Masks (R101) -/

theorem bitMask_eq_ofNat (e : Endian) (i : Nat) : bitMask e i = BitVec.ofNat 8 (2 ^ bitPos e i) := by
  rw [bitMask_eq]
  refine BitVec.eq_of_toNat_eq ?_
  rw [BitVec.toNat_shiftLeft, BitVec.toNat_ofNat, BitVec.toNat_ofNat, Nat.shiftLeft_eq,
    Nat.one_mod_two_pow (by decide), Nat.one_mul]

theorem xor_seven_mod_eight (i : Nat) : (i ^^^ 7) % 8 = 7 - i % 8 := by
  have mirror : ∀ r < 8, r ^^^ 7 = 7 - r := by decide
  have hmod : (i ^^^ 7) % 8 = i % 8 ^^^ 7 := Nat.xor_mod_two_pow (n := 3)
  rw [hmod, mirror _ (Nat.mod_lt _ (by decide))]

theorem bitMask_big_eq_little_xor (i : Nat) : bitMask .big i = bitMask .little (i ^^^ 7) := by
  simp only [bitMask, xor_seven_mod_eight]

theorem bitMask_mod (e : Endian) (i : Nat) : bitMask e (i % 8) = bitMask e i := by
  rw [bitMask_eq, bitMask_eq, bitPos_mod]

theorem popcount_bitMask (e : Endian) (i : Nat) : popcount (bitMask e i) = 1 := by
  have oneHot : ∀ p < 8, popcount (1#8 <<< p) = 1 := by decide
  rw [bitMask_eq, oneHot _ (bitPos_lt e i)]

/-- A mask has its own bit, so masks that are equal have their bit at one position. -/
theorem bitMask_inj {e : Endian} {i j : Nat} (h : bitMask e i = bitMask e j) : i % 8 = j % 8 := by
  have hbit := congrArg (fun m : Byte => m.getLsbD (bitPos e i)) h
  simp only [bitMask_getLsbD, decide_true, true_eq_decide_iff] at hbit
  rw [← bitPos_invol e i, hbit, bitPos_invol]

/-- Settles O5: a mask is one bit, at a position that depends on `i mod 8` and tells it. -/
theorem bitMaskIsOneHot : Obligations.BitMaskIsOneHot := by
  refine ⟨fun i => ⟨bitMask_eq_ofNat .little i, bitMask_eq_ofNat .big i, bitMask_big_eq_little_xor i⟩,
    fun e i j => ⟨popcount_bitMask e i, (bitMask_mod e i).symm, mt bitMask_inj, ?_⟩⟩
  cases e <;> rfl

/-! ### The commands `DECODE` and `BYTESFOR` -/

theorem execDecode_eq (e : Endian) (s : State) :
    exec (.decode e) s = .next { s with res := s.op / 8, aux := BitVec.ofNat 8 (2 ^ bitPos e s.op), code := .ok } := by
  rw [← bitMask_eq_ofNat]
  rfl

/-- Settles O12: the command's fields are those of its row, and the mask is a power of two. -/
theorem decodeGivesOffsetAndMask : Obligations.DecodeGivesOffsetAndMask := by
  refine ⟨fun w hw => ?_, fun s => ⟨execDecode_eq .little s, execDecode_eq .big s⟩⟩
  rw [← eField_eq]
  exact decode_of_row (r := ⟨0xFFFEFFFF#32, 0x00000001#32, fun w => .decode (eField w)⟩) (by simp [opcodeTable]) hw

/-- R103's bound on `W`-bit values, and the value that reaches it. -/
theorem bytesForBits_width {W : Nat} (hW : 3 ≤ W) :
    (∀ n, n < 2 ^ W → bytesForBits n ≤ 2 ^ (W - 3)) ∧ bytesForBits (2 ^ W - 1) = 2 ^ (W - 3) := by
  have hpow : 2 ^ (W - 3) * 8 = 2 ^ W := pow_sub_mul_pow 2 hW
  have hpos := Nat.two_pow_pos (W - 3)
  refine ⟨fun n hn => ?_, ?_⟩ <;> rw [bytesForBits_eq] <;> omega

/-- Settles O13: `bytes_for_bits` rounds up to bytes, and `2^W` is `8 * 2^(W-3)`. -/
theorem bytesforGivesByteCount : Obligations.BytesforGivesByteCount := by
  refine ⟨fun w hw => ?_, fun n => ⟨fun h0 => if_pos h0, fun h0 => if_neg h0, bytesForBits_eq n⟩, fun W n hW => ?_,
    fun s => rfl⟩
  · exact decode_of_row (r := ⟨0xFFFFFFFF#32, 0x00000002#32, fun _ => .bytesfor⟩) (by simp [opcodeTable]) hw
  · obtain ⟨hbound, hall1⟩ := bytesForBits_width (W := W) (by omega)
    exact ⟨hbound n, hall1⟩

end Sys2Proof.Machine
end

section
/-! Single-bit access (40_bit_addressing.md R105): what `BitWrite` changes, and the frame of the commands that store one
byte. -/

namespace Sys2Proof.Machine

/-- `BitWrite` over all bits of all slots. -/
theorem bitAt_bitWrite {s : State} {k : Nat} (hk : k < s.slots.length) (i : Nat) (v : Bool) (k' i' : Nat) :
    bitAt (bitWrite s k i v) k' i' = if k' = k ∧ i' = i then v else bitAt s k' i' := by
  obtain ⟨-, -, hfields⟩ := bitWrite_ramOnly s k i v
  obtain ⟨-, hend, -⟩ := hfields k'
  rw [bitAt, hend, ramRead_bitWrite hk i v k' _ _ (bitPos_lt _ _)]
  refine if_congr ⟨?_, ?_⟩ rfl rfl
  · rintro ⟨rfl, hbyte, hpos⟩
    exact ⟨rfl, bitPos_inj hbyte hpos⟩
  · rintro ⟨rfl, rfl⟩
    exact ⟨rfl, rfl, rfl⟩

theorem ramRead_bitWrite_of_ne {s : State} {k : Nat} (hk : k < s.slots.length) (i : Nat) (v : Bool) {k' off : Nat}
    (h : ¬(k' = k ∧ off = byteIndex (s.slot k).endian i)) : ramRead (bitWrite s k i v) k' off = ramRead s k' off := by
  rw [bitWrite, ramRead_ramWrite hk, if_neg h]

/-- Settles O9: `BitRead` reads the bit of its index, and `BitWrite` changes that one bit of that one byte. -/
theorem bitWriteChangesOneBit : Obligations.BitWriteChangesOneBit := by
  intro s k i v _ hvalid _
  have hk := State.lt_length_of_valid hvalid
  refine ⟨rfl, bitWrite_ramOnly s k i v, ?_, fun k' i' hne => ?_, fun k' off hne => ramRead_bitWrite_of_ne hk i v hne⟩
  · rw [bitRead_eq_bitAt, bitAt_bitWrite hk, if_pos ⟨rfl, rfl⟩]
  · rw [bitRead_eq_bitAt, bitRead_eq_bitAt, bitAt_bitWrite hk, if_neg hne]

/-! ### The commands that store: `WRBYTE` and `SETBIT` -/

/-- `t` is `s` but for `STATUS.CODE` and the byte at offset `a` of slot `k`. -/
def StoredAt (k a : Nat) (s t : State) : Prop :=
  ramOnly { s with code := t.code } t ∧ ∀ k' off, ¬(k' = k ∧ off = a) → ramRead t k' off = ramRead s k' off

/-- An error stores nothing. -/
theorem StoredAt.setCode (k a : Nat) (s : State) (c : Code) : StoredAt k a s (s.setCode c) :=
  ⟨ramOnly.refl _, fun _ _ _ => rfl⟩

theorem StoredAt.ramWrite {s : State} {k : Nat} (hk : k < s.slots.length) (a : Nat) (x : Byte) (c : Code) :
    StoredAt k a s ((ramWrite s k a x).setCode c) := by
  refine ⟨ramWrite_ramOnly { s with code := c } k a x, fun k' off hne => ?_⟩
  rw [ramRead_setCode, ramRead_ramWrite hk, if_neg hne]

theorem execWrbyte_storedAt {k : Nat} {b : Byte} {s t : State} (h : execWrbyte k b s = .next t) :
    StoredAt k s.op s t := by
  rcases execWrbyte_next h with ⟨-, rfl⟩ | ⟨hu, ⟨rfl, -⟩ | ⟨rfl, -⟩⟩
  · exact .setCode k s.op s _
  · exact .setCode k s.op s _
  · exact .ramWrite (State.lt_length_of_valid hu.2) s.op b .ok

theorem execSetbit_storedAt {k : Nat} {v : Bool} {s t : State} (h : execSetbit k v s = .next t) :
    StoredAt k (byteIndex (s.slot k).endian s.op) s t := by
  rcases execSetbit_next h with ⟨-, rfl⟩ | ⟨hu, ⟨rfl, -⟩ | ⟨rfl, -⟩⟩
  · exact .setCode k _ s _
  · exact .setCode k _ s _
  · exact .ramWrite (State.lt_length_of_valid hu.2) _ _ .ok

/-- Settles O38: both commands end in an error or store one byte. -/
theorem storingCommandsFrame : Obligations.StoringCommandsFrame := by
  refine fun b v k s t => ⟨fun h => ?_, fun h => ?_⟩
  · obtain ⟨hram, hbytes⟩ := execWrbyte_storedAt h
    exact ⟨hram, fun a ha => ha ▸ hbytes⟩
  · obtain ⟨hram, hbytes⟩ := execSetbit_storedAt h
    exact ⟨hram, fun a ha => ha ▸ hbytes⟩

end Sys2Proof.Machine
end

section
/-! `GETBIT` and `SETBIT` (40_bit_addressing.md R106, R107): their common checks, one equation per outcome, and what each
does on an index in range. -/

namespace Sys2Proof.Machine

theorem checkSlot_of_not_usable {k : Nat} {s : State} (h : ¬s.usable k) (rest : Result) :
    checkSlot k s rest = .next (s.setCode .badSlot) := by
  rcases checkSlot_cases k s rest with ⟨-, g⟩ | ⟨hu, -⟩
  · exact g
  · exact absurd hu h

theorem checkSlot_of_usable {k : Nat} {s : State} (h : s.usable k) (rest : Result) : checkSlot k s rest = rest := by
  rcases checkSlot_cases k s rest with ⟨hu, -⟩ | ⟨-, g⟩
  · exact absurd h hu
  · exact g

theorem checkIndex_of_len_le {k : Nat} {s : State} (h : (s.slot k).len ≤ s.op) (rest : Result) :
    checkIndex k s rest =
      if s.cfg.validating then .next (s.setCode .indexOutOfRange) else .fault (.fatal s.setFatal) :=
  if_pos h

theorem checkIndex_of_lt_len {k : Nat} {s : State} (h : s.op < (s.slot k).len) (rest : Result) :
    checkIndex k s rest = rest :=
  if_neg (Nat.not_le.2 h)

section
variable {k : Nat} {s : State} (hu : s.usable k) (hi : (s.slot k).len ≤ s.op) (rest : Result)
include hu hi

theorem checkBit_validating (hv : s.cfg.validating = true) :
    checkSlot k s (checkIndex k s rest) = .next (s.setCode .indexOutOfRange) := by
  rw [checkSlot_of_usable hu, checkIndex_of_len_le hi, if_pos hv]

theorem checkBit_not_validating (hv : s.cfg.validating = false) :
    checkSlot k s (checkIndex k s rest) = .fault (.fatal s.setFatal) := by
  rw [checkSlot_of_usable hu, checkIndex_of_len_le hi, hv, if_neg Bool.false_ne_true]

end

/-- On an index in range of a buffer the checks of `GETBIT` and `SETBIT` pass. -/
theorem checkBit_inRange {k : Nat} {s : State} (hs : s.wf) (hu : s.usable k) (hi : s.op < (s.slot k).len)
    (rest : Result) :
    (checkSlot k s <| checkIndex k s <| checkRam k (byteIndex (s.slot k).endian s.op + 1) s rest) = rest := by
  rw [checkSlot_of_usable hu, checkIndex_of_lt_len hi, hs.checkRam_index hi]

/-- Settles O16: the row of `GETBIT`, the outcomes of its checks, and `BitRead` reads the bit of its index. -/
theorem getbitReadsAddressedBit : Obligations.GetbitReadsAddressedBit := by
  refine ⟨fun w hw => ?_, fun k s => ⟨fun hu => checkSlot_of_not_usable hu _,
    fun hu hi hv => checkBit_validating hu hi _ hv, fun hu hi hv => checkBit_not_validating hu hi _ hv,
    fun hs hu hi => ?_⟩⟩
  · rw [← baField_eq]
    exact decode_of_row (r := ⟨0xFFFFF0FF#32, 0x00000020#32, fun w => .getbit (baField w)⟩) (by simp [opcodeTable]) hw
  · rw [← bitRead_eq_bitAt]
    exact checkBit_inRange hs hu hi _

/-- Settles O17: the row of `SETBIT`, the outcomes of its checks, and `BitWrite` writes the bit of its index. -/
theorem setbitWritesAddressedBit : Obligations.SetbitWritesAddressedBit := by
  refine ⟨fun w hw => ?_, fun k v s => ⟨fun hu => checkSlot_of_not_usable hu _,
    fun hu hi hv => checkBit_validating hu hi _ hv, fun hu hi hv => checkBit_not_validating hu hi _ hv,
    fun hs hu hi => ⟨bitWrite s k s.op v, checkBit_inRange hs hu hi _, bitWrite_ramOnly s k s.op v,
      fun k' off b hb => ?_⟩⟩⟩
  · rw [← baField_eq, ← vField_eq]
    exact decode_of_row (r := ⟨0xFFFDF0FF#32, 0x00000021#32, fun w => .setbit (baField w) (vField w)⟩)
      (by simp [opcodeTable]) hw
  · rw [ramRead_bitWrite (State.lt_length_of_valid hu.2) s.op v k' off b hb]
    exact ⟨fun haddr => if_pos haddr, fun hother => if_neg hother⟩

end Sys2Proof.Machine
end

section
/-! Tail normalisation (41_buffer.md R128 to R130, R132): clearing padding twice is clearing it once, and a command that
normalised its slots leaves every padding bit 0. -/

namespace Sys2Proof.Machine

/-! ### `Normalize` -/

/-- Padding that is clear already stays as it is. -/
theorem paddingCleared.ramRead_again {ks : List Nat} {s t u : State} (h : paddingCleared ks s t)
    (h' : paddingCleared ks t u) (k off : Nat) : ramRead u k off = ramRead t k off := by
  obtain ⟨hlen, hend, -⟩ := h.1.2.2 k
  by_cases hp : k ∈ ks ∧ partialByte t k off
  · have hps : k ∈ ks ∧ partialByte s k off := by simpa only [partialByte, hlen] using hp
    rw [(h'.2 k off).1 hp, (h.2 k off).1 hps, hlen, hend, BitVec.and_assoc, BitVec.and_self]
  · exact (h'.2 k off).2 hp

/-- Settles O10: `normalize_paddingCleared`, and what cleared padding does to the bits. -/
theorem normalizeClearsPaddingOnly : Obligations.NormalizeClearsPaddingOnly := by
  intro s k _ hvalid
  have hk := State.lt_length_of_valid hvalid
  have hfirst := normalize_paddingCleared hk
  have hk' : k < (normalize k s).slots.length := by rwa [(normalize_ramOnly k s).2.1]
  exact ⟨hfirst, fun i hi => hfirst.bitAt_logical hi,
    fun i hi hi' => hfirst.bitAt_padding (List.mem_singleton_self k) hi hi',
    hfirst.ramRead_again (normalize_paddingCleared hk')⟩

/-! ### After a command that normalises -/

/-- Every padding bit of slot `k` is 0. -/
def PaddingZero (s : State) (k : Nat) : Prop :=
  ∀ x, (s.slot k).len ≤ x → x < 8 * bytesUsed s k → bitAt s k x = false

theorem paddingCleared.paddingZero {ks : List Nat} {s t : State} (h : paddingCleared ks s t) {k : Nat} (hk : k ∈ ks) :
    PaddingZero t k := by
  intro x hx hx'
  rw [(h.1.2.2 k).1] at hx
  rw [h.1.bytesUsed] at hx'
  exact h.bitAt_padding hk hx hx'

theorem Normalised.paddingZero {k : Nat} {s t : State} (h : Normalised k s t) (hc : t.code = .ok ∨ t.code = .notFound) :
    PaddingZero t k := by
  rcases h with ⟨-, rfl⟩ | ⟨⟨hu, -⟩, hnext⟩
  · rcases hc with hc | hc <;> cases hc
  · have hzero : PaddingZero (normalize k s) k :=
      (normalize_paddingCleared (State.lt_length_of_valid hu.2)).paddingZero (List.mem_singleton_self k)
    obtain ⟨r, rfl | ⟨-, rfl⟩⟩ := hnext
    · exact hzero
    · exact hzero

/-- The errors of a pairwise command are neither `OK` nor `NOT_FOUND`. -/
theorem PairError.code_ne {s t : State} (h : PairError s t) : ¬(t.code = .ok ∨ t.code = .notFound) := by
  have error : ∀ c ∈ [Code.badSlot, .lengthMismatch, .endiannessMismatch], ¬(c = .ok ∨ c = .notFound) := by decide
  obtain ⟨c, hc, rfl⟩ := h
  exact error c hc

theorem pairCount_paddingZero {f : Byte → Byte → Byte} {ka kb : Nat} {s t : State} (h : pairCount f ka kb s = .next t)
    (hc : t.code = .ok ∨ t.code = .notFound) {k : Nat} (hk : k ∈ [ka, kb]) : PaddingZero t k := by
  rcases pairCount_next h with herr | ⟨hok, r, rfl⟩
  · exact absurd hc (PairError.code_ne herr)
  · exact (PairOk.paddingCleared hok).paddingZero hk

theorem execSubset_paddingZero {ka kb : Nat} {s t : State} (h : execSubset ka kb s = .next t)
    (hc : t.code = .ok ∨ t.code = .notFound) {k : Nat} (hk : k ∈ [ka, kb]) : PaddingZero t k := by
  rcases execSubset_next h with herr | ⟨hok, x, rfl⟩
  · exact absurd hc (PairError.code_ne herr)
  · exact (PairOk.paddingCleared hok).paddingZero hk

/-- Settles O47: a command of R132's first list that did not end in an error normalised its slot, or both its slots. -/
theorem paddingZeroAfterNormalising : Obligations.PaddingZeroAfterNormalising := by
  intro i s t h hc k hi
  have first : ∀ j, k ∈ [k, j] := fun j => List.mem_cons_self
  have second : ∀ j, k ∈ [j, k] := fun j => List.mem_cons_of_mem j (List.mem_singleton_self k)
  rcases hi with rfl | rfl | rfl | ⟨v, rfl⟩ | ⟨j, rfl | rfl | rfl | rfl | rfl | rfl | rfl | rfl⟩
  · exact (Normalised.ofNormtail h).paddingZero hc
  · exact (Normalised.ofCount h).paddingZero hc
  · exact (execCountn_next h).paddingZero hc
  · exact (execFindlast_next h).paddingZero hc
  · exact pairCount_paddingZero h hc (first j)
  · exact pairCount_paddingZero h hc (second j)
  · exact pairCount_paddingZero h hc (first j)
  · exact pairCount_paddingZero h hc (second j)
  · exact pairCount_paddingZero h hc (first j)
  · exact pairCount_paddingZero h hc (second j)
  · exact execSubset_paddingZero h hc (first j)
  · exact execSubset_paddingZero h hc (second j)

end Sys2Proof.Machine
end

section
/-! The commands of 41_buffer.md R123 to R131, outcome by outcome: the checks as equations, what a replaced slot leaves
alone, and one theorem per command. -/

namespace Sys2Proof

/-! ### Rows of 30_encoding.md R75 -/

theorem immField_eq (w : CmdWord) : immField w = BitVec.ofNat 8 (w.toNat / 2 ^ 24) := by
  rw [immField, BitVec.extractLsb', Nat.shiftRight_eq_div_pow]

/-- The rows whose command has a slot number as its only field. -/
theorem decode_slotRow {opc : CmdWord} {make : Nat → Instr}
    (hr : ⟨0xFFFFF0FF#32, opc, fun w => make (baField w)⟩ ∈ opcodeTable) {w : CmdWord}
    (hw : w &&& 0xFFFFF0FF#32 = opc) :
    decode w = .ok (make (w.toNat / 2 ^ 8 % 16)) := by
  rw [← baField_eq]
  exact decode_of_row hr hw

end Sys2Proof

namespace Sys2Proof.Machine

/-! ### The operand checks, as equations -/

theorem checkSlotNumber_of_le {k : Nat} {s : State} (h : s.cfg.nbuf ≤ k) (rest : Result) :
    checkSlotNumber k s rest = .next (s.setCode .badSlot) :=
  if_pos h

theorem checkSlotNumber_of_lt {k : Nat} {s : State} (h : k < s.cfg.nbuf) (rest : Result) :
    checkSlotNumber k s rest = rest :=
  if_neg (Nat.not_le.2 h)

theorem checkCapacity_of_lt {s : State} (h : maxBits s.cfg < s.op) (rest : Result) :
    checkCapacity s rest = .next (s.setCode .capacityExceeded) :=
  if_pos h

theorem checkCapacity_of_le {s : State} (h : s.op ≤ maxBits s.cfg) (rest : Result) : checkCapacity s rest = rest :=
  if_neg (Nat.not_lt.2 h)

theorem checkByteOffset_of_le {s : State} (h : s.cfg.capBytes ≤ s.op) (rest : Result) :
    checkByteOffset s rest = .next (s.setCode .byteOffsetOutOfRange) :=
  if_pos h

theorem checkByteOffset_of_lt {s : State} (h : s.op < s.cfg.capBytes) (rest : Result) :
    checkByteOffset s rest = rest :=
  if_neg (Nat.not_le.2 h)

/-! ### The commands that write slot fields -/

/-- `t` is `s` with `sl` as slot `k` and the code `OK`: no RAM byte, other slot or other register differs. -/
def SlotReplaced (k : Nat) (sl : Slot) (s t : State) : Prop :=
  t = { s with slots := t.slots, code := .ok } ∧ t.slots.length = s.slots.length ∧ t.slot k = sl ∧
    (∀ j, j ≠ k → t.slot j = s.slot j) ∧ ∀ j off, ramRead t j off = ramRead s j off

theorem SlotReplaced.setSlot {s : State} {k : Nat} {sl : Slot} (hk : k < s.slots.length)
    (hram : sl.ram = (s.slot k).ram) : SlotReplaced k sl s ((s.setSlot k sl).setCode .ok) := by
  refine ⟨rfl, List.length_set, ?_, fun j hj => ?_, fun j off => ramRead_setSlot hram j off⟩
  · rw [State.slot_setCode, State.slot_setSlot, if_pos ⟨rfl, hk⟩]
  · rw [State.slot_setCode, State.slot_setSlot, if_neg fun hjk => hj hjk.1]

/-- Settles O18: the row of `CREATE`, its two checks, and the slot it replaces by one with the same RAM. -/
theorem createMakesBuffer : Obligations.CreateMakesBuffer := by
  refine ⟨fun w hw => ?_, fun k e s => ⟨fun hk => checkSlotNumber_of_le hk _,
    fun hk hc => (checkSlotNumber_of_lt hk _).trans (checkCapacity_of_lt hc _), fun hs hk hc => ?_⟩⟩
  · rw [← baField_eq, ← eField_eq]
    exact decode_of_row (r := ⟨0xFFFEF0FF#32, 0x00000010#32, fun w => .create (baField w) (eField w)⟩)
      (by simp [opcodeTable]) hw
  · obtain ⟨-, -, -, hslots, -⟩ := hs
    obtain ⟨hframe, hlen, hslot, hother, hbytes⟩ := SlotReplaced.setSlot
      (sl := { s.slot k with len := s.op, endian := e, valid := true }) (hk.trans_eq hslots.symm) rfl
    exact ⟨_, (checkSlotNumber_of_lt hk _).trans (checkCapacity_of_le hc _), hframe, hlen, by rw [hslot], by rw [hslot],
      by rw [hslot], hother, hbytes⟩

/-- Settles O19: the row of `RESIZE`, its two checks, and the slot it replaces by one that differs in the length. -/
theorem resizeSetsLengthOnly : Obligations.ResizeSetsLengthOnly :=
  ⟨fun _ hw => decode_slotRow (make := .resize) (by simp [opcodeTable]) hw, fun _ _ =>
    ⟨fun hu => checkSlot_of_not_usable hu _, fun hu hc => (checkSlot_of_usable hu _).trans (checkCapacity_of_lt hc _),
      fun hu hc => ⟨_, (checkSlot_of_usable hu _).trans (checkCapacity_of_le hc _),
        SlotReplaced.setSlot (State.lt_length_of_valid hu.2) rfl⟩⟩⟩

/-- Settles O20: the row of `FREE`, its check, and the slot it replaces by one that differs in the validity. -/
theorem freeClearsValidOnly : Obligations.FreeClearsValidOnly :=
  ⟨fun _ hw => decode_slotRow (make := .free) (by simp [opcodeTable]) hw, fun _ _ =>
    ⟨fun hu => checkSlot_of_not_usable hu _, fun hu => ⟨_, checkSlot_of_usable hu _,
      SlotReplaced.setSlot (State.lt_length_of_valid hu.2) rfl⟩⟩⟩

/-! ### The commands on single bytes -/

/-- Settles O21: the row of `WRBYTE`, its two checks, and one RAM write. -/
theorem wrbyteStoresOneByte : Obligations.WrbyteStoresOneByte := by
  refine ⟨fun w hw => ?_, fun k b s => ⟨fun hu => checkSlot_of_not_usable hu _,
    fun hu ho => (checkSlot_of_usable hu _).trans (checkByteOffset_of_le ho _),
    fun hu ho => ⟨ramWrite s k s.op b, (checkSlot_of_usable hu _).trans (checkByteOffset_of_lt ho _),
      ramWrite_ramOnly s k s.op b, ?_, fun k' off hother => ?_⟩⟩⟩
  · rw [← baField_eq, ← immField_eq]
    exact decode_of_row (r := ⟨0x00FFF0FF#32, 0x00000013#32, fun w => .wrbyte (baField w) (immField w)⟩)
      (by simp [opcodeTable]) hw
  · rw [ramRead_ramWrite (State.lt_length_of_valid hu.2), if_pos ⟨rfl, rfl⟩]
  · rw [ramRead_ramWrite (State.lt_length_of_valid hu.2), if_neg hother]

/-- Settles O22: the row of `RDBYTE` and its two checks; past them it is one RAM read. -/
theorem rdbyteLoadsByteAsStored : Obligations.RdbyteLoadsByteAsStored :=
  ⟨fun _ hw => decode_slotRow (make := .rdbyte) (by simp [opcodeTable]) hw, fun _ _ =>
    ⟨fun hu => checkSlot_of_not_usable hu _, fun hu ho => (checkSlot_of_usable hu _).trans (checkByteOffset_of_le ho _),
      fun hu ho => (checkSlot_of_usable hu _).trans (checkByteOffset_of_lt ho _)⟩⟩

/-! ### `NORMTAIL` and `NOP` -/

theorem ramOnly.usable {s t : State} (h : ramOnly s t) {k : Nat} (hu : s.usable k) : t.usable k := by
  obtain ⟨-, -, hvalid⟩ := h.2.2 k
  exact ⟨by rw [h.cfg]; exact hu.1, hvalid.trans hu.2⟩

theorem execNormtail_of_usable {k : Nat} {s : State} (hs : s.wf) (hu : s.usable k) :
    exec (.normtail k) s = .next ((normalize k s).setCode .ok) :=
  (checkSlot_of_usable hu _).trans (hs.checkRam_used k _)

/-- Settles O23: the row of `NORMTAIL`, its check, and normalisation, which a second time finds the padding clear. -/
theorem normtailClearsPadding : Obligations.NormtailClearsPadding := by
  refine ⟨fun w hw => decode_slotRow (make := .normtail) (by simp [opcodeTable]) hw,
    fun k s => ⟨fun hu => checkSlot_of_not_usable hu _, fun hs hu => ?_⟩⟩
  have hfirst := normalize_paddingCleared (State.lt_length_of_valid hu.2)
  have hu' : (normalize k s).usable k := hfirst.1.usable hu
  exact ⟨normalize k s, execNormtail_of_usable hs hu, hfirst, normalize k (normalize k s),
    exec_setCode .ok (execNormtail_of_usable (normalize_wf hs k) hu'),
    hfirst.ramRead_again (normalize_paddingCleared (State.lt_length_of_valid hu'.2))⟩

/-- Settles O11: the row of `NOP`, which does nothing but end `OK`. -/
theorem nopWritesStatusOnly : Obligations.NopWritesStatusOnly :=
  ⟨fun _ hw => decode_of_row (r := ⟨0xFFFFFFFF#32, 0x00000000#32, fun _ => .nop⟩) (by simp [opcodeTable]) hw,
    fun _ => rfl⟩

end Sys2Proof.Machine
end

section
/-! The population count (42_popcount.md R140 to R144): the table as a sum over bit positions, and the two commands that
count with it. -/

namespace Sys2Proof.Machine

/-! ### The table (R140) -/

theorem popcount_eq_sum (b : Byte) : popcount b = ((List.range 8).map fun j => (b.getLsbD j).toNat).sum := by
  simp only [popcount, div_two_pow_mod_two]

theorem popcount_eq_length_filter (b : Byte) : popcount b = ((List.range 8).filter fun j => b.getLsbD j).length := by
  rw [popcount_eq_sum, length_filter_eq_sum]

/-- Operators whose bits have equal sums at every position have equal sums of counts. -/
theorem popcount_add_congr {a b c d : Byte}
    (h : ∀ j, (a.getLsbD j).toNat + (b.getLsbD j).toNat = (c.getLsbD j).toNat + (d.getLsbD j).toNat) :
    popcount a + popcount b = popcount c + popcount d := by
  simp only [popcount_eq_sum, ← List.sum_map_add, h]

theorem popcount_and_add_or (x y : Byte) : popcount (x &&& y) + popcount (x ||| y) = popcount x + popcount y := by
  refine popcount_add_congr fun j => ?_
  rw [BitVec.getLsbD_and, BitVec.getLsbD_or]
  cases x.getLsbD j <;> cases y.getLsbD j <;> rfl

theorem popcount_zero : popcount 0x00#8 = 0 := rfl

theorem popcount_ones : popcount 0xFF#8 = 8 := rfl

theorem popcount_xor_add_and (x y : Byte) : popcount (x ^^^ y) + popcount (x &&& y) = popcount (x ||| y) := by
  rw [← Nat.add_zero (popcount (x ||| y)), ← popcount_zero]
  refine popcount_add_congr fun j => ?_
  rw [BitVec.getLsbD_xor, BitVec.getLsbD_and, BitVec.getLsbD_or, BitVec.getLsbD_zero]
  cases x.getLsbD j <;> cases y.getLsbD j <;> rfl

/-- A byte and its complement share no bit and have all eight between them. -/
theorem popcount_add_complement (b : Byte) : popcount b + popcount (0xFF#8 - b) = 8 := by
  have hnot : 0xFF#8 - b = ~~~b := BitVec.allOnes_sub_eq_not b
  rw [hnot, ← popcount_and_add_or, BitVec.and_not_self, BitVec.or_not_self]
  rfl

theorem popcount_two_pow {j : Nat} (hj : j < 8) : popcount (BitVec.ofNat 8 (2 ^ j)) = 1 := by
  have hpos : bitPos .little j = j := Nat.mod_eq_of_lt hj
  rw [← hpos, ← bitMask_eq_ofNat, popcount_bitMask]

/-- The number of set bits of `n mod 16`. -/
def nibbleCount (n : Nat) : Nat := ((List.range 4).map fun j => n / 2 ^ j % 2).sum

theorem nibbleCount_mod (n : Nat) : nibbleCount (n % 16) = nibbleCount n := by
  refine congrArg List.sum (List.map_congr_left fun j hj => ?_)
  rw [← Nat.toNat_testBit, ← Nat.toNat_testBit, show n % 16 = n % 2 ^ 4 from rfl, Nat.testBit_mod_two_pow,
    decide_eq_true (List.mem_range.1 hj), Bool.true_and]

theorem popcount_eq_nibbleCount (b : Byte) : popcount b = nibbleCount b.toNat + nibbleCount (b.toNat / 16) := by
  rw [popcount, show List.range 8 = List.range 4 ++ (List.range 4).map (4 + ·) from rfl, List.map_append,
    List.sum_append, List.map_map]
  simp only [nibbleCount, Function.comp_def, pow_add, Nat.div_div_eq_div_mul, Nat.reducePow]

theorem popcount_ofNat_of_lt {n : Nat} (hn : n < 16) : popcount (BitVec.ofNat 8 n) = nibbleCount n := by
  rw [popcount_eq_nibbleCount, BitVec.toNat_ofNat, Nat.mod_eq_of_lt (by omega), Nat.div_eq_of_lt hn]
  rfl

/-- The count of a byte is the sum of the counts of its halves. -/
theorem popcount_nibbles {h l : Nat} (hh : h < 16) (hl : l < 16) :
    popcount (BitVec.ofNat 8 (16 * h + l)) = popcount (BitVec.ofNat 8 h) + popcount (BitVec.ofNat 8 l) := by
  have hhigh : (16 * h + l) / 16 = h := by omega
  have hlow : (16 * h + l) % 16 = l := by omega
  rw [popcount_ofNat_of_lt hh, popcount_ofNat_of_lt hl, popcount_eq_nibbleCount, BitVec.toNat_ofNat,
    Nat.mod_eq_of_lt (by omega), hhigh, ← nibbleCount_mod, hlow, Nat.add_comm]

/-- The entries at `n` and `255 - n` add up to 8, so twice the table's sum is `256 * 8`. -/
theorem popcount_table_sum : ((List.range 256).map fun n => popcount (BitVec.ofNat 8 n)).sum = 1024 := by
  change ∑ n ∈ Finset.range 256, popcount (BitVec.ofNat 8 n) = 1024
  have hpair : ∀ n ∈ Finset.range 256, popcount (BitVec.ofNat 8 n) + popcount (BitVec.ofNat 8 (256 - 1 - n)) = 8 := by
    intro n hn
    have hcompl : BitVec.ofNat 8 (256 - 1 - n) = 0xFF#8 - BitVec.ofNat 8 n := by
      have := Finset.mem_range.1 hn
      bv_omega
    rw [hcompl, popcount_add_complement]
  have htwice := Finset.sum_congr rfl hpair
  rw [Finset.sum_add_distrib, Finset.sum_range_reflect (fun n => popcount (BitVec.ofNat 8 n)), Finset.sum_const,
    Finset.card_range, smul_eq_mul] at htwice
  omega

/-- Settles O6: the table as a sum over bit positions, whose checks are facts about that sum. -/
theorem popcountTableCountsSetBits : Obligations.PopcountTableCountsSetBits :=
  ⟨fun b => ⟨popcount_eq_length_filter b, popcount_le b⟩, popcount_zero, popcount_ones, fun _ => popcount_two_pow,
    popcount_add_complement, fun _ _ => popcount_nibbles, popcount_table_sum,
    fun x y => ⟨popcount_and_add_or x y, Nat.eq_sub_of_add_eq (popcount_xor_add_and x y)⟩⟩

/-! ### The commands `POPB` and `COUNT` -/

/-- Settles O14: the row of `POPB`, which ends `OK` with its byte's count. -/
theorem popbGivesPopcount : Obligations.PopbGivesPopcount := by
  refine ⟨fun w hw => ?_, fun b s => ?_⟩
  · rw [← immField_eq]
    exact decode_of_row (r := ⟨0x00FFFFFF#32, 0x00000003#32, fun w => .popb (immField w)⟩) (by simp [opcodeTable]) hw
  · rw [← popcount_eq_length_filter]
    rfl

theorem execCount_of_usable {k : Nat} {s : State} (hs : s.wf) (hu : s.usable k) :
    exec (.count k) s =
      .next (((normalize k s).setRes (blockSum (normalize k s) k 0 (bytesUsed s k))).setCode .ok) :=
  (checkSlot_of_usable hu _).trans (hs.checkRam_used k _)

theorem blockSum_zero_eq_sum (s : State) (k n : Nat) :
    blockSum s k 0 n = ((List.range n).map fun q => popcount (ramRead s k q)).sum := by
  simp only [blockSum, sumBytes_eq_sum, Nat.sub_zero, Nat.zero_add]

/-- Settles O24: the row of `COUNT`, its check, and the block sum over the normalised buffer, which counts the logical
bits because the padding holds none. -/
theorem countCountsLogicalBits : Obligations.CountCountsLogicalBits := by
  refine ⟨fun w hw => decode_slotRow (make := .count) (by simp [opcodeTable]) hw,
    fun k s => ⟨fun hu => checkSlot_of_not_usable hu _, fun hs hu => ?_⟩⟩
  have hclear := normalize_paddingCleared (State.lt_length_of_valid hu.2)
  have hcount := hclear.blockSum (List.mem_singleton_self k)
  refine ⟨normalize k s, ?_, hclear, cnt_le s k _, ?_⟩
  · rw [execCount_of_usable hs hu, hcount]
    rfl
  · rw [← hcount, blockSum_zero_eq_sum]

end Sys2Proof.Machine
end

section
/-! The searches of 43_search.md: the locator returns the least index with the asked number of set bits below it, the
reverse search the highest index holding a bit. Both are unique, which gives the laws between the commands. -/

namespace Sys2Proof.Machine

/-! ### Counts of bits below an index (R150) -/

theorem lt_of_cnt_lt {s : State} {k i j : Nat} (h : cnt s k i < cnt s k j) : i < j :=
  Nat.lt_of_not_le fun hji => Nat.not_le.2 h (cnt_mono s k hji)

/-- Clear bits add nothing to a count. -/
theorem cnt_eq_of_clear {s : State} {k i j : Nat} (hij : i ≤ j) (h : ∀ x, i ≤ x → x < j → bitAt s k x = false) :
    cnt s k j = cnt s k i := by
  induction j, hij using Nat.le_induction with
  | base => rfl
  | succ j hij ih =>
    rw [cnt_succ, h j hij (Nat.lt_succ_self j), ih fun x hx hxj => h x hx (Nat.lt_succ_of_lt hxj)]
    rfl

theorem cnt_eq_zero_iff {s : State} {k i : Nat} : cnt s k i = 0 ↔ ∀ x, x < i → bitAt s k x ≠ true := by
  rw [cnt, List.length_eq_zero_iff, List.filter_eq_nil_iff]
  simp only [List.mem_range]

theorem cnt_eq_self_iff {s : State} {k i : Nat} : cnt s k i = i ↔ ∀ x, x < i → bitAt s k x ≠ false := by
  have hall := List.length_filter_eq_length_iff (p := fun x => bitAt s k x) (l := List.range i)
  rw [List.length_range] at hall
  rw [cnt, hall]
  simp only [List.mem_range, ne_eq, Bool.not_eq_false]

/-! ### What the locator returns (R151) -/

/-- `i` is the least index of slot `k` with `n` set bits among the logical bits below it. -/
structure LeastIndex (s : State) (k n i : Nat) : Prop where
  le_len : i ≤ (s.slot k).len
  cnt_eq : cnt s k i = n
  below : ∀ j, j < i → cnt s k j < n

namespace LeastIndex

variable {s : State} {k n n' i i' : Nat}

theorem zero (s : State) (k : Nat) : LeastIndex s k 0 0 :=
  ⟨Nat.zero_le _, cnt_zero s k, fun _ h => absurd h (Nat.not_lt_zero _)⟩

/-- A set bit ends a count. -/
theorem of_bit (hi : i < (s.slot k).len) (hb : bitAt s k i = true) : LeastIndex s k (cnt s k (i + 1)) (i + 1) := by
  refine ⟨hi, rfl, fun j hj => ?_⟩
  rw [cnt_succ, hb]
  exact Nat.lt_succ_of_le (cnt_mono s k (Nat.le_of_lt_succ hj))

theorem lt (h : LeastIndex s k n i) (h' : LeastIndex s k n' i') (hn : n < n') : i < i' :=
  lt_of_cnt_lt (by rwa [h.cnt_eq, h'.cnt_eq])

theorem unique (h : LeastIndex s k n i) (h' : LeastIndex s k n i') : i = i' := by
  rcases Nat.lt_trichotomy i i' with hlt | heq | hgt
  · exact absurd h.cnt_eq (h'.below i hlt).ne
  · exact heq
  · exact absurd h'.cnt_eq (h.below i' hgt).ne

/-- The bit before the index is the `n`-th set bit. -/
theorem bit_before (h : LeastIndex s k n i) (hn : n ≠ 0) : 0 < i ∧ bitAt s k (i - 1) = true := by
  cases i with
  | zero => exact absurd h.cnt_eq.symm hn
  | succ i =>
    refine ⟨Nat.succ_pos i, ?_⟩
    have hlt := h.below i (Nat.lt_succ_self i)
    rw [← h.cnt_eq, cnt_succ] at hlt
    rw [Nat.succ_sub_one]
    by_contra hb
    rw [Bool.not_eq_true] at hb
    rw [hb] at hlt
    exact Nat.lt_irrefl _ hlt

end LeastIndex

/-! ### `COUNTN` -/

theorem execCountn_cases_of_usable {k : Nat} {s : State} (hs : s.wf) (hu : s.usable k) :
    (∃ i, LeastIndex s k s.op i ∧ exec (.countn k) s = .next (((normalize k s).setRes i).setCode .ok)) ∨
      cnt s k (s.slot k).len < s.op ∧
        exec (.countn k) s = .next (((normalize k s).setRes (all1 s.cfg)).setCode .notFound) := by
  obtain ⟨-, -, -, hblock, -⟩ := hs.1
  rcases execCountn_cases k hblock with ⟨hn, -⟩ | ⟨-, ⟨hcap, -⟩ | ⟨-, ⟨i, hle, hcnt, hbelow, g⟩ | hnone⟩⟩
  · exact absurd hu hn
  · exact absurd (hs.bytesUsed_le k) (Nat.not_le.2 hcap)
  · exact .inl ⟨i, ⟨hle, hcnt, hbelow⟩, g⟩
  · exact .inr hnone

theorem execCountn_of_le {k : Nat} {s : State} (hs : s.wf) (hu : s.usable k) (h : s.op ≤ cnt s k (s.slot k).len) :
    ∃ i, LeastIndex s k s.op i ∧ exec (.countn k) s = .next (((normalize k s).setRes i).setCode .ok) := by
  rcases execCountn_cases_of_usable hs hu with hfound | ⟨hlt, -⟩
  · exact hfound
  · exact absurd h (Nat.not_le.2 hlt)

theorem execCountn_of_lt {k : Nat} {s : State} (hs : s.wf) (hu : s.usable k) (h : cnt s k (s.slot k).len < s.op) :
    exec (.countn k) s = .next (((normalize k s).setRes (all1 s.cfg)).setCode .notFound) := by
  rcases execCountn_cases_of_usable hs hu with ⟨i, hi, -⟩ | ⟨-, g⟩
  · exact absurd (hi.cnt_eq ▸ cnt_mono s k hi.le_len) (Nat.not_le.2 h)
  · exact g

/-- Settles O25: the row of `COUNTN`, its check, and the least index, which the three tiers find or rule out. -/
theorem countnFindsLeastIndex : Obligations.CountnFindsLeastIndex := by
  refine ⟨fun w hw => decode_slotRow (make := .countn) (by simp [opcodeTable]) hw, fun k s =>
    ⟨fun hu => checkSlot_of_not_usable hu _, fun hs hu hle => ?_, fun hs hu hlt => ?_⟩⟩
  · obtain ⟨i, hi, hexec⟩ := execCountn_of_le hs hu hle
    exact ⟨normalize k s, i, hexec, normalize_paddingCleared (State.lt_length_of_valid hu.2), hi.le_len, hi.cnt_eq,
      fun j hj => (hi.below j hj).ne, fun h0 => (h0 ▸ hi).unique (.zero s k), hi.bit_before⟩
  · exact ⟨normalize k s, execCountn_of_lt hs hu hlt, normalize_paddingCleared (State.lt_length_of_valid hu.2)⟩

/-! ### `FINDLAST` -/

/-- `i` is the highest logical index of slot `k` holding `v`. -/
structure HighestIndex (s : State) (k : Nat) (v : Bool) (i : Nat) : Prop where
  lt_len : i < (s.slot k).len
  bit : bitAt s k i = v
  above : ∀ j, i < j → j < (s.slot k).len → bitAt s k j ≠ v

/-- All set bits lie below the index after the last one. -/
theorem HighestIndex.leastIndex {s : State} {k i : Nat} (h : HighestIndex s k true i) :
    LeastIndex s k (cnt s k (s.slot k).len) (i + 1) := by
  rw [cnt_eq_of_clear h.lt_len fun x hx hxl => Bool.eq_false_of_not_eq_true (h.above x hx hxl)]
  exact .of_bit h.lt_len h.bit

theorem execFindlast_cases_of_usable {k : Nat} {s : State} (hs : s.wf) (hu : s.usable k) (v : Bool) :
    (∃ i, HighestIndex s k v i ∧ exec (.findlast k v) s = .next (((normalize k s).setRes i).setCode .ok)) ∨
      (∀ i, i < (s.slot k).len → bitAt s k i ≠ v) ∧
        exec (.findlast k v) s = .next (((normalize k s).setRes (all1 s.cfg)).setCode .notFound) := by
  rcases execFindlast_cases k v s with ⟨hn, -⟩ | ⟨-, ⟨hcap, -⟩ | ⟨-, ⟨i, hlt, hbit, habove, g⟩ | hnone⟩⟩
  · exact absurd hu hn
  · exact absurd (hs.bytesUsed_le k) (Nat.not_le.2 hcap)
  · exact .inl ⟨i, ⟨hlt, hbit, habove⟩, g⟩
  · exact .inr hnone

/-- Settles O26: the row of `FINDLAST`, its check, and the highest index, which the backward scan finds or rules out. -/
theorem findlastFindsHighestIndex : Obligations.FindlastFindsHighestIndex := by
  refine ⟨fun w hw => ?_, fun k v s => ⟨fun hu => checkSlot_of_not_usable hu _, fun hs hu hsome => ?_,
    fun hs hu hnone => ?_⟩⟩
  · rw [← baField_eq, ← vField_eq]
    exact decode_of_row (r := ⟨0xFFFDF0FF#32, 0x00000032#32, fun w => .findlast (baField w) (vField w)⟩)
      (by simp [opcodeTable]) hw
  · obtain ⟨x, hx, hbit⟩ := hsome
    rcases execFindlast_cases_of_usable hs hu v with ⟨i, hi, hexec⟩ | ⟨hnone, -⟩
    · exact ⟨normalize k s, i, hexec, normalize_paddingCleared (State.lt_length_of_valid hu.2), hi.lt_len, hi.bit,
        hi.above⟩
    · exact absurd hbit (hnone x hx)
  · rcases execFindlast_cases_of_usable hs hu v with ⟨i, hi, -⟩ | ⟨-, hexec⟩
    · exact absurd hi.bit (hnone i hi.lt_len)
    · exact ⟨normalize k s, hexec, normalize_paddingCleared (State.lt_length_of_valid hu.2)⟩

/-- `FINDLAST` by its code: `NOT_FOUND` exactly when no logical bit is `v`, else `OK` with the highest index in `RES`. -/
theorem execFindlast_by_code {k : Nat} {s : State} (hs : s.wf) (hu : s.usable k) (v : Bool) :
    ∃ f, exec (.findlast k v) s = .next f ∧
      (f.code = .notFound ↔ ∀ i, i < (s.slot k).len → bitAt s k i ≠ v) ∧
      (f.code ≠ .notFound → f.code = .ok ∧ HighestIndex s k v f.res) := by
  rcases execFindlast_cases_of_usable hs hu v with ⟨i, hi, hexec⟩ | ⟨hnone, hexec⟩
  · exact ⟨_, hexec, ⟨Code.noConfusion, fun hnone => absurd hi.bit (hnone i hi.lt_len)⟩,
      fun _ => ⟨rfl, hi.lt_len, hi.bit, hi.above⟩⟩
  · exact ⟨_, hexec, ⟨fun _ => hnone, fun _ => rfl⟩, fun hc => absurd rfl hc⟩

/-! ### Laws between `COUNT`, `COUNTN` and `FINDLAST` -/

theorem execCount_res {k : Nat} {s t : State} (hu : s.usable k) (h : exec (.count k) s = .next t) :
    t.res = cnt s k (s.slot k).len := by
  rcases execCount_next h with ⟨hn, -⟩ | ⟨-, rfl⟩
  · exact absurd hu hn
  · rfl

/-- Settles O33: no bit is 1 when the count is 0, and none is 0 when the count is the length. -/
theorem findlastNotFoundIffCount : Obligations.FindlastNotFoundIffCount := by
  intro k s t hs hu ht
  rw [execCount_res hu ht, cnt_eq_zero_iff, cnt_eq_self_iff]
  obtain ⟨f, hexec, hnone, hfound⟩ := execFindlast_by_code hs hu true
  obtain ⟨f', hexec', hnone', -⟩ := execFindlast_by_code hs hu false
  refine ⟨⟨f, hexec, hnone, fun hc => ?_⟩, f', hexec', hnone'⟩
  obtain ⟨hok, hlast⟩ := hfound hc
  exact ⟨hok, hlast.bit, fun i hi hil => Bool.eq_false_of_not_eq_true (hlast.above i hi hil)⟩

/-- `COUNTN` for a count the buffer has. -/
theorem execCountn_setOp {k n : Nat} {s : State} (hs : s.wf) (hu : s.usable k) (hn : n ≤ cnt s k (s.slot k).len) :
    ∃ a, exec (.countn k) (s.setOp n) = .next a ∧ a.code = .ok ∧ LeastIndex s k n a.res := by
  have hs' : (s.setOp n).wf := hs.setOp (hs.lt_of_le_len (hn.trans (cnt_le s k _)))
  obtain ⟨i, hi, hexec⟩ := execCountn_of_le (k := k) hs' hu hn
  exact ⟨_, hexec, rfl, hi.le_len, hi.cnt_eq, hi.below⟩

theorem execCountn_setOp_next {k n : Nat} {s a : State} (hs : s.wf) (hu : s.usable k)
    (hn : n ≤ cnt s k (s.slot k).len) (h : exec (.countn k) (s.setOp n) = .next a) : LeastIndex s k n a.res := by
  obtain ⟨a', h', -, hi⟩ := execCountn_setOp hs hu hn
  rwa [next_inj (h.symm.trans h')]

/-- One more than the total still fits `OP`, and no index has it. -/
theorem execCountn_beyond_total {k : Nat} {s : State} (hs : s.wf) (hu : s.usable k) :
    ∃ t, exec (.countn k) (s.setOp (cnt s k (s.slot k).len + 1)) = .next t ∧ t.code = .notFound := by
  have hfit : cnt s k (s.slot k).len + 1 < 2 ^ s.cfg.idxw := by
    have hcnt := cnt_le s k (s.slot k).len
    have hlen := (hs.slot k).1
    have hmax := maxBits_add_eight_le hs.1
    omega
  exact ⟨_, execCountn_of_lt (k := k) (hs.setOp hfit) hu (Nat.lt_succ_self _), rfl⟩

/-- Settles O32: each property is one of the least index, or says that it is unique. -/
theorem locatorProperties : Obligations.LocatorProperties := by
  intro k s t hs hu ht
  rw [execCount_res hu ht]
  obtain ⟨t0, hexec0, hok0, hi0⟩ := execCountn_setOp hs hu (Nat.zero_le _)
  obtain ⟨t2, hexec2, hok2, hi2⟩ := execCountn_setOp hs hu (Nat.le_refl _)
  refine ⟨⟨t0, hexec0, hok0, hi0.unique (.zero s k)⟩, execCountn_beyond_total hs hu,
    ⟨t2, hexec2, hok2, fun hpos hbit => ?_, fun f hf hokf => ?_⟩, fun n hn => ?_, fun n n' a b _ hlt hn' ha hb => ?_⟩
  · have hend := LeastIndex.of_bit (Nat.sub_one_lt_of_lt hpos) hbit
    rw [Nat.sub_one_add_one hpos.ne'] at hend
    exact hi2.unique hend
  · obtain ⟨f', hf', -, hfound⟩ := execFindlast_by_code hs hu true
    obtain rfl := next_inj (hf.symm.trans hf')
    have hlast := (hfound (by rw [hokf]; exact Code.noConfusion)).2
    exact hi2.unique hlast.leastIndex
  · obtain ⟨a, hexec, hok, hi⟩ := execCountn_setOp hs hu hn
    exact ⟨a, hexec, hok, hi.cnt_eq, fun j hj => (hi.below j hj).ne,
      fun h1 => (hi.bit_before (Nat.one_le_iff_ne_zero.1 h1)).2⟩
  · have hia := execCountn_setOp_next hs hu (hlt.le.trans hn') ha
    have hib := execCountn_setOp_next hs hu hn' hb
    exact hia.lt hib hlt

/-! ### The block size of the tiers (R157) -/

/-- Another `BLOCK_BITS`. -/
def State.setBlockBits (s : State) (b : Nat) : State := { s with cfg := { s.cfg with blockBits := b } }

theorem State.wf.setBlockBits {s : State} (h : s.wf) {b : Nat} (hmod : b % 8 = 0) (hle : 8 ≤ b) :
    (s.setBlockBits b).wf := by
  obtain ⟨⟨hidxw, hnbuf, hcap, -⟩, hrest⟩ := h
  exact ⟨⟨hidxw, hnbuf, hcap, hmod, hle⟩, hrest⟩

theorem clearBits_setBlockBits (k n i : Nat) (s : State) (b : Nat) :
    clearBits k n i (s.setBlockBits b) = (clearBits k n i s).setBlockBits b := by
  induction n generalizing i s with
  | zero => rfl
  | succ n ih => exact ih (i + 1) (bitWrite s k i false)

theorem normalize_setBlockBits (k : Nat) (s : State) (b : Nat) :
    normalize k (s.setBlockBits b) = (normalize k s).setBlockBits b :=
  clearBits_setBlockBits k _ _ s b

/-- Settles O35: whatever the block size, the tiers find the one least index, or none has the count. -/
theorem locatorIndependentOfBlockSize : Obligations.LocatorIndependentOfBlockSize := by
  intro k b s t hs hmod hle ht
  have hs' := hs.setBlockBits hmod hle
  suffices exec (.countn k) (s.setBlockBits b) = .next (t.setBlockBits b) from this
  by_cases hu : s.usable k
  · rcases Nat.lt_or_ge (cnt s k (s.slot k).len) s.op with hlt | hge
    · obtain rfl := next_inj ((execCountn_of_lt hs hu hlt).symm.trans ht)
      rw [execCountn_of_lt (k := k) hs' hu hlt, normalize_setBlockBits]
      rfl
    · obtain ⟨i, hi, hexec⟩ := execCountn_of_le hs hu hge
      obtain ⟨i', hi', hexec'⟩ := execCountn_of_le (k := k) hs' hu hge
      obtain rfl := next_inj (hexec.symm.trans ht)
      have hii' : i = i' := hi.unique ⟨hi'.le_len, hi'.cnt_eq, hi'.below⟩
      rw [hexec', normalize_setBlockBits, hii']
      rfl
  · have hbad : exec (.countn k) s = .next (s.setCode .badSlot) := checkSlot_of_not_usable hu _
    obtain rfl := next_inj (hbad.symm.trans ht)
    exact checkSlot_of_not_usable (s := s.setBlockBits b) hu _

end Sys2Proof.Machine
end

section
/-! The pairwise commands of 44_reduction.md: their rows and their checks, what each leaves, and the laws of R178, which
are laws of counts of bit indices. -/

namespace Sys2Proof

/-! ### Rows of 30_encoding.md R75 -/

theorem bbField_eq (w : CmdWord) : bbField w = w.toNat / 2 ^ 12 % 16 := by
  rw [bbField, BitVec.extractLsb'_toNat, Nat.shiftRight_eq_div_pow]

/-- The rows whose command has two slot numbers as its fields. -/
theorem decode_pairRow {opc : CmdWord} {make : Nat → Nat → Instr}
    (hr : ⟨0xFFFF00FF#32, opc, fun w => make (baField w) (bbField w)⟩ ∈ opcodeTable) {w : CmdWord}
    (hw : w &&& 0xFFFF00FF#32 = opc) :
    decode w = .ok (make (w.toNat / 2 ^ 8 % 16) (w.toNat / 2 ^ 12 % 16)) := by
  rw [← baField_eq, ← bbField_eq]
  exact decode_of_row hr hw

end Sys2Proof

namespace Sys2Proof.Machine

/-! ### Rejected operands (R171, R172) -/

/-- The commands that begin with `PairPrep` on slots `ka` and `kb`. -/
def pairwiseCommands (ka kb : Nat) : List Instr := [.cntand ka kb, .cntor ka kb, .cntxor ka kb, .subset ka kb]

theorem mem_pairwiseCommands {ka kb : Nat} {i : Instr} :
    i ∈ pairwiseCommands ka kb ↔ i = .cntand ka kb ∨ i = .cntor ka kb ∨ i = .cntxor ka kb ∨ i = .subset ka kb := by
  simp only [pairwiseCommands, List.mem_cons, List.not_mem_nil, or_false]

/-- A pairwise command checks its operands before anything else. -/
theorem exec_eq_checkPair {ka kb : Nat} {i : Instr} (hi : i ∈ pairwiseCommands ka kb) (s : State) :
    ∃ rest, exec i s = checkPair ka kb s rest := by
  rcases mem_pairwiseCommands.1 hi with rfl | rfl | rfl | rfl <;> exact ⟨_, rfl⟩

theorem exec_of_pairError {ka kb : Nat} {i : Instr} (hi : i ∈ pairwiseCommands ka kb) {s : State} {c : Code}
    (h : pairError s ka kb = some c) : exec i s = .next (s.setCode c) := by
  obtain ⟨rest, hexec⟩ := exec_eq_checkPair hi s
  rw [hexec, checkPair_of_pairError h]

/-- Settles O27: `pairError` says with which code the checks end, and they come before anything is written. -/
theorem pairChecksComeFirst : Obligations.PairChecksComeFirst := by
  intro ka kb s i hi
  refine ⟨fun ha => exec_of_pairError hi ?_, fun ha hb => exec_of_pairError hi ?_,
    fun ha hb hl => exec_of_pairError hi ?_, fun ha hb hl he => exec_of_pairError hi ?_⟩
  · rw [pairError, if_pos ha]
  · rw [pairError, if_neg (not_not.2 ha), if_pos hb]
  · rw [pairError, if_neg (not_not.2 ha), if_neg (not_not.2 hb), if_pos hl]
  · rw [pairError, if_neg (not_not.2 ha), if_neg (not_not.2 hb), if_neg (not_not.2 hl), if_pos he]

/-! ### Accepted operands (R173 to R177) -/

theorem fold_eq_sum (s : State) (ka kb : Nat) (f : Byte → Byte → Byte) :
    fold s ka kb f =
      ((List.range (bytesUsed s ka)).map fun q => popcount (f (ramRead s ka q) (ramRead s kb q))).sum := by
  simp only [fold, foldFrom_eq_sum, Nat.zero_add]

theorem normalizePair_paddingCleared_of_accepted {ka kb : Nat} {s : State} (h : pairError s ka kb = none) :
    paddingCleared [ka, kb] s (normalizePair ka kb s) := by
  obtain ⟨ha, hb, -⟩ := pairError_eq_none.1 h
  exact normalizePair_paddingCleared (State.lt_length_of_valid ha.2) (State.lt_length_of_valid hb.2)

section
variable {f : Byte → Byte → Byte} {p : Bool → Bool → Bool} (hf : Bitwise f p) (hp : p false false = false)
  {ka kb : Nat} {s : State} (hs : s.wf) (h : pairError s ka kb = none)
include hf hp hs h

theorem pairCount_of_accepted :
    pairCount f ka kb s =
      .next (((normalizePair ka kb s).setRes (cntPair s ka kb p (s.slot ka).len)).setCode .ok) := by
  obtain ⟨ha, hb, hl, he⟩ := pairError_eq_none.1 h
  exact pairCount_compatible hf hp hs ha hb hl he

/-- A counting command sums over the bytes of the normalised operands, and thereby counts logical indices. -/
theorem pairCount_counts :
    ∃ t n, pairCount f ka kb s = .next { t with res := n, code := .ok } ∧ paddingCleared [ka, kb] s t ∧
      n = ((List.range (bytesUsed s ka)).map fun q => popcount (f (ramRead t ka q) (ramRead t kb q))).sum ∧
      n = cntPair s ka kb p (s.slot ka).len := by
  obtain ⟨-, -, hl, he⟩ := pairError_eq_none.1 h
  have hpc := normalizePair_paddingCleared_of_accepted h
  refine ⟨normalizePair ka kb s, cntPair s ka kb p (s.slot ka).len, pairCount_of_accepted hf hp hs h, hpc, ?_, rfl⟩
  rw [← fold_eq_cntPair hf hp hpc hl he, fold_eq_sum, hpc.1.bytesUsed]

end

/-- Settles O28: the row of `CNTAND`, its checks, and `pairCount_counts`. -/
theorem cntandCountsCommonBits : Obligations.CntandCountsCommonBits :=
  ⟨fun _ hw => decode_pairRow (make := .cntand) (by simp [opcodeTable]) hw, fun _ _ _ =>
    ⟨fun _ hc => checkPair_of_pairError hc _, pairCount_counts bitwise_and rfl⟩⟩

/-- Settles O29: the row of `CNTOR`, its checks, and `pairCount_counts`. -/
theorem cntorCountsUnionBits : Obligations.CntorCountsUnionBits :=
  ⟨fun _ hw => decode_pairRow (make := .cntor) (by simp [opcodeTable]) hw, fun _ _ _ =>
    ⟨fun _ hc => checkPair_of_pairError hc _, pairCount_counts bitwise_or rfl⟩⟩

/-- Settles O30: the row of `CNTXOR`, its checks, and `pairCount_counts`. -/
theorem cntxorCountsDifferingBits : Obligations.CntxorCountsDifferingBits :=
  ⟨fun _ hw => decode_pairRow (make := .cntxor) (by simp [opcodeTable]) hw, fun _ _ _ =>
    ⟨fun _ hc => checkPair_of_pairError hc _, pairCount_counts bitwise_xor rfl⟩⟩

/-- Every logical bit set in `a` is set in `b` (R176). -/
def Included (s : State) (ka kb : Nat) : Prop :=
  ∀ i, i < (s.slot ka).len → bitAt s ka i = true → bitAt s kb i = true

/-- `SUBSET` tests the bytes of the normalised operands, and thereby their logical bits. -/
theorem execSubset_tests {ka kb : Nat} {s : State} (hs : s.wf) (h : pairError s ka kb = none) :
    ∃ t r, exec (.subset ka kb) s = .next ((t.setAux (boolByte r)).setCode .ok) ∧ paddingCleared [ka, kb] s t ∧
      (r = true ↔ ∀ q, q < bytesUsed s ka → ramRead t ka q &&& ramRead t kb q = ramRead t ka q) ∧
      (r = true ↔ Included s ka kb) := by
  obtain ⟨ha, hb, hl, he⟩ := pairError_eq_none.1 h
  have hpc := normalizePair_paddingCleared_of_accepted h
  refine ⟨normalizePair ka kb s, _, execSubset_compatible hs ha hb hl he, hpc, ?_, subsetFrom_iff_bits hpc hl he⟩
  simp only [subsetFrom_iff, Nat.zero_le, true_imp_iff, Nat.zero_add]

/-- Settles O31: the row of `SUBSET`, its checks, and `execSubset_tests`. -/
theorem subsetTestsInclusion : Obligations.SubsetTestsInclusion :=
  ⟨fun _ hw => decode_pairRow (make := .subset) (by simp [opcodeTable]) hw, fun _ _ _ =>
    ⟨fun _ hc => checkPair_of_pairError hc _, execSubset_tests⟩⟩

/-! ### Laws of counts of bit indices -/

section
variable (s : State) (ka kb i : Nat)

/-- Bit operators with equal sums at every pair of bits have equal sums of counts. -/
theorem cntPair_add_congr {p q p' q' : Bool → Bool → Bool}
    (h : ∀ a b, (p a b).toNat + (q a b).toNat = (p' a b).toNat + (q' a b).toNat) :
    cntPair s ka kb p i + cntPair s ka kb q i = cntPair s ka kb p' i + cntPair s ka kb q' i := by
  simp only [cntPair, length_filter_eq_sum, ← List.sum_map_add, h]

theorem cntPair_and_add_or :
    cntPair s ka kb (· && ·) i + cntPair s ka kb (· || ·) i = cnt s ka i + cnt s kb i :=
  cntPair_add_congr s ka kb i (p' := fun a _ => a) (q' := fun _ b => b) (by decide)

theorem cntPair_xor_add_and :
    cntPair s ka kb (fun a b => a ^^ b) i + cntPair s ka kb (· && ·) i = cntPair s ka kb (· || ·) i := by
  have hnone : cntPair s ka kb (fun _ _ => false) i = 0 := by simp [cntPair]
  rw [← Nat.add_zero (cntPair s ka kb (· || ·) i), ← hnone]
  exact cntPair_add_congr s ka kb i (by decide)

/-- A symmetric bit operator counts the same with its operands swapped. -/
theorem cntPair_comm {p : Bool → Bool → Bool} (hp : ∀ a b, p a b = p b a) :
    cntPair s kb ka p i = cntPair s ka kb p i := by
  simp only [cntPair, hp (bitAt s kb _)]

variable {s ka kb i}

/-- The common bits are all bits of `a` just when `a`'s bits lie in `b`. -/
theorem cntPair_and_eq_cnt_iff :
    cntPair s ka kb (· && ·) i = cnt s ka i ↔ ∀ x, x < i → bitAt s ka x = true → bitAt s kb x = true := by
  simp only [cntPair, cnt, Bool.and_comm (bitAt s ka _), ← List.filter_filter, List.length_filter_eq_length_iff,
    List.mem_filter, List.mem_range, and_imp]

theorem cntPair_xor_eq_zero_iff :
    cntPair s ka kb (fun a b => a ^^ b) i = 0 ↔ ∀ x, x < i → bitAt s ka x = bitAt s kb x := by
  simp only [cntPair, List.length_eq_zero_iff, List.filter_eq_nil_iff, List.mem_range, bne_iff_ne, ne_eq, not_not]

end

/-- Equality is mutual inclusion. -/
theorem included_and_included_iff {s : State} {ka kb : Nat} (hl : (s.slot ka).len = (s.slot kb).len) :
    Included s ka kb ∧ Included s kb ka ↔ ∀ x, x < (s.slot ka).len → bitAt s ka x = bitAt s kb x := by
  simp only [Included, ← hl, ← forall_and, ← iff_def, ← Bool.eq_iff_iff]

/-! ### Laws between the commands (R178) -/

theorem pairError_eq_none_comm {s : State} {ka kb : Nat} (h : pairError s ka kb = none) : pairError s kb ka = none := by
  obtain ⟨ha, hb, hl, he⟩ := pairError_eq_none.1 h
  exact pairError_eq_none.2 ⟨hb, ha, hl.symm, he.symm⟩

theorem boolByte_eq_one_iff {b : Bool} : boolByte b = 0x01#8 ↔ b = true := by cases b <;> decide

theorem exec_count_res {k : Nat} {s : State} (hs : s.wf) (hu : s.usable k) :
    ∃ t, exec (.count k) s = .next t ∧ t.res = cnt s k (s.slot k).len :=
  ⟨_, execCount_of_usable hs hu, execCount_res hu (execCount_of_usable hs hu)⟩

theorem exec_subset_aux {ka kb : Nat} {s : State} (hs : s.wf) (h : pairError s ka kb = none) :
    ∃ t, exec (.subset ka kb) s = .next t ∧ (t.aux = 0x01#8 ↔ Included s ka kb) := by
  obtain ⟨t, r, hexec, -, -, hr⟩ := execSubset_tests hs h
  exact ⟨_, hexec, boolByte_eq_one_iff.trans hr⟩

/-- Slot 0 holds one clear bit and slot 1 one set bit, so inclusion holds one way only. -/
def clearAndSet : State :=
  { State.reset with slots := [⟨1, .little, true, [(0, 0x00#8)]⟩, ⟨1, .little, true, [(0, 0x01#8)]⟩] }

theorem subset_asymmetric :
    ∃ t t', exec (.subset 0 1) clearAndSet = .next t ∧ exec (.subset 1 0) clearAndSet = .next t' ∧ t.code = .ok ∧
      t'.code = .ok ∧ t.aux ≠ t'.aux :=
  ⟨_, _, rfl, rfl, rfl, rfl, by decide⟩

/-- Settles O34: with every result a count or an inclusion, the laws are those of counts of bit indices; `SUBSET` is not
symmetric on `clearAndSet`. -/
theorem pairwiseIdentities : Obligations.PairwiseIdentities := by
  refine ⟨fun ka kb s hs ha hb hl he => ?_, clearAndSet, ?_⟩
  · have h := pairError_eq_none.2 ⟨ha, hb, hl, he⟩
    have h' := pairError_eq_none_comm h
    obtain ⟨ca, hca, rca⟩ := exec_count_res hs ha
    obtain ⟨cb, hcb, rcb⟩ := exec_count_res hs hb
    obtain ⟨sub, hsub, rsub⟩ := exec_subset_aux hs h
    obtain ⟨sub', hsub', rsub'⟩ := exec_subset_aux hs h'
    refine ⟨ca, cb, _, _, _, _, _, _, sub, sub', hca, hcb, pairCount_of_accepted bitwise_and rfl hs h,
      pairCount_of_accepted bitwise_or rfl hs h, pairCount_of_accepted bitwise_xor rfl hs h,
      pairCount_of_accepted bitwise_and rfl hs h', pairCount_of_accepted bitwise_or rfl hs h',
      pairCount_of_accepted bitwise_xor rfl hs h', hsub, hsub', ?_⟩
    rw [rca, rcb, rsub, rsub', included_and_included_iff hl]
    simp only [State.setCode_res, State.setRes_res, ← hl]
    exact ⟨cntPair_and_add_or s ka kb _, cntPair_and_eq_cnt_iff.symm,
      Nat.eq_sub_of_add_eq (cntPair_xor_add_and s ka kb _), cntPair_comm s ka kb _ Bool.and_comm,
      cntPair_comm s ka kb _ Bool.or_comm, cntPair_comm s ka kb _ Bool.xor_comm, cntPair_xor_eq_zero_iff.symm⟩
  · obtain ⟨t, t', hlaw⟩ := subset_asymmetric
    exact ⟨t, t', by decide, hlaw⟩

/-! ### Frame (R179) -/

/-- `t` is `s` with padding of slots `ka` and `kb`, or of neither, cleared, and with other result registers and code. -/
def PairCleared (ka kb : Nat) (s t : State) : Prop :=
  ∃ ks u r x c, ks ⊆ [ka, kb] ∧ paddingCleared ks s u ∧ t = ((u.setRes r).setAux x).setCode c

theorem PairError.frame {s t : State} (h : PairError s t) (ka kb : Nat) :
    PairCleared ka kb s t ∧ t.res = s.res ∧ t.aux = s.aux := by
  obtain ⟨c, -, rfl⟩ := h
  exact ⟨⟨[], s, s.res, s.aux, c, List.nil_subset _, .refl s, rfl⟩, rfl, rfl⟩

theorem PairOk.pairCleared {ka kb : Nat} {s : State} (h : PairOk ka kb s) (r : Nat) (x : Byte) (c : Code) :
    PairCleared ka kb s ((((normalizePair ka kb s).setRes r).setAux x).setCode c) :=
  ⟨_, _, r, x, c, List.Subset.refl _, PairOk.paddingCleared h, rfl⟩

theorem PairCleared.frame {ka kb : Nat} {s t : State} (h : PairCleared ka kb s t) :
    ramOnly { s with res := t.res, aux := t.aux, code := t.code } t ∧
      (∀ k off, ¬((k = ka ∨ k = kb) ∧ (s.slot k).len % 8 ≠ 0 ∧ off + 1 = bytesUsed s k) →
        ramRead t k off = ramRead s k off) ∧
      ∀ k x, x < (s.slot k).len → bitAt t k x = bitAt s k x := by
  obtain ⟨ks, u, r, x, c, hks, hpc, rfl⟩ := h
  refine ⟨⟨by rw [hpc.1.eq]; rfl, hpc.1.2⟩, fun k off hne => (hpc.2 k off).2 fun hp => hne ?_,
    fun k x hx => hpc.bitAt_logical hx⟩
  obtain ⟨hmem, hpart⟩ := hp
  exact ⟨List.mem_pair.1 (hks hmem), hpart.1, (partialByte_iff.1 hpart).2⟩

theorem pairCount_frame {f : Byte → Byte → Byte} {ka kb : Nat} {s t : State} (h : pairCount f ka kb s = .next t) :
    PairCleared ka kb s t ∧ t.aux = s.aux := by
  rcases pairCount_next h with herr | ⟨hok, r, rfl⟩
  · exact (PairError.frame herr ka kb).imp_right And.right
  · refine ⟨PairOk.pairCleared hok r _ .ok, ?_⟩
    rw [State.setCode_aux, State.setRes_aux, (normalizePair_ramOnly ka kb s).eq]

theorem execSubset_frame {ka kb : Nat} {s t : State} (h : execSubset ka kb s = .next t) :
    PairCleared ka kb s t ∧ t.res = s.res := by
  rcases execSubset_next h with herr | ⟨hok, x, rfl⟩
  · exact (PairError.frame herr ka kb).imp_right And.left
  · refine ⟨PairOk.pairCleared hok _ x .ok, ?_⟩
    rw [State.setCode_res, State.setAux_res, (normalizePair_ramOnly ka kb s).eq]

/-- What a pairwise command changes: padding, its result register and the code. -/
theorem pairwiseCommand_frame {ka kb : Nat} {i : Instr} (hi : i ∈ pairwiseCommands ka kb) {s t : State}
    (h : exec i s = .next t) :
    PairCleared ka kb s t ∧ (i = .subset ka kb → t.res = s.res) ∧ (i ≠ .subset ka kb → t.aux = s.aux) := by
  rcases mem_pairwiseCommands.1 hi with rfl | rfl | rfl | rfl
  · exact (pairCount_frame h).imp_right fun haux => ⟨Instr.noConfusion, fun _ => haux⟩
  · exact (pairCount_frame h).imp_right fun haux => ⟨Instr.noConfusion, fun _ => haux⟩
  · exact (pairCount_frame h).imp_right fun haux => ⟨Instr.noConfusion, fun _ => haux⟩
  · exact (execSubset_frame h).imp_right fun hres => ⟨fun _ => hres, fun hne => absurd rfl hne⟩

/-- Settles O40: cleared padding keeps the logical bits, and each command writes one result register. -/
theorem pairwiseCommandsFrame : Obligations.PairwiseCommandsFrame := by
  intro ka kb s t i hi h
  obtain ⟨hcleared, hres, haux⟩ := pairwiseCommand_frame hi h
  obtain ⟨hram, hbytes, hbits⟩ := hcleared.frame
  exact ⟨hram, hres, haux, hbytes, hbits⟩

end Sys2Proof.Machine
end

section
/-! The nibble-swap table (45_nibble_swap.md R190 to R192): its entries by their halves, and the command that reads
them. -/

namespace Sys2Proof.Machine

/-! ### The table (R190, R192) -/

theorem nibbleSwap_toNat (i : Byte) : (nibbleSwap i).toNat = 16 * (i.toNat % 16) + i.toNat / 16 := by
  rw [nibbleSwap, BitVec.toNat_ofNat]
  exact Nat.mod_eq_of_lt (by omega)

/-- R190's table by halves. -/
theorem nibbleSwap_nibbles {h l : Nat} (hh : h < 16) (hl : l < 16) :
    nibbleSwap (BitVec.ofNat 8 (16 * h + l)) = BitVec.ofNat 8 (16 * l + h) := by
  have hbyte : (BitVec.ofNat 8 (16 * h + l)).toNat = 16 * h + l := Nat.mod_eq_of_lt (by omega)
  have hlow : (16 * h + l) % 16 = l := by omega
  have hhigh : (16 * h + l) / 16 = h := by omega
  rw [nibbleSwap, hbyte, hlow, hhigh]

theorem ofNat_nibbles (i : Byte) : BitVec.ofNat 8 (16 * (i.toNat / 16) + i.toNat % 16) = i := by
  rw [Nat.div_add_mod, BitVec.ofNat_toNat, BitVec.setWidth_eq]

theorem nibbleSwap_nibbleSwap (i : Byte) : nibbleSwap (nibbleSwap i) = i := by
  have hhigh : i.toNat / 16 < 16 := by omega
  calc nibbleSwap (nibbleSwap i)
      = BitVec.ofNat 8 (16 * (i.toNat / 16) + i.toNat % 16) := nibbleSwap_nibbles (Nat.mod_lt _ (by decide)) hhigh
    _ = i := ofNat_nibbles i

/-- The fixed points are the bytes with equal halves, which R192 sets against the source's "fixed-point-free". -/
theorem nibbleSwap_eq_self_iff (i : Byte) : nibbleSwap i = i ↔ i.toNat / 16 = i.toNat % 16 := by
  rw [← BitVec.toNat_inj, nibbleSwap_toNat]
  omega

/-- A byte's count is the sum over its halves, in either order. -/
theorem popcount_nibbleSwap (i : Byte) : popcount (nibbleSwap i) = popcount i := by
  have hhigh : i.toNat / 16 < 16 := by omega
  have hlow : i.toNat % 16 < 16 := Nat.mod_lt _ (by decide)
  rw [nibbleSwap, popcount_nibbles hlow hhigh, Nat.add_comm, ← popcount_nibbles hhigh hlow, ofNat_nibbles]

/-- Settles O7: one entry, and the table's three laws. -/
theorem nibbleSwapIsInvolution : Obligations.NibbleSwapIsInvolution :=
  ⟨rfl, fun i => ⟨nibbleSwap_nibbleSwap i, nibbleSwap_eq_self_iff i, popcount_nibbleSwap i⟩⟩

/-! ### The command `NIBSWAP` (R191) -/

theorem exec_nibswap (b : Byte) (s : State) :
    exec (.nibswap b) s = .next { s with aux := nibbleSwap b, code := .ok } := rfl

/-- Settles O15: the row of `NIBSWAP`, which ends `OK` with its byte's entry of the table. -/
theorem nibswapSwapsNibbles : Obligations.NibswapSwapsNibbles := by
  refine ⟨fun w hw => ?_, fun h l s hh hl => ?_⟩
  · rw [← immField_eq]
    exact decode_of_row (r := ⟨0x00FFFFFF#32, 0x00000004#32, fun w => .nibswap (immField w)⟩) (by simp [opcodeTable]) hw
  · rw [exec_nibswap, nibbleSwap_nibbles hh hl]

end Sys2Proof.Machine
end

section
/-! How a command can end (60_exceptions.md R207, R210, R211, R214, R215), said once for all commands: the operand
checks are followed in turn, and each end carries its reason. The rules over all commands are read off it. -/

namespace Sys2Proof.Machine

/-! ### The ends of a command -/

/-- 60_exceptions.md R214: the codes with which each command can end. -/
def statusCodes : Instr → List Code
  | .nop | .decode _ | .bytesfor | .popb _ | .nibswap _ => [.ok]
  | .create _ _ | .resize _ => [.ok, .badSlot, .capacityExceeded]
  | .free _ | .normtail _ | .count _ => [.ok, .badSlot]
  | .wrbyte _ _ | .rdbyte _ => [.ok, .badSlot, .byteOffsetOutOfRange]
  | .getbit _ | .setbit _ _ => [.ok, .indexOutOfRange, .badSlot]
  | .countn _ | .findlast _ _ => [.ok, .notFound, .badSlot]
  | .cntand _ _ | .cntor _ _ | .cntxor _ _ | .subset _ _ => [.ok, .lengthMismatch, .endiannessMismatch, .badSlot]

/-- The command fails its slot check: `CheckSlot`, or for `CREATE` the check of the number (60_exceptions.md R207). -/
abbrev NamesBadSlot (i : Instr) (s : State) : Prop :=
  (∃ k ∈ namedSlots i, s.cfg.nbuf ≤ k ∨ (s.slot k).valid = false) ∨ ∃ k e, i = .create k e ∧ s.cfg.nbuf ≤ k

/-- The commands that access the bit at index `OP` of slot `k`. -/
abbrev AccessesBit (i : Instr) (k : Nat) : Prop := i = .getbit k ∨ ∃ v, i = .setbit k v

/-- The commands that search slot `k`. -/
abbrev SearchesSlot (i : Instr) (k : Nat) : Prop := i = .countn k ∨ ∃ v, i = .findlast k v

/-- How command `i` can end on `s`. -/
inductive Ends (i : Instr) (s : State) : Result → Prop
  /-- The command does its work. -/
  | ok {t : State} (hcode : t.code = .ok) : Ends i s (.next t)
  | badSlot (hbad : NamesBadSlot i s) : Ends i s (.next (s.setCode .badSlot))
  /-- Any other error of an operand check: nothing but the code is written. -/
  | raised {c : Code} (hrow : c ∈ statusCodes i) (hc : c ∉ [Code.ok, .notFound, .badSlot]) :
      Ends i s (.next (s.setCode c))
  | notFound {k : Nat} (hi : SearchesSlot i k) (hu : s.usable k) :
      Ends i s (.next (((normalize k s).setRes (all1 s.cfg)).setCode .notFound))
  | fatal {k : Nat} (hv : s.cfg.validating = false) (hi : AccessesBit i k) (hu : s.usable k)
      (hle : (s.slot k).len ≤ s.op) : Ends i s (.fault (.fatal s.setFatal))
  /-- The internal fault of R217, which no well-formed state reaches. -/
  | ramOffset (k off : Nat) : Ends i s (.fault (.ramOffset k off))

theorem not_usable_iff {s : State} {k : Nat} : ¬s.usable k ↔ s.cfg.nbuf ≤ k ∨ (s.slot k).valid = false := by
  rw [State.usable, not_and_or, Nat.not_lt, Bool.not_eq_true]

theorem raiseNotFound_normalize (k : Nat) (s : State) :
    raiseNotFound (normalize k s) = .next (((normalize k s).setRes (all1 s.cfg)).setCode .notFound) := by
  rw [raiseNotFound, (normalize_ramOnly k s).cfg]
  rfl

/-! ### The operand checks lead to an end -/

section
variable {i : Instr} {s : State} {rest : Result}

theorem Ends.checkSlot {k : Nat} (hk : k ∈ namedSlots i) (h : s.usable k → Ends i s rest) :
    Ends i s (checkSlot k s rest) := by
  rcases checkSlot_cases k s rest with ⟨hu, g⟩ | ⟨hu, g⟩ <;> rw [g]
  · exact .badSlot (.inl ⟨k, hk, not_usable_iff.1 hu⟩)
  · exact h hu

theorem Ends.checkCapacity (hrow : .capacityExceeded ∈ statusCodes i) (h : Ends i s rest) :
    Ends i s (checkCapacity s rest) := by
  rcases checkCapacity_cases s rest with ⟨-, g⟩ | ⟨-, g⟩ <;> rw [g]
  · exact .raised hrow (by decide)
  · exact h

theorem Ends.checkByteOffset (hrow : .byteOffsetOutOfRange ∈ statusCodes i) (h : Ends i s rest) :
    Ends i s (checkByteOffset s rest) := by
  rcases checkByteOffset_cases s rest with ⟨-, g⟩ | ⟨-, g⟩ <;> rw [g]
  · exact .raised hrow (by decide)
  · exact h

theorem Ends.checkRam (k n : Nat) (h : Ends i s rest) : Ends i s (checkRam k n s rest) := by
  rcases checkRam_cases k n s rest with ⟨-, g⟩ | ⟨-, g⟩ <;> rw [g]
  · exact .ramOffset k _
  · exact h

/-- The check of the index raises or, on a non-validating BVE, is the one way into the fatal state. -/
theorem Ends.checkIndex {k : Nat} (hi : AccessesBit i k) (hu : s.usable k) (h : Ends i s rest) :
    Ends i s (checkIndex k s rest) := by
  rcases checkIndex_cases k s rest with ⟨-, -, g⟩ | ⟨hle, hv, g⟩ | ⟨-, g⟩ <;> rw [g]
  · refine .raised ?_ (by decide)
    rcases hi with rfl | ⟨v, rfl⟩ <;> exact List.mem_cons_of_mem _ List.mem_cons_self
  · exact .fatal hv hi hu hle
  · exact h

/-- The checks of `GETBIT` and `SETBIT`. -/
theorem Ends.checkBit {k : Nat} (hk : k ∈ namedSlots i) (hi : AccessesBit i k) (h : Ends i s rest) :
    Ends i s (Machine.checkSlot k s <| Machine.checkIndex k s <|
      Machine.checkRam k (byteIndex (s.slot k).endian s.op + 1) s rest) :=
  .checkSlot hk fun hu => .checkIndex hi hu (.checkRam k _ h)

/-- The checks of a one-slot command that normalises. -/
theorem Ends.checkUsed {k : Nat} (hk : k ∈ namedSlots i) (h : s.usable k → Ends i s rest) :
    Ends i s (Machine.checkSlot k s <| Machine.checkRam k (bytesUsed s k) s rest) :=
  .checkSlot hk fun hu => .checkRam k _ (h hu)

theorem Ends.checkPair {ka kb : Nat} (hi : i ∈ pairwiseCommands ka kb) (h : Ends i s rest) :
    Ends i s (checkPair ka kb s rest) := by
  have hnamed : namedSlots i = [ka, kb] := by
    rcases mem_pairwiseCommands.1 hi with rfl | rfl | rfl | rfl <;> rfl
  have hcodes : statusCodes i = [.ok, .lengthMismatch, .endiannessMismatch, .badSlot] := by
    rcases mem_pairwiseCommands.1 hi with rfl | rfl | rfl | rfl <;> rfl
  refine .checkSlot (by simp [hnamed]) fun _ => .checkSlot (by simp [hnamed]) fun _ => ?_
  split
  · exact .raised (by simp [hcodes]) (by decide)
  · split
    · exact .raised (by simp [hcodes]) (by decide)
    · exact .checkRam ka _ h

end

theorem execCreate_ends (k : Nat) (e : Endian) (s : State) : Ends (.create k e) s (execCreate k e s) := by
  rcases execCreate_cases k e s with ⟨hk, g⟩ | ⟨-, ⟨-, g⟩ | ⟨-, g⟩⟩ <;> rw [g]
  · exact .badSlot (.inr ⟨k, e, rfl, hk⟩)
  · exact .raised (by simp [statusCodes]) (by decide)
  · exact .ok rfl

theorem execCountn_ends (k : Nat) (s : State) : Ends (.countn k) s (execCountn k s) := by
  refine .checkUsed List.mem_cons_self fun hu => ?_
  split
  · exact .ok rfl
  · dsimp only
    split
    · exact .ok rfl
    · rw [raiseNotFound_normalize]
      exact .notFound (.inl rfl) hu

theorem execFindlast_ends (k : Nat) (v : Bool) (s : State) : Ends (.findlast k v) s (execFindlast k v s) := by
  refine .checkUsed List.mem_cons_self fun hu => ?_
  rcases findlastFrom_spec k v (normalize k s) with ⟨i, -, -, -, g⟩ | ⟨-, g⟩ <;> rw [g]
  · exact .ok rfl
  · rw [raiseNotFound_normalize]
    exact .notFound (.inr ⟨v, rfl⟩) hu

/-- Every outcome of every command is one of these ends. -/
theorem exec_ends (i : Instr) (s : State) : Ends i s (exec i s) := by
  cases i with
  | nop | decode e | bytesfor | popb b | nibswap b => exact .ok rfl
  | create k e => exact execCreate_ends k e s
  | resize k => exact .checkSlot List.mem_cons_self fun _ => .checkCapacity (by simp [statusCodes]) (.ok rfl)
  | free k => exact .checkSlot List.mem_cons_self fun _ => .ok rfl
  | wrbyte k b => exact .checkSlot List.mem_cons_self fun _ => .checkByteOffset (by simp [statusCodes]) (.ok rfl)
  | rdbyte k => exact .checkSlot List.mem_cons_self fun _ => .checkByteOffset (by simp [statusCodes]) (.ok rfl)
  | getbit k => exact .checkBit List.mem_cons_self (.inl rfl) (.ok rfl)
  | setbit k v => exact .checkBit List.mem_cons_self (.inr ⟨v, rfl⟩) (.ok rfl)
  | normtail k | count k => exact .checkUsed List.mem_cons_self fun _ => .ok rfl
  | countn k => exact execCountn_ends k s
  | findlast k v => exact execFindlast_ends k v s
  | cntand a b | cntor a b | cntxor a b | subset a b =>
    exact .checkPair (ka := a) (kb := b) (by simp [pairwiseCommands]) (.ok rfl)

theorem exec_next_ends {i : Instr} {s t : State} (h : exec i s = .next t) : Ends i s (.next t) := h ▸ exec_ends i s

/-! ### The matrix of codes (R214) -/

theorem ok_mem_statusCodes (i : Instr) : .ok ∈ statusCodes i := by cases i <;> exact List.mem_cons_self

theorem badSlot_mem_statusCodes {i : Instr} {s : State} (h : NamesBadSlot i s) : .badSlot ∈ statusCodes i := by
  rcases h with ⟨k, hk, -⟩ | ⟨k, e, rfl, -⟩
  · cases i with
    | nop | decode e | bytesfor | popb b | nibswap b | create k e => cases hk
    | _ => simp [statusCodes]
  · simp [statusCodes]

theorem notFound_mem_statusCodes {i : Instr} {k : Nat} (h : SearchesSlot i k) : .notFound ∈ statusCodes i := by
  rcases h with rfl | ⟨v, rfl⟩ <;> simp [statusCodes]

/-- Settles O42: the code of each end is in the command's row. -/
theorem statusCodeMatrix : Obligations.StatusCodeMatrix := by
  intro i s t h
  suffices t.code ∈ statusCodes i from this
  cases exec_next_ends h with
  | ok hcode => rw [hcode]; exact ok_mem_statusCodes i
  | badSlot hbad => exact badSlot_mem_statusCodes hbad
  | raised hrow => exact hrow
  | notFound hi => exact notFound_mem_statusCodes hi

/-! ### `BadSlot` (R207) -/

theorem exec_of_not_usable {i : Instr} {s : State} {k : Nat} (hk : k ∈ namedSlots i) (h : ¬s.usable k) :
    exec i s = .next (s.setCode .badSlot) := by
  cases i with
  | nop | decode e | bytesfor | popb b | nibswap b | create a e => cases hk
  | resize a | free a | wrbyte a b | rdbyte a | getbit a | setbit a v | normtail a | count a | countn a
  | findlast a v =>
    obtain rfl := List.mem_singleton.1 hk
    exact checkSlot_of_not_usable h _
  | cntand a b | cntor a b | cntxor a b | subset a b =>
    refine exec_of_pairError (ka := a) (kb := b) (by simp [pairwiseCommands]) ?_
    rcases List.mem_pair.1 hk with rfl | rfl
    · rw [pairError, if_pos h]
    · rw [pairError, if_pos h, ite_self]

/-- Settles O43: the slot check is the first of each command, and no other check ends in `BadSlot`. -/
theorem badSlotComesFirst : Obligations.BadSlotComesFirst := by
  refine fun i s => ⟨fun k hk hbad => exec_of_not_usable hk (not_usable_iff.2 hbad), fun k e hi hk => ?_,
    fun t h hcode => ?_⟩
  · subst hi
    exact checkSlotNumber_of_le hk _
  · cases exec_next_ends h with
    | ok hok => cases hok.symm.trans hcode
    | badSlot hbad => exact hbad
    | raised _ hc =>
      obtain rfl : _ = Code.badSlot := hcode
      exact absurd (by decide) hc
    | notFound => cases hcode

/-! ### Errors (R203, R211, R212) -/

/-- `ALL1` is no length of a buffer, so no count and no index (R203). -/
theorem State.wf.ne_all1_of_le_len {s : State} (hs : s.wf) {k n : Nat} (hn : n ≤ (s.slot k).len) :
    n ≠ 2 ^ s.cfg.idxw - 1 := by
  have hlen := (hs.slot k).1
  have hmax := maxBits_add_eight_le hs.1
  omega

theorem execCountn_res_le {k : Nat} {s t : State} (hs : s.wf) (h : exec (.countn k) s = .next t) (hok : t.code = .ok) :
    t.res ≤ (s.slot k).len := by
  obtain ⟨-, -, -, hblock, -⟩ := hs.1
  rcases execCountn_cases k hblock with ⟨-, g⟩ | ⟨-, ⟨-, g⟩ | ⟨-, ⟨i, hi, -, -, g⟩ | ⟨-, g⟩⟩⟩ <;> cases g.symm.trans h
  · cases hok
  · exact hi
  · cases hok

theorem execFindlast_res_le {k : Nat} {v : Bool} {s t : State} (h : exec (.findlast k v) s = .next t)
    (hok : t.code = .ok) : t.res ≤ (s.slot k).len := by
  rcases execFindlast_cases k v s with ⟨-, g⟩ | ⟨-, ⟨-, g⟩ | ⟨-, ⟨i, hi, -, -, g⟩ | ⟨-, g⟩⟩⟩ <;> cases g.symm.trans h
  · cases hok
  · exact hi.le
  · cases hok

theorem execCount_res_le {k : Nat} {s t : State} (h : exec (.count k) s = .next t) (hok : t.code = .ok) :
    t.res ≤ (s.slot k).len := by
  rcases execCount_next h with ⟨-, rfl⟩ | ⟨-, rfl⟩
  · cases hok
  · exact cnt_le s k _

theorem pairCount_res_le {f : Byte → Byte → Byte} {p : Bool → Bool → Bool} (hf : Bitwise f p)
    (hp : p false false = false) {ka kb : Nat} {s t : State} (hs : s.wf) (h : pairCount f ka kb s = .next t)
    (hok : t.code = .ok) : t.res ≤ (s.slot ka).len := by
  rcases pairCount_next h with herr | ⟨⟨ha, hb, hl, he, -⟩, -⟩
  · exact absurd (.inl hok) (PairError.code_ne herr)
  · obtain rfl := next_inj ((pairCount_compatible hf hp hs ha hb hl he).symm.trans h)
    exact cntPair_le s ka kb p _

/-- A count or an index that ends `OK` is at most the length of the first slot. -/
theorem exec_res_le_len {k j : Nat} {v : Bool} {i : Instr}
    (hi : i ∈ [Instr.countn k, .findlast k v, .count k, .cntand k j, .cntor k j, .cntxor k j]) {s t : State} (hs : s.wf)
    (h : exec i s = .next t) (hok : t.code = .ok) : t.res ≤ (s.slot k).len := by
  simp only [List.mem_cons, List.not_mem_nil, or_false] at hi
  rcases hi with rfl | rfl | rfl | rfl | rfl | rfl
  · exact execCountn_res_le hs h hok
  · exact execFindlast_res_le h hok
  · exact execCount_res_le h hok
  · exact pairCount_res_le bitwise_and rfl hs h hok
  · exact pairCount_res_le bitwise_or rfl hs h hok
  · exact pairCount_res_le bitwise_xor rfl hs h hok

/-- Settles O41: the ends with an error write the code, `NOT_FOUND` normalises too, and `ALL1` is no count or index. -/
theorem errorsChangeNothingElse : Obligations.ErrorsChangeNothingElse := by
  intro i s t h
  refine ⟨fun hok hnf => ?_, fun hnf => ?_, fun hs hok k j v hi => hs.ne_all1_of_le_len (exec_res_le_len hi hs h hok)⟩
  · cases exec_next_ends h with
    | ok hcode => exact absurd hcode hok
    | badSlot | raised => rfl
    | notFound => exact absurd rfl hnf
  · cases exec_next_ends h with
    | ok hcode => cases hcode.symm.trans hnf
    | badSlot => cases hnf
    | raised _ hc =>
      obtain rfl : _ = Code.notFound := hnf
      exact absurd (by decide) hc
    | notFound hi hu =>
      exact ⟨_, _, hi, normalize_paddingCleared (State.lt_length_of_valid hu.2), rfl⟩

/-! ### The fatal state (R215) -/

theorem exec_accessesBit {i : Instr} {k : Nat} (hi : AccessesBit i k) {s : State} (hv : s.cfg.validating = false)
    (hu : s.usable k) (hle : (s.slot k).len ≤ s.op) : exec i s = .fault (.fatal s.setFatal) := by
  rcases hi with rfl | ⟨v, rfl⟩ <;> exact checkBit_not_validating hu hle _ hv

theorem exec_fatal_iff {i : Instr} {s t : State} :
    exec i s = .fault (.fatal t) ↔
      s.cfg.validating = false ∧ t = s.setFatal ∧ ∃ k, AccessesBit i k ∧ s.usable k ∧ (s.slot k).len ≤ s.op := by
  refine ⟨fun h => ?_, ?_⟩
  · have hends := exec_ends i s
    rw [h] at hends
    cases hends with
    | fatal hv hi hu hle => exact ⟨hv, rfl, _, hi, hu, hle⟩
  · rintro ⟨hv, rfl, k, hi, hu, hle⟩
    exact exec_accessesBit hi hv hu hle

/-- The outcome is not the fatal fault, and a state it leaves has the `FATAL` of `s`. -/
def KeepsFatal (s : State) (r : Result) : Prop := (∀ t, r ≠ .fault (.fatal t)) ∧ ∀ t, r = .next t → t.fatal = s.fatal

theorem KeepsFatal.next {s t : State} (h : t.fatal = s.fatal) : KeepsFatal s (.next t) :=
  ⟨nofun, fun _ h' => next_inj h' ▸ h⟩

theorem KeepsFatal.refused (s : State) (r : Refusal) : KeepsFatal s (.refused r) := ⟨nofun, nofun⟩

theorem exec_keepsFatal {i : Instr} {s : State} (hv : s.cfg.validating = true) : KeepsFatal s (exec i s) := by
  refine ⟨fun t h => ?_, fun t h => (exec_sameElse h).fatal⟩
  obtain ⟨hnot, -⟩ := exec_fatal_iff.1 h
  exact Bool.false_ne_true (hnot.symm.trans hv)

theorem hostRead_keepsFatal (r : Nat) (s : State) : KeepsFatal s (hostRead r s) := by
  unfold hostRead
  split
  · exact .next rfl
  · exact .refused s _

/-- A step resets, or runs a command, which it does only while `FATAL = 0`, or keeps `FATAL`. -/
theorem step_fatal_cases (s : State) :
    KeepsFatal s (step s) ∨
      (∃ rest, s.hostOps = .reset :: rest ∧ step s = .next (State.resetOf s.cfg (s.draw + 1) rest)) ∨
      s.fatal = false ∧ ∃ i rest w, step s = exec i ((s.dequeue rest).setCmd w) := by
  cases hops : s.hostOps with
  | nil => rw [step_idle hops]; exact .inl (.next rfl)
  | cons o rest =>
    rw [step_serve hops]
    cases o with
    | reset => exact .inr (.inl ⟨rest, rfl, rfl⟩)
    | read r => exact .inl (hostRead_keepsFatal r (s.dequeue rest))
    | write r v =>
      rw [serve]
      rcases hostWrite_cases r v (s.dequeue rest) with
        ⟨-, g⟩ | ⟨width, -, ⟨-, g⟩ | ⟨-, ⟨-, g⟩ | ⟨-, ⟨-, g⟩ | ⟨hf, g⟩⟩ | ⟨-, g⟩⟩⟩ <;> rw [g]
      · exact .inl (.refused s _)
      · exact .inl (.refused s _)
      · exact .inl (.next rfl)
      · exact .inl (.next rfl)
      · rcases runCommand_cases (BitVec.ofNat 32 v) (s.dequeue rest) with ⟨i, -, g⟩ | ⟨-, g⟩ <;> rw [g]
        · exact .inr (.inr ⟨hf, i, rest, _, rfl⟩)
        · exact .inl (.next rfl)
      · exact .inl (.next rfl)

/-- Settles O44: the one end that is the fatal fault, the frame of every command, and the kinds of steps. -/
theorem fatalEnteredInOneCaseOnly : Obligations.FatalEnteredInOneCaseOnly := by
  refine ⟨fun i s t => exec_fatal_iff, fun i s t h => (exec_sameElse h).fatal, fun s hv => ?_⟩
  rcases step_fatal_cases s with ⟨hfault, hnext⟩ | ⟨rest, -, g⟩ | ⟨-, i, rest, w, g⟩
  · exact ⟨hfault, fun t h hf => (hnext t h).symm.trans hf⟩
  · rw [g]
    exact ⟨nofun, fun t h hf => by cases h; cases hf⟩
  · rw [g]
    obtain ⟨hfault, hnext⟩ := exec_keepsFatal (i := i) (s := (s.dequeue rest).setCmd w) hv
    exact ⟨hfault, fun t h hf => (hnext t h).symm.trans hf⟩

/-! ### The `CMD` port (R206, R216) -/

/-- Settles O52: the port stores the word and raises `IllegalCommand`. -/
theorem illegalWordRaisesIllegalCommand : Obligations.IllegalWordRaisesIllegalCommand := by
  intro s v rest hops hv hf hillegal
  rw [step_write_cmd hops hv, if_neg (Bool.eq_false_iff.1 hf)]
  rcases runCommand_cases (BitVec.ofNat 32 v) (s.dequeue rest) with ⟨i, hd, -⟩ | ⟨-, g⟩
  · exact absurd hd (hillegal i)
  · exact g

theorem exists_regRead {s : State} {r : Nat} (h : r < 5 ∨ 16 ≤ r ∧ r < 16 + 2 * s.cfg.nbuf) :
    ∃ x, regRead s r = some x := by
  rcases h with hr | hr
  · match r with
    | 0 | 1 | 2 | 3 | 4 => exact ⟨_, rfl⟩
  · rw [regRead_of_ge s (by omega), if_pos ((isSlotReg_iff _ _).2 hr)]
    exact ⟨_, rfl⟩

/-- Settles O53: the port's answers by register, and the kinds of steps. -/
theorem fatalStateIgnoresCommands : Obligations.FatalStateIgnoresCommands := by
  refine fun s hf => ⟨fun v rest hops hv => ?_, fun v rest hops hv => step_write_op hops hv, fun r rest hops hr => ?_,
    fun t h hclear => ?_⟩
  · rw [step_write_cmd hops hv, if_pos hf]
    rfl
  · obtain ⟨x, hx⟩ := exists_regRead hr
    exact ⟨x, step_read hops hx⟩
  · rcases step_fatal_cases s with ⟨-, hnext⟩ | ⟨rest, hops, -⟩ | ⟨hnot, -⟩
    · cases hclear.symm.trans ((hnext t h).trans hf)
    · exact ⟨rest, hops⟩
    · cases hnot.symm.trans hf

end Sys2Proof.Machine
end

section
/-! The queue of host operations and the parameters over a step (10_state.md R30, 70_reset_and_hazards.md R233): serving
an operation adds none and takes none off, and nothing writes the parameters (00_scope.md R5). -/

namespace Sys2Proof.Machine

/-- A command that leaves a state, fatal or not, leaves the operations still to come and the parameters. -/
theorem exec_keeps_hostOps_cfg {i : Instr} {s t : State} (h : exec i s = .next t ∨ exec i s = .fault (.fatal t)) :
    t.hostOps = s.hostOps ∧ t.cfg = s.cfg := by
  rcases h with hnext | hfatal
  · exact ⟨(exec_sameElse hnext).hostOps, (exec_sameElse hnext).cfg⟩
  · rw [exec_fatal hfatal]
    exact ⟨State.setFatal_hostOps s, State.setFatal_cfg s⟩

/-- Settles O57: with no operation queued the step is idle; else, whatever operation is taken off, serving it keeps the
rest, a command by `exec_keeps_hostOps_cfg`. -/
theorem stepServesOldestOperation : Obligations.StepServesOldestOperation := by
  refine fun s => ⟨step_idle, fun t h => ?_⟩
  rcases step_cases h with ⟨hempty, rfl⟩ | ⟨o, rest, hops, hserved⟩
  · exact ⟨by rw [hempty, List.tail_nil], rfl⟩
  · rw [hops, List.tail_cons]
    rcases hserved with ⟨-, rfl⟩ | ⟨r, v, -, -, rfl⟩ | ⟨v, -, -, rfl⟩ | ⟨v, -, -, ⟨i, -, hexec⟩ | rfl⟩ |
      ⟨r, v, -, -, rfl⟩
    · exact ⟨rfl, rfl⟩
    · exact ⟨rfl, rfl⟩
    · exact ⟨rfl, rfl⟩
    · exact exec_keeps_hostOps_cfg hexec
    · exact ⟨rfl, rfl⟩
    · exact ⟨rfl, rfl⟩

end Sys2Proof.Machine
end
